-- ==== Sys2Proof/Word.lean ====
section
/-! DEFINITION. The values the CORE computes with (00_scope.md R13): bytes, 16-bit words, register and key indices. -/

namespace Sys2Proof

/-- A `u8`: a V register, a timer, a memory cell (00_scope.md R13). -/
abbrev Byte := BitVec 8

/-- A `u16`: PC, I, a stack entry, an instruction word (00_scope.md R13). -/
abbrev Word := BitVec 16

/-- A `u4` that selects a general register: V0 is 0, VF is 15 (10_state.md R32). -/
abbrev Reg := Fin 16

/-- A `u4` that selects a key (10_state.md R47). -/
abbrev Key := Fin 16

/-- VF, the flag register (10_state.md R34, R43). -/
abbrev Reg.vf : Reg := 15

end Sys2Proof
end

