-- ==== Sys2Proof/Syntax.lean ====
section
/-! DEFINITION. The instructions: one constructor for each row of spec/opcode_table.json (30_encoding.md R105). -/

namespace Sys2Proof

/-- An instruction with its operands, named as in 00_scope.md R16: registers `x` and `y`, the immediate `kk`, the
address `nnn`, the row count `n`. -/
inductive Instr where
  /-- `00E0`: clear the screen (41_control_flow.md R161). -/
  | cls
  /-- `00EE`: return from subroutine (41_control_flow.md R162). -/
  | ret
  /-- `1nnn`: jump (41_control_flow.md R163). -/
  | jp (nnn : BitVec 12)
  /-- `2nnn`: call subroutine (41_control_flow.md R164). -/
  | call (nnn : BitVec 12)
  /-- `3xkk`: skip if Vx = kk (42_conditional_skip.md R181). -/
  | seImm (x : Reg) (kk : Byte)
  /-- `4xkk`: skip if Vx ≠ kk (42_conditional_skip.md R182). -/
  | sneImm (x : Reg) (kk : Byte)
  /-- `5xy0`: skip if Vx = Vy (42_conditional_skip.md R183). -/
  | seReg (x y : Reg)
  /-- `6xkk`: load an immediate (43_register_arithmetic.md R203). -/
  | ldImm (x : Reg) (kk : Byte)
  /-- `7xkk`: add an immediate, no flag (43_register_arithmetic.md R204). -/
  | addImm (x : Reg) (kk : Byte)
  /-- `8xy0`: copy Vy into Vx (43_register_arithmetic.md R205). -/
  | ldReg (x y : Reg)
  /-- `8xy1`: bitwise OR (43_register_arithmetic.md R206). -/
  | orReg (x y : Reg)
  /-- `8xy2`: bitwise AND (43_register_arithmetic.md R207). -/
  | andReg (x y : Reg)
  /-- `8xy3`: bitwise XOR (43_register_arithmetic.md R208). -/
  | xorReg (x y : Reg)
  /-- `8xy4`: add, carry to VF (43_register_arithmetic.md R209). -/
  | addReg (x y : Reg)
  /-- `8xy5`: Vx − Vy, not-borrow to VF (43_register_arithmetic.md R210). -/
  | subReg (x y : Reg)
  /-- `8xy6`: shift Vx right by one (43_register_arithmetic.md R211). `y` is in the word and has no effect
  (30_encoding.md R108); it is kept here so that the word can be rebuilt. -/
  | shr (x y : Reg)
  /-- `8xy7`: Vy − Vx into Vx, not-borrow to VF (43_register_arithmetic.md R212). -/
  | subn (x y : Reg)
  /-- `8xyE`: shift Vx left by one (43_register_arithmetic.md R213). `y` as in `shr`. -/
  | shl (x y : Reg)
  /-- `9xy0`: skip if Vx ≠ Vy (42_conditional_skip.md R184). -/
  | sneReg (x y : Reg)
  /-- `Annn`: load I (44_index_memory.md R241). -/
  | ldI (nnn : BitVec 12)
  /-- `Bnnn`: jump to nnn + V0 (41_control_flow.md R165). -/
  | jpV0 (nnn : BitVec 12)
  /-- `Cxkk`: random byte AND kk (43_register_arithmetic.md R214). -/
  | rnd (x : Reg) (kk : Byte)
  /-- `Dxyn`: draw a sprite of `n` rows (46_drawing.md R288). -/
  | drw (x y : Reg) (n : Nat)
  /-- `Ex9E`: skip if the key in Vx is pressed (42_conditional_skip.md R185). -/
  | skp (x : Reg)
  /-- `ExA1`: skip if the key in Vx is not pressed (42_conditional_skip.md R186). -/
  | sknp (x : Reg)
  /-- `Fx07`: read the delay timer (45_timers.md R271). -/
  | ldVxDT (x : Reg)
  /-- `Fx0A`: wait for a key press (47_input.md R314). -/
  | ldVxK (x : Reg)
  /-- `Fx15`: set the delay timer (45_timers.md R272). -/
  | ldDTVx (x : Reg)
  /-- `Fx18`: set the sound timer (45_timers.md R273). -/
  | ldSTVx (x : Reg)
  /-- `Fx1E`: add Vx to I (44_index_memory.md R242). -/
  | addI (x : Reg)
  /-- `Fx29`: point I at a glyph (44_index_memory.md R243). -/
  | ldF (x : Reg)
  /-- `Fx33`: store the BCD digits of Vx (44_index_memory.md R244). -/
  | ldB (x : Reg)
  /-- `Fx55`: store V0..Vx (44_index_memory.md R245). -/
  | ldStore (x : Reg)
  /-- `Fx65`: load V0..Vx (44_index_memory.md R246). -/
  | ldLoad (x : Reg)
  deriving DecidableEq, Repr

end Sys2Proof
end

