-- ==== Sys2Proof/Config.lean ====
section
/-! DEFINITION. What an implementation fixes (00_scope.md R10): the parameters, the sizes State's types are built from, and
the one free value. -/

namespace Sys2Proof

/-! ### The sizes in State's types. Each is this hardware's value of the parameter it is named after. -/

/-- `MEM_SIZE` of State's memory (00_scope.md R10, 20_memory.md R70). -/
@[reducible, simp] def Size.memSize : Nat := 4096

/-- `STACK_DEPTH` of State's stack (00_scope.md R10). -/
@[reducible, simp] def Size.stackDepth : Nat := 16

/-- `FB_W` of State's framebuffer (00_scope.md R10, R11). -/
@[reducible, simp] def Size.fbW : Nat := 64

/-- `FB_H` of State's framebuffer (00_scope.md R10, R11). -/
@[reducible, simp] def Size.fbH : Nat := 32

/-- `ORIGIN_WRAP`: how a sprite's origin is reduced (46_drawing.md R284, decision D3). -/
inductive OriginWrap where
  | dimMinus1
  | dim
  deriving DecidableEq, Repr

/-- `KEY_WAIT_STALE`: whether Fx0A takes a press posted before it began (47_input.md R314, decision D13). -/
inductive KeyWaitStale where
  | consume
  | clearOnEntry
  deriving DecidableEq, Repr

/-- `RESERVED_WRITE`: what a store into 0x000..0x1FF does (20_memory.md R73, decision D11). -/
inductive ReservedWritePolicy where
  | fault
  | allow
  deriving DecidableEq, Repr

/-- `KEY_INDEX_POLICY`: what Ex9E and ExA1 do when Vx > 0xF (42_conditional_skip.md R187, decision D12). -/
inductive KeyIndexPolicy where
  | fault
  | lowNibble
  deriving DecidableEq, Repr

/-- `FLAG_ORDER`: which write to VF is kept when x = F (43_register_arithmetic.md R201, decision D8). -/
inductive FlagOrder where
  | flagLast
  | resultLast
  deriving DecidableEq, Repr

/-- `RESET_FILL`: the reset value of the state the source gives none for (10_state.md R51, decision D5). -/
inductive ResetFill where
  | zero
  | arbitrary
  deriving DecidableEq, Repr

/-- Every parameter of 00_scope.md R10, by its name there. This hardware's values are `Sys2Proof.Machine.hardware`.
Log entry 12. -/
structure Config where
  /-- `MEM_SIZE`: cells of memory. -/
  memSize : Nat
  /-- `RESERVED_LO`, the first reserved address. -/
  reservedLo : Nat
  /-- `RESERVED_HI`, the last reserved address. -/
  reservedHi : Nat
  /-- `PROG_BASE`: where the program image is loaded and where PC starts. -/
  progBase : Nat
  /-- `FONT_BASE`. -/
  fontBase : Nat
  /-- `FONT_GLYPH_BYTES`. -/
  fontGlyphBytes : Nat
  /-- `FONT_SIZE`. -/
  fontSize : Nat
  /-- `FONT_TABLE`: the bytes of 10_state.md R45. -/
  fontTable : List Byte
  /-- `NREG`: general registers. -/
  nreg : Nat
  /-- `REG_BITS`: width of a V register. -/
  regBits : Nat
  /-- `I_BITS`: width of I. -/
  iBits : Nat
  /-- `PC_BITS`: width of PC. -/
  pcBits : Nat
  /-- `STACK_DEPTH`: stack entries. -/
  stackDepth : Nat
  /-- `STACK_ENTRY_BITS`: width of a stack entry. -/
  stackEntryBits : Nat
  /-- `SP_RANGE`, its least value. -/
  spMin : Nat
  /-- `SP_RANGE`, its greatest value. -/
  spMax : Nat
  /-- `TIMER_BITS`: width of DT and ST. -/
  timerBits : Nat
  /-- `FB_W`: the framebuffer's columns (also 00_scope.md R11). -/
  fbW : Nat
  /-- `FB_H`: the framebuffer's rows (also 00_scope.md R11). -/
  fbH : Nat
  /-- `NKEYS`: key-state entries. -/
  nkeys : Nat
  /-- `INSTR_HZ`, nominal; no rule depends on it (also 40_execution_cycle.md R141). -/
  instrHz : Nat
  /-- `TIMER_HZ`; no rule depends on it (also 40_execution_cycle.md R141). -/
  timerHz : Nat
  /-- `SPRITE_MAX_ROWS`. -/
  spriteMaxRows : Nat
  /-- `ORIGIN_WRAP`. -/
  originWrap : OriginWrap
  /-- `TIMERS_DURING_KEY_WAIT`. -/
  timersDuringKeyWait : Bool
  /-- `KEY_WAIT_STALE`. -/
  keyWaitStale : KeyWaitStale
  /-- `RESERVED_WRITE`. -/
  reservedWrite : ReservedWritePolicy
  /-- `KEY_INDEX_POLICY`. -/
  keyIndexPolicy : KeyIndexPolicy
  /-- `FLAG_ORDER`. -/
  flagOrder : FlagOrder
  /-- `RESET_FILL`. -/
  resetFill : ResetFill
  deriving DecidableEq, Repr

/-- The address lies in `RESERVED_LO`..`RESERVED_HI` (00_scope.md R10, 20_memory.md R73, R74). -/
def Config.reserved (c : Config) (a : Nat) : Bool := c.reservedLo ≤ a && a ≤ c.reservedHi

/-- The longest program image: it ends at the last cell (70_reset_and_hazards.md R372). -/
def Config.maxImage (c : Config) : Nat := c.memSize - c.progBase

/-- The byte on the `rand_byte` input at the n-th draw of a session (43_register_arithmetic.md R214,
60_exceptions.md R354). A FREE VALUE: it has no body, so a proved statement holds whatever the draws are.
Log entry 2. -/
opaque Config.randByte : Nat → Byte

end Sys2Proof
end

