-- ==== Sys2Proof/Machine/Hardware.lean ====
section
/-! DEFINITION. This hardware's values of the parameters (00_scope.md R10) and its font (10_state.md R45). -/

namespace Sys2Proof.Machine

/-- `FONT_TABLE`: the glyphs of digits 0 to F, five bytes each (10_state.md R45). -/
def fontTable : List Byte :=
  [0xF0, 0x90, 0x90, 0x90, 0xF0] ++ [0x20, 0x60, 0x20, 0x20, 0x70]
  ++ [0xF0, 0x10, 0xF0, 0x80, 0xF0] ++ [0xF0, 0x10, 0xF0, 0x10, 0xF0]
  ++ [0x90, 0x90, 0xF0, 0x10, 0x10] ++ [0xF0, 0x80, 0xF0, 0x10, 0xF0]
  ++ [0xF0, 0x80, 0xF0, 0x90, 0xF0] ++ [0xF0, 0x10, 0x20, 0x40, 0x40]
  ++ [0xF0, 0x90, 0xF0, 0x90, 0xF0] ++ [0xF0, 0x90, 0xF0, 0x10, 0xF0]
  ++ [0xF0, 0x90, 0xF0, 0x90, 0x90] ++ [0xE0, 0x90, 0xE0, 0x90, 0xE0]
  ++ [0xF0, 0x80, 0x80, 0x80, 0xF0] ++ [0xE0, 0x90, 0x90, 0x90, 0xE0]
  ++ [0xF0, 0x80, 0xF0, 0x80, 0xF0] ++ [0xF0, 0x80, 0xF0, 0x80, 0x80]

/-- The column "value" of 00_scope.md R10. -/
def hardware : Config where
  memSize := Size.memSize
  reservedLo := 0x000
  reservedHi := 0x1FF
  progBase := 0x200
  fontBase := 0x050
  fontGlyphBytes := 5
  fontSize := 80
  fontTable := fontTable
  nreg := 16
  regBits := 8
  iBits := 16
  pcBits := 16
  stackDepth := Size.stackDepth
  stackEntryBits := 16
  spMin := 0
  spMax := 16
  timerBits := 8
  fbW := Size.fbW
  fbH := Size.fbH
  nkeys := 16
  instrHz := 500
  timerHz := 60
  spriteMaxRows := 15
  originWrap := .dimMinus1
  timersDuringKeyWait := true
  keyWaitStale := .consume
  reservedWrite := .fault
  keyIndexPolicy := .fault
  flagOrder := .flagLast
  resetFill := .zero

end Sys2Proof.Machine
end

