-- ==== Sys2Proof/WellFormed.lean ====
section
/-! DEFINITION. Which instruction terms have a word. Register indices, immediates and addresses carry their width in
their type; the one operand that is a plain count is DRW's row count. -/

namespace Sys2Proof

/-- The operands fit their fields: DRW's row count is a `u4`, 0..15 (30_encoding.md R101, R103; `SPRITE_MAX_ROWS`
of 00_scope.md R10). Log entry 8. -/
def Instr.wf : Instr → Bool
  | .drw _ _ n => n ≤ Machine.hardware.spriteMaxRows
  | _ => true

end Sys2Proof
end

