-- ==== Sys2Proof/Decode.lean ====
section
/-! DEFINITION. The decoder (30_encoding.md R104), and after it the encoder and the opcode map (R105). -/

namespace Sys2Proof

/-- Why bytes are no instruction. -/
inductive DecodeError where
  /-- The word matches no row of 30_encoding.md R105 (R104, R106). -/
  | illegalWord (w : Word)
  /-- Fewer than the two bytes an instruction has (R100). Only `decodeBytes` on a short list answers it: a fetch
  always has two bytes (40_execution_cycle.md R133). -/
  | truncated
  deriving DecidableEq, Repr

/-- `op` = w[15:12] (30_encoding.md R101). -/
def fieldOp (w : Word) : BitVec 4 := w.extractLsb' 12 4

/-- `x` = w[11:8] (30_encoding.md R101). -/
def fieldX (w : Word) : Reg := (w.extractLsb' 8 4).toFin

/-- `y` = w[7:4] (30_encoding.md R101). -/
def fieldY (w : Word) : Reg := (w.extractLsb' 4 4).toFin

/-- `n` = w[3:0] (30_encoding.md R101). -/
def fieldN (w : Word) : BitVec 4 := w.extractLsb' 0 4

/-- `kk` = w[7:0] (30_encoding.md R101). -/
def fieldKK (w : Word) : Byte := w.extractLsb' 0 8

/-- `nnn` = w[11:0] (30_encoding.md R101). -/
def fieldNNN (w : Word) : BitVec 12 := w.extractLsb' 0 12

/-- Group 8 of 30_encoding.md R104: the sub-opcode is `n`. -/
def decodeGroup8 (w : Word) : Except DecodeError Instr :=
  match fieldN w with
  | 0x0#4 => .ok (.ldReg (fieldX w) (fieldY w))
  | 0x1#4 => .ok (.orReg (fieldX w) (fieldY w))
  | 0x2#4 => .ok (.andReg (fieldX w) (fieldY w))
  | 0x3#4 => .ok (.xorReg (fieldX w) (fieldY w))
  | 0x4#4 => .ok (.addReg (fieldX w) (fieldY w))
  | 0x5#4 => .ok (.subReg (fieldX w) (fieldY w))
  | 0x6#4 => .ok (.shr (fieldX w) (fieldY w))
  | 0x7#4 => .ok (.subn (fieldX w) (fieldY w))
  | 0xE#4 => .ok (.shl (fieldX w) (fieldY w))
  | _ => .error (.illegalWord w)

/-- Group F of 30_encoding.md R104: the sub-opcode is `kk`. -/
def decodeGroupF (w : Word) : Except DecodeError Instr :=
  match fieldKK w with
  | 0x07#8 => .ok (.ldVxDT (fieldX w))
  | 0x0A#8 => .ok (.ldVxK (fieldX w))
  | 0x15#8 => .ok (.ldDTVx (fieldX w))
  | 0x18#8 => .ok (.ldSTVx (fieldX w))
  | 0x1E#8 => .ok (.addI (fieldX w))
  | 0x29#8 => .ok (.ldF (fieldX w))
  | 0x33#8 => .ok (.ldB (fieldX w))
  | 0x55#8 => .ok (.ldStore (fieldX w))
  | 0x65#8 => .ok (.ldLoad (fieldX w))
  | _ => .error (.illegalWord w)

/-- Decoding a word (30_encoding.md R104): total, and an unlisted word is rejected by name. -/
def decode (w : Word) : Except DecodeError Instr :=
  match fieldOp w with
  | 0x0#4 =>
    if w = 0x00E0#16 then .ok .cls
    else if w = 0x00EE#16 then .ok .ret
    else .error (.illegalWord w)
  | 0x1#4 => .ok (.jp (fieldNNN w))
  | 0x2#4 => .ok (.call (fieldNNN w))
  | 0x3#4 => .ok (.seImm (fieldX w) (fieldKK w))
  | 0x4#4 => .ok (.sneImm (fieldX w) (fieldKK w))
  | 0x5#4 => if fieldN w = 0x0#4 then .ok (.seReg (fieldX w) (fieldY w)) else .error (.illegalWord w)
  | 0x6#4 => .ok (.ldImm (fieldX w) (fieldKK w))
  | 0x7#4 => .ok (.addImm (fieldX w) (fieldKK w))
  | 0x8#4 => decodeGroup8 w
  | 0x9#4 => if fieldN w = 0x0#4 then .ok (.sneReg (fieldX w) (fieldY w)) else .error (.illegalWord w)
  | 0xA#4 => .ok (.ldI (fieldNNN w))
  | 0xB#4 => .ok (.jpV0 (fieldNNN w))
  | 0xC#4 => .ok (.rnd (fieldX w) (fieldKK w))
  | 0xD#4 => .ok (.drw (fieldX w) (fieldY w) (fieldN w).toNat)
  | 0xE#4 =>
    if fieldKK w = 0x9E#8 then .ok (.skp (fieldX w))
    else if fieldKK w = 0xA1#8 then .ok (.sknp (fieldX w))
    else .error (.illegalWord w)
  | 0xF#4 => decodeGroupF w
  | _ => .error (.illegalWord w)

/-- The word of two bytes, most significant byte first (20_memory.md R75). -/
def wordOfBytes (hi lo : Byte) : Word := hi ++ lo

/-- Decoding a byte stream: two bytes, most significant first, then the rest (30_encoding.md R100,
20_memory.md R75). -/
def decodeBytes : List Byte → Except DecodeError (Instr × List Byte)
  | hi :: lo :: rest => (decode (wordOfBytes hi lo)).map (·, rest)
  | _ => .error .truncated

/-- A register index as its 4-bit field. -/
def regField (r : Reg) : BitVec 4 := BitVec.ofFin r

/-- Format NNN of 30_encoding.md R102. -/
def packNNN (op : BitVec 4) (nnn : BitVec 12) : Word := op ++ nnn

/-- Formats XKK and XS of 30_encoding.md R102. -/
def packXKK (op : BitVec 4) (x : Reg) (kk : Byte) : Word := op ++ regField x ++ kk

/-- Formats XYS and XYN of 30_encoding.md R102. -/
def packXYN (op : BitVec 4) (x y : Reg) (n : BitVec 4) : Word := op ++ regField x ++ regField y ++ n

/-- The word of an instruction, by the patterns of 30_encoding.md R105. -/
def encode : Instr → Word
  | .cls => 0x00E0
  | .ret => 0x00EE
  | .jp nnn => packNNN 0x1 nnn
  | .call nnn => packNNN 0x2 nnn
  | .seImm x kk => packXKK 0x3 x kk
  | .sneImm x kk => packXKK 0x4 x kk
  | .seReg x y => packXYN 0x5 x y 0x0
  | .ldImm x kk => packXKK 0x6 x kk
  | .addImm x kk => packXKK 0x7 x kk
  | .ldReg x y => packXYN 0x8 x y 0x0
  | .orReg x y => packXYN 0x8 x y 0x1
  | .andReg x y => packXYN 0x8 x y 0x2
  | .xorReg x y => packXYN 0x8 x y 0x3
  | .addReg x y => packXYN 0x8 x y 0x4
  | .subReg x y => packXYN 0x8 x y 0x5
  | .shr x y => packXYN 0x8 x y 0x6
  | .subn x y => packXYN 0x8 x y 0x7
  | .shl x y => packXYN 0x8 x y 0xE
  | .sneReg x y => packXYN 0x9 x y 0x0
  | .ldI nnn => packNNN 0xA nnn
  | .jpV0 nnn => packNNN 0xB nnn
  | .rnd x kk => packXKK 0xC x kk
  | .drw x y n => packXYN 0xD x y (BitVec.ofNat 4 n)
  | .skp x => packXKK 0xE x 0x9E
  | .sknp x => packXKK 0xE x 0xA1
  | .ldVxDT x => packXKK 0xF x 0x07
  | .ldVxK x => packXKK 0xF x 0x0A
  | .ldDTVx x => packXKK 0xF x 0x15
  | .ldSTVx x => packXKK 0xF x 0x18
  | .addI x => packXKK 0xF x 0x1E
  | .ldF x => packXKK 0xF x 0x29
  | .ldB x => packXKK 0xF x 0x33
  | .ldStore x => packXKK 0xF x 0x55
  | .ldLoad x => packXKK 0xF x 0x65

/-- The two bytes of an instruction as memory holds them (20_memory.md R75). -/
def encodeBytes (i : Instr) : List Byte :=
  [(encode i).extractLsb' 8 8, (encode i).extractLsb' 0 8]

/-- A row of the opcode map: the bits fixed by the row (`mask`) and their values (`pattern`)
(30_encoding.md R105, columns "mask" and "match"). -/
structure OpcodeRow where
  mnemonic : String
  pattern : Word
  mask : Word
  deriving DecidableEq, Repr

/-- The row of 30_encoding.md R105 that an instruction belongs to. -/
def opcodeRow : Instr → OpcodeRow
  | .cls => ⟨"CLS", 0x00E0, 0xFFFF⟩
  | .ret => ⟨"RET", 0x00EE, 0xFFFF⟩
  | .jp _ => ⟨"JP_nnn", 0x1000, 0xF000⟩
  | .call _ => ⟨"CALL_nnn", 0x2000, 0xF000⟩
  | .seImm _ _ => ⟨"SE_Vx__kk", 0x3000, 0xF000⟩
  | .sneImm _ _ => ⟨"SNE_Vx__kk", 0x4000, 0xF000⟩
  | .seReg _ _ => ⟨"SE_Vx__Vy", 0x5000, 0xF00F⟩
  | .ldImm _ _ => ⟨"LD_Vx__kk", 0x6000, 0xF000⟩
  | .addImm _ _ => ⟨"ADD_Vx__kk", 0x7000, 0xF000⟩
  | .ldReg _ _ => ⟨"LD_Vx__Vy", 0x8000, 0xF00F⟩
  | .orReg _ _ => ⟨"OR_Vx__Vy", 0x8001, 0xF00F⟩
  | .andReg _ _ => ⟨"AND_Vx__Vy", 0x8002, 0xF00F⟩
  | .xorReg _ _ => ⟨"XOR_Vx__Vy", 0x8003, 0xF00F⟩
  | .addReg _ _ => ⟨"ADD_Vx__Vy", 0x8004, 0xF00F⟩
  | .subReg _ _ => ⟨"SUB_Vx__Vy", 0x8005, 0xF00F⟩
  | .shr _ _ => ⟨"SHR_Vx", 0x8006, 0xF00F⟩
  | .subn _ _ => ⟨"SUBN_Vx__Vy", 0x8007, 0xF00F⟩
  | .shl _ _ => ⟨"SHL_Vx", 0x800E, 0xF00F⟩
  | .sneReg _ _ => ⟨"SNE_Vx__Vy", 0x9000, 0xF00F⟩
  | .ldI _ => ⟨"LD_I__nnn", 0xA000, 0xF000⟩
  | .jpV0 _ => ⟨"JP_V0__nnn", 0xB000, 0xF000⟩
  | .rnd _ _ => ⟨"RND_Vx__kk", 0xC000, 0xF000⟩
  | .drw _ _ _ => ⟨"DRW_Vx__Vy__n", 0xD000, 0xF000⟩
  | .skp _ => ⟨"SKP_Vx", 0xE09E, 0xF0FF⟩
  | .sknp _ => ⟨"SKNP_Vx", 0xE0A1, 0xF0FF⟩
  | .ldVxDT _ => ⟨"LD_Vx__DT", 0xF007, 0xF0FF⟩
  | .ldVxK _ => ⟨"LD_Vx__K", 0xF00A, 0xF0FF⟩
  | .ldDTVx _ => ⟨"LD_DT__Vx", 0xF015, 0xF0FF⟩
  | .ldSTVx _ => ⟨"LD_ST__Vx", 0xF018, 0xF0FF⟩
  | .addI _ => ⟨"ADD_I__Vx", 0xF01E, 0xF0FF⟩
  | .ldF _ => ⟨"LD_F__Vx", 0xF029, 0xF0FF⟩
  | .ldB _ => ⟨"LD_B__Vx", 0xF033, 0xF0FF⟩
  | .ldStore _ => ⟨"LD__I___Vx", 0xF055, 0xF0FF⟩
  | .ldLoad _ => ⟨"LD_Vx___I", 0xF065, 0xF0FF⟩

/-- A word belongs to a row when its masked bits are the row's (30_encoding.md R104). -/
def rowMatches (r : OpcodeRow) (w : Word) : Bool := w &&& r.mask == r.pattern

/-- The opcode map, in the order of 30_encoding.md R105 (`encode` and `decode` give each row's operands). -/
def opcodeTable : List OpcodeRow :=
  [opcodeRow .cls, opcodeRow .ret, opcodeRow (.jp 0), opcodeRow (.call 0)]
  ++ [opcodeRow (.seImm 0 0), opcodeRow (.sneImm 0 0), opcodeRow (.seReg 0 0)]
  ++ [opcodeRow (.ldImm 0 0), opcodeRow (.addImm 0 0), opcodeRow (.ldReg 0 0)]
  ++ [opcodeRow (.orReg 0 0), opcodeRow (.andReg 0 0), opcodeRow (.xorReg 0 0)]
  ++ [opcodeRow (.addReg 0 0), opcodeRow (.subReg 0 0), opcodeRow (.shr 0 0)]
  ++ [opcodeRow (.subn 0 0), opcodeRow (.shl 0 0), opcodeRow (.sneReg 0 0)]
  ++ [opcodeRow (.ldI 0), opcodeRow (.jpV0 0), opcodeRow (.rnd 0 0), opcodeRow (.drw 0 0 0)]
  ++ [opcodeRow (.skp 0), opcodeRow (.sknp 0)]
  ++ [opcodeRow (.ldVxDT 0), opcodeRow (.ldVxK 0), opcodeRow (.ldDTVx 0), opcodeRow (.ldSTVx 0)]
  ++ [opcodeRow (.addI 0), opcodeRow (.ldF 0), opcodeRow (.ldB 0)]
  ++ [opcodeRow (.ldStore 0), opcodeRow (.ldLoad 0)]

/-- The bytes of a table word as memory holds them: bit 0 of `w` is the least significant bit of the instruction's
one word, and bits at and above `nbits` are 0. -/
def tableBytes (nbits w : Nat) : List Byte :=
  let v : Word := BitVec.ofNat 16 (w % 2 ^ nbits)
  [v.extractLsb' 8 8, v.extractLsb' 0 8]

/-- What the decoder reads from an instruction of spec/opcode_table.json whose bits are `w`. -/
def decodeTableWord (nbits w : Nat) : Option Instr :=
  match decodeBytes (tableBytes nbits w) with
  | .ok (i, _) => some i
  | .error _ => none

end Sys2Proof
end

