-- ==== Sys2Proof/Machine/State.lean ====
section
/-! DEFINITION. The machine's state as plain data, all of it (10_state.md R30), and the state after reset (R51). -/

namespace Sys2Proof.Machine

/-- M: the listed cells, addresses strictly rising, no cell equal to what an unlisted address reads as
(`Memory.wf`). An unlisted address reads as its reset contents (`resetByte`; 10_state.md R44, R51). -/
abbrev Memory := List Host.Cell

/-- FB: `FB_H` rows of `FB_W` cells, row 0 at the top and column 0 at the left; `true` is a cell holding 1
(10_state.md R46, 46_drawing.md R280). -/
abbrev Framebuffer := Vector (Vector Bool Size.fbW) Size.fbH

/-- The causes of 60_exceptions.md R331, each with the information it records. A meaning raises one and the step takes
it: EXEC becomes Faulted, a NEXT state (`State.takeFault`). No step answers `Host.Outcome.fault` (log entry 6). -/
inductive Fault where
  /-- Code 1, raised by the instruction tick on a word that matches no row (30_encoding.md R104).
  Safe: an illegal word has no other effect in the spec. -/
  | decodeError (word : Word)
  /-- Code 2, raised by 2nnn when SP = 16 (41_control_flow.md R164).
  Safe: decision D44, toward unprovable. -/
  | stackOverflow (sp : Fin 17)
  /-- Code 3, raised by 00EE when SP = 0 (41_control_flow.md R162).
  Safe: decision D44, toward unprovable. -/
  | stackUnderflow (sp : Fin 17)
  /-- Code 4, raised by Fx33 and Fx55 on a write address below 0x200; the address is the first such one in write order
  (20_memory.md R73). Safe: decision D11, toward unprovable. -/
  | reservedWrite (address : Nat)
  /-- Code 5, raised by Ex9E and ExA1 when Vx > 0xF (42_conditional_skip.md R187).
  Safe: decision D12, toward unprovable. -/
  | keyIndexRange (value : Byte)
  deriving DecidableEq, Repr

/-- Why the model gives no meaning. -/
inductive Refusal where
  /-- An instruction without a meaning yet; only an arm of `exec` may raise it. Safe: the run stops. -/
  | notModelled (mnemonic : String)
  /-- Raised by `State.resetWith` on an image longer than 3584 bytes: no session exists (70_reset_and_hazards.md
  R372). Safe: there is no machine to state anything about. -/
  | imageTooLong (length : Nat)
  /-- Raised by `State.fbGet` and `State.fbSet`, calls from outside the CORE, on a coordinate outside the framebuffer or
  a value that is not 0 or 1 (46_drawing.md R282). Safe: no instruction makes such a call. -/
  | rawCellAccess (x y : Nat)
  deriving DecidableEq, Repr

/-- The fault record of 60_exceptions.md R334: `cause` carries the code and the information of R331. -/
structure FaultRecord where
  cause : Fault
  pc : Word
  word : Word
  deriving DecidableEq, Repr

/-- EXEC (10_state.md R42, 40_execution_cycle.md R131). -/
inductive ExecState where
  | running
  | waitKey (x : Reg)
  | stopped
  | faulted (rec : FaultRecord)
  deriving DecidableEq, Repr

/-- The events the CORE sends to the rendering collaborator (60_exceptions.md R356). -/
inductive RenderEvent where
  | flush
  | stop
  deriving DecidableEq, Repr

/-- One step of one agent (the table of 40_execution_cycle.md R130). -/
inductive Activation where
  | instrTick
  | keyWaitDone
  | timerTick
  | keyEvent (k : Key) (pressed : Bool)
  | stop
  deriving DecidableEq, Repr

/-- The state tuple of 10_state.md R30, and three fields of the model's own: `draws`, `pending` and `emitted`. -/
structure State where
  /-- V0..VF (R32). -/
  v : Vector Byte 16
  /-- The address of the next instruction to fetch (R35). -/
  pc : Word
  /-- The index register (R37). -/
  i : Word
  /-- How many return addresses the stack holds, 0..16 (R38). -/
  sp : Fin 17
  /-- The return addresses (R39). -/
  stack : Vector Word Size.stackDepth
  /-- The delay timer (R40). -/
  dt : Byte
  /-- The sound timer (R41). -/
  st : Byte
  /-- M (R44). -/
  mem : Memory
  /-- FB (R46). -/
  fb : Framebuffer
  /-- KEY: `true` means pressed (R47). -/
  key : Vector Bool 16
  /-- NOTIFY: empty, or the key most recently pressed (R48). -/
  notify : Option Key
  /-- EXEC (R42). -/
  execState : ExecState
  /-- How many random bytes were drawn. The model's own: see `Config.randByte` and log entry 2. -/
  draws : Nat
  /-- The agent steps still to come, in order; when the list is empty, the Executor steps. The model's own: see log
  entry 3. -/
  pending : List Activation
  /-- The events sent to the rendering collaborator, oldest first. The model's own: see log entry 4. -/
  emitted : List RenderEvent
  deriving DecidableEq, Repr

/-- The state right after reset, no program loaded (10_state.md R51 with an image of length 0, `RESET_FILL = ZERO`).
Memory with nothing listed is the reset contents: the font at 0x050 and 0x00 elsewhere. `State.resetWith` is reset with
an image. -/
def State.reset : State where
  v := Vector.replicate 16 0
  pc := 0x0200
  i := 0
  sp := 0
  stack := Vector.replicate Size.stackDepth 0
  dt := 0
  st := 0
  mem := []
  fb := Vector.replicate Size.fbH (Vector.replicate Size.fbW false)
  key := Vector.replicate 16 false
  notify := none
  execState := .running
  draws := 0
  pending := []
  emitted := []

end Sys2Proof.Machine
end

