-- ==== Sys2Proof/Machine/Ops.lean ====
section
/-! DEFINITION. The named operations over memory and registers, the fetch, and taking a fault, written once. Every
instruction's meaning goes through them (00_scope.md R14). -/

namespace Sys2Proof.Machine

/-! ## Memory -/

/-- What an address that memory does not list reads as: its reset contents with no image, the font table at
0x050..0x09F and 0x00 elsewhere (10_state.md R45, R51; 20_memory.md R74). Log entry 1. -/
def resetByte (a : Nat) : Byte :=
  if hardware.fontBase ≤ a ∧ a < hardware.fontBase + hardware.fontSize then
    hardware.fontTable.getD (a - hardware.fontBase) 0
  else 0

/-- The byte a memory holds at a cell. -/
def Memory.read : Memory → Nat → Byte
  | [], a => resetByte a
  | (k, b) :: m, a => if a = k then b else Memory.read m a

/-- A memory with the byte `b` at the cell `a`, in canonical form: a cell back at its reset contents is not listed. -/
def Memory.write : Memory → Nat → Byte → Memory
  | [], a, b => if b = resetByte a then [] else [(a, b)]
  | (k, c) :: m, a, b =>
    if a < k then
      if b = resetByte a then (k, c) :: m else (a, b) :: (k, c) :: m
    else if a = k then
      if b = resetByte a then m else (a, b) :: m
    else (k, c) :: Memory.write m a b

/-- Every cell of the list lies above `lo`, in rising order, inside memory, and differs from its reset contents. -/
def Memory.wfFrom (lo : Nat) : Memory → Bool
  | [] => true
  | (k, b) :: m => lo ≤ k && k < Size.memSize && b != resetByte k && Memory.wfFrom (k + 1) m

/-- The canonical form: addresses strictly rising and below 4096, no entry equal to what an unlisted address reads as.
Equal memories are then equal lists. -/
def Memory.wf (m : Memory) : Bool := Memory.wfFrom 0 m

/-- The cell an address reaches: every access reduces its address modulo 4096 (20_memory.md R72). -/
def cellOf (addr : Nat) : Nat := addr % Size.memSize

/-- `MemRead(addr, 1)` (20_memory.md R71): never faults, changes nothing. -/
def State.memRead (s : State) (addr : Nat) : Byte := s.mem.read (cellOf addr)

/-- `M[addr mod 4096] <- b`, with no check: the last line of 20_memory.md R73, and how the loader writes
(70_reset_and_hazards.md R372). -/
def State.poke (s : State) (addr : Nat) (b : Byte) : State := { s with mem := s.mem.write (cellOf addr) b }

/-- `MemWrite(addr, 1, b)` under the `RESERVED_WRITE` and the reserved range of a configuration (20_memory.md R73). -/
def State.memWrite (c : Config) (s : State) (addr : Nat) (b : Byte) : Except Fault State :=
  if c.reservedWrite = .fault ∧ c.reserved (cellOf addr) then .error (.reservedWrite (cellOf addr))
  else .ok (s.poke addr b)

/-- `MemWrite` of each byte of a list at rising addresses, in order; the first fault ends it (20_memory.md R73,
60_exceptions.md R333). -/
def State.memWriteList (c : Config) : State → Nat → List Byte → Except Fault State
  | s, _, [] => .ok s
  | s, addr, b :: bs =>
    match s.memWrite c addr b with
    | .ok s' => State.memWriteList c s' (addr + 1) bs
    | .error f => .error f

/-- The `n` bytes at `addr`, `addr + 1`, ... (46_drawing.md R288). -/
def State.memReadList (s : State) (addr n : Nat) : List Byte :=
  (List.range n).map fun r => s.memRead (addr + r)

/-! ## Registers -/

/-- `V[x]` (10_state.md R32). -/
def State.getV (s : State) (x : Reg) : Byte := s.v[x.val]

/-- `V[x] <- b` (10_state.md R32): every register holds what was written, none is hardwired. -/
def State.setV (s : State) (x : Reg) (b : Byte) : State := { s with v := s.v.set x.val b }

/-- `PC <- a` (00_scope.md R14). -/
def State.setPC (s : State) (a : Word) : State := { s with pc := a }

/-- `I <- a` (00_scope.md R14). -/
def State.setI (s : State) (a : Word) : State := { s with i := a }

/-- PC moves over one instruction, modulo 65536: the fetch's advance (40_execution_cycle.md R134), and the same again
when a skip's condition holds (42_conditional_skip.md R180). -/
def State.nextPC (s : State) : State := s.setPC (s.pc + 2)

/-- `skip_if(c)` (42_conditional_skip.md R180). -/
def State.skipIf (s : State) (c : Bool) : State := if c then s.nextPC else s

/-- `emit E` (00_scope.md R14, 60_exceptions.md R356). -/
def State.emit (s : State) (e : RenderEvent) : State := { s with emitted := s.emitted ++ [e] }

/-- `draw_u8()`: the next byte of the `rand_byte` input, a free value, and the state in which it is drawn
(43_register_arithmetic.md R214, 60_exceptions.md R354). -/
def State.drawByte (s : State) : Byte × State := (Config.randByte s.draws, { s with draws := s.draws + 1 })

/-! ## The return stack -/

/-- Push a return address: `STACK[SP] <- a; SP <- SP + 1`, or StackOverflow at SP = 16 (41_control_flow.md R164). -/
def State.push (s : State) (a : Word) : Except Fault State :=
  if h : s.sp.val < Size.stackDepth then
    .ok { s with stack := s.stack.set s.sp.val a h, sp := ⟨s.sp.val + 1, Nat.succ_lt_succ h⟩ }
  else .error (.stackOverflow s.sp)

/-- Pop a return address into PC: `SP <- SP - 1; PC <- STACK[SP]`, or StackUnderflow at SP = 0; the entry keeps its
value (41_control_flow.md R162, 10_state.md R39). -/
def State.popPC (s : State) : Except Fault State :=
  if h : 0 < s.sp.val then
    have hs : s.sp.val - 1 < Size.stackDepth := by have := s.sp.isLt; simp only [Size.stackDepth]; omega
    .ok { s with sp := ⟨s.sp.val - 1, Nat.lt_succ_of_lt hs⟩, pc := s.stack[s.sp.val - 1] }
  else .error (.stackUnderflow s.sp)

/-! ## Fetch, and taking a fault -/

/-- The word at PC: the bytes at `a mod 4096` and `(a + 1) mod 4096`, most significant first
(40_execution_cycle.md R133, 20_memory.md R75). A fetch never faults. -/
def State.fetchWord (s : State) : Word :=
  wordOfBytes (s.memRead s.pc.toNat) (s.memRead (s.pc.toNat + 1))

/-- Taking a fault: the state before the step, with only EXEC changed, to Faulted with the record
`{cause, pc, word, info}` (60_exceptions.md R334 to R336, 40_execution_cycle.md R132). There is no handler and no
return: Faulted is terminal (R335, R337). -/
def State.takeFault (s0 : State) (f : Fault) : State :=
  { s0 with execState := .faulted { cause := f, pc := s0.pc, word := s0.fetchWord } }

/-- The end of an instruction that may raise a fault: its next state, or, whatever it wrote, the fault taken from the
state `s0` before it (40_execution_cycle.md R132, 60_exceptions.md R336). -/
def State.conclude (s0 : State) : Except Fault State → Host.Outcome State Fault Refusal
  | .ok s' => .next s'
  | .error f => .next (s0.takeFault f)

/-- The code of a cause (60_exceptions.md R331). -/
def Fault.code : Fault → Nat
  | .decodeError _ => 1
  | .stackOverflow _ => 2
  | .stackUnderflow _ => 3
  | .reservedWrite _ => 4
  | .keyIndexRange _ => 5

/-! ## The execution state -/

/-- EXEC is Running. -/
def ExecState.isRunning : ExecState → Bool
  | .running => true
  | .waitKey _ => false
  | .stopped => false
  | .faulted _ => false

/-- EXEC is Running or WaitKey(x): the states in which input events and the stop signal are taken
(40_execution_cycle.md R130). -/
def ExecState.isLive : ExecState → Bool
  | .running => true
  | .waitKey _ => true
  | .stopped => false
  | .faulted _ => false

/-- `EXEC <- e`. -/
def State.setExec (s : State) (e : ExecState) : State := { s with execState := e }

end Sys2Proof.Machine
end

