-- ==== Sys2Proof/Machine/Operands.lean ====
section
/-! DEFINITION. How an instruction's operands become addresses, lists of registers, key indices and digits
(30_encoding.md R103). -/

namespace Sys2Proof.Machine

/-- `zext_16(nnn)` (30_encoding.md R103). -/
def zextAddr (nnn : BitVec 12) : Word := nnn.zeroExtend 16

/-- The base address of an access through I, not reduced: the access reduces it (44_index_memory.md R240,
10_state.md R37). -/
def State.base (s : State) : Nat := s.i.toNat

/-- V0..Vx, V0 first: the registers of Fx55 and Fx65 (44_index_memory.md R245, R246). -/
def regsUpTo (x : Reg) : List Reg := (List.finRange 16).take (x.val + 1)

/-- The values of V0..Vx. -/
def State.valuesUpTo (s : State) (x : Reg) : List Byte := (regsUpTo x).map s.getV

/-- `V[i] <- MemRead(addr + i, 1)` for each register of a list, in order (44_index_memory.md R246). -/
def State.loadRegs (s : State) (addr : Nat) (rs : List Reg) : State :=
  rs.foldl (fun t r => t.setV r (t.memRead (addr + r.val))) s

/-- The address of the glyph of the low nibble of a byte: `FONT_BASE` + `FONT_GLYPH_BYTES` × nibble, 0x050 + 5 × nibble on
this hardware (44_index_memory.md R243). -/
def glyphAddr (c : Config) (b : Byte) : Word := BitVec.ofNat 16 (c.fontBase + c.fontGlyphBytes * (b.toNat % 16))

/-- Hundreds, tens and ones of a byte (44_index_memory.md R244). -/
def bcdDigits (b : Byte) : List Byte :=
  [BitVec.ofNat 8 (b.toNat / 100), BitVec.ofNat 8 (b.toNat / 10 % 10), BitVec.ofNat 8 (b.toNat % 10)]

/-- `key_index(v)` under a `KEY_INDEX_POLICY` (42_conditional_skip.md R187). -/
def keyIndex (policy : KeyIndexPolicy) (b : Byte) : Except Fault Key :=
  if h : b.toNat ≤ 0xF then .ok ⟨b.toNat, Nat.lt_succ_of_le h⟩
  else match policy with
    | .fault => .error (.keyIndexRange b)
    | .lowNibble => .ok ⟨b.toNat % 16, Nat.mod_lt _ (by decide)⟩

/-- `isPressed(k)` (47_input.md R312): changes neither KEY nor NOTIFY. -/
def State.isPressed (s : State) (k : Key) : Bool := s.key[k.val]

/-- A key index as a register value. -/
def keyByte (k : Key) : Byte := BitVec.ofNat 8 k.val

end Sys2Proof.Machine
end

