-- ==== Sys2Proof/Machine/Input.lean ====
section
/-! DEFINITION. The meaning of 47_input.md's instruction. The event and the completion of a wait are agent steps
(`acceptKey`, `keyWaitDone`). -/

namespace Sys2Proof.Machine

/-- What a stale notification is to Fx0A, under a `KEY_WAIT_STALE` policy (47_input.md R314, its first two lines). -/
def State.onKeyWaitEntry (policy : KeyWaitStale) (s : State) : State :=
  match policy with
  | .consume => s
  | .clearOnEntry => { s with notify := none }

/-- `V[x] <- k; NOTIFY <- empty` (47_input.md R314, R315). -/
def State.consumeKey (s : State) (x : Reg) (k : Key) : State := { s.setV x (keyByte k) with notify := none }

/-- The rest of 47_input.md R314: a notification held ends the wait at once, else EXEC becomes WaitKey(x). -/
def State.awaitKey (s : State) (x : Reg) : State :=
  match s.notify with
  | some k => s.consumeKey x k
  | none => s.setExec (.waitKey x)

/-- Fx0A LD Vx, K (47_input.md R314). -/
def execLdVxKUnder (c : Config) (x : Reg) (s : State) : Host.Outcome State Fault Refusal :=
  .next ((s.nextPC.onKeyWaitEntry c.keyWaitStale).awaitKey x)

/-- Fx0A LD Vx, K with this hardware's parameters. -/
def execLdVxK (x : Reg) (s : State) : Host.Outcome State Fault Refusal :=
  execLdVxKUnder hardware x s

end Sys2Proof.Machine
end

