-- ==== Sys2Proof/Machine/Agents.lean ====
section
/-! DEFINITION. The steps of the agents other than the instruction tick (40_execution_cycle.md R130): each applies its
effect when it is enabled and otherwise leaves the state alone (60_exceptions.md R353). -/

namespace Sys2Proof.Machine

/-- One countdown: a timer at 0 stays at 0 (60_exceptions.md R345). -/
def tickDown (t : Byte) : Byte := if t = 0 then 0 else t - 1

/-- Whether a timer tick is enabled, by `TIMERS_DURING_KEY_WAIT` (60_exceptions.md R344, 47_input.md R316). -/
def timerEnabled (duringKeyWait : Bool) : ExecState → Bool
  | .running => true
  | .waitKey _ => duringKeyWait
  | .stopped => false
  | .faulted _ => false

/-- One timer tick: both timers, in one step (60_exceptions.md R345). -/
def timerTickUnder (c : Config) (s : State) : State :=
  if timerEnabled c.timersDuringKeyWait s.execState then
    { s with dt := tickDown s.dt, st := tickDown s.st }
  else s

/-- A timer tick with this hardware's parameters. -/
def timerTick (s : State) : State :=
  timerTickUnder hardware s

/-- `accept((k, pressed))` (47_input.md R311): every event updates KEY, and a press posts NOTIFY. -/
def acceptKey (k : Key) (pressed : Bool) (s : State) : State :=
  if s.execState.isLive then
    { s with key := s.key.set k.val pressed, notify := if pressed then some k else s.notify }
  else s

/-- Key-wait completion (47_input.md R315). -/
def keyWaitDone (s : State) : State :=
  match s.execState, s.notify with
  | .waitKey x, some k => (s.consumeKey x k).setExec .running
  | _, _ => s

/-- The stop signal (40_execution_cycle.md R137, 47_input.md R317). -/
def stopSignal (s : State) : State :=
  if s.execState.isLive then (s.setExec .stopped).emit .stop else s

end Sys2Proof.Machine
end

