-- ==== Sys2Proof/Machine/Flags.lean ====
section
/-! DEFINITION. Every result with a flag (43_register_arithmetic.md R202, R209 to R213) and the order in which the two
are written (R201). Sums are computed exactly on naturals and narrowed at the end; nothing is signed (R200). -/

namespace Sys2Proof.Machine

/-- The value a flag write stores in VF: 1 or 0 (10_state.md R43). -/
def flagByte (f : Bool) : Byte := if f then 1 else 0

/-- Vx + Vy: the sum modulo 256, and the carry `a + b > 255` (43_register_arithmetic.md R209). -/
def addWithCarry (a b : Byte) : Byte × Bool :=
  (BitVec.ofNat 8 (a.toNat + b.toNat), decide (a.toNat + b.toNat > 255))

/-- a − b modulo 256, and the not-borrow `a > b`, strict (43_register_arithmetic.md R210, R212). -/
def subNotBorrow (a b : Byte) : Byte × Bool := (a - b, decide (a.toNat > b.toNat))

/-- One place right, and bit 0 before the shift (43_register_arithmetic.md R211). -/
def shiftRight (a : Byte) : Byte × Bool := (a >>> 1, a.getLsbD 0)

/-- One place left modulo 256, and bit 7 before the shift (43_register_arithmetic.md R213). -/
def shiftLeft (a : Byte) : Byte × Bool := (a <<< 1, a.getLsbD 7)

/-- `write_with_flag(x, r, f)` under a `FLAG_ORDER` (43_register_arithmetic.md R201). -/
def State.writeWithFlag (order : FlagOrder) (s : State) (x : Reg) (rf : Byte × Bool) : State :=
  match order with
  | .flagLast => (s.setV x rf.1).setV Reg.vf (flagByte rf.2)
  | .resultLast => (s.setV Reg.vf (flagByte rf.2)).setV x rf.1

end Sys2Proof.Machine
end

