-- ==== Sys2Proof/Machine/Arith.lean ====
section
/-! DEFINITION. The meanings of 43_register_arithmetic.md. Operands are read before any write (00_scope.md R15). -/

namespace Sys2Proof.Machine

/-- 6xkk LD (43_register_arithmetic.md R203). -/
def execLdImm (x : Reg) (kk : Byte) (s : State) : Host.Outcome State Fault Refusal :=
  .next (s.nextPC.setV x kk)

/-- 7xkk ADD (43_register_arithmetic.md R204): wraps, writes no flag. -/
def execAddImm (x : Reg) (kk : Byte) (s : State) : Host.Outcome State Fault Refusal :=
  .next (s.nextPC.setV x (s.getV x + kk))

/-- 8xy0 LD (43_register_arithmetic.md R205). -/
def execLdReg (x y : Reg) (s : State) : Host.Outcome State Fault Refusal :=
  .next (s.nextPC.setV x (s.getV y))

/-- 8xy1 OR (43_register_arithmetic.md R206). -/
def execOrReg (x y : Reg) (s : State) : Host.Outcome State Fault Refusal :=
  .next (s.nextPC.setV x (s.getV x ||| s.getV y))

/-- 8xy2 AND (43_register_arithmetic.md R207). -/
def execAndReg (x y : Reg) (s : State) : Host.Outcome State Fault Refusal :=
  .next (s.nextPC.setV x (s.getV x &&& s.getV y))

/-- 8xy3 XOR (43_register_arithmetic.md R208). -/
def execXorReg (x y : Reg) (s : State) : Host.Outcome State Fault Refusal :=
  .next (s.nextPC.setV x (s.getV x ^^^ s.getV y))

/-- 8xy4 ADD (43_register_arithmetic.md R209). -/
def execAddRegUnder (c : Config) (x y : Reg) (s : State) : Host.Outcome State Fault Refusal :=
  .next (s.nextPC.writeWithFlag c.flagOrder x (addWithCarry (s.getV x) (s.getV y)))

/-- 8xy4 ADD with this hardware's parameters. -/
def execAddReg (x y : Reg) (s : State) : Host.Outcome State Fault Refusal :=
  execAddRegUnder hardware x y s

/-- 8xy5 SUB (43_register_arithmetic.md R210). -/
def execSubRegUnder (c : Config) (x y : Reg) (s : State) : Host.Outcome State Fault Refusal :=
  .next (s.nextPC.writeWithFlag c.flagOrder x (subNotBorrow (s.getV x) (s.getV y)))

/-- 8xy5 SUB with this hardware's parameters. -/
def execSubReg (x y : Reg) (s : State) : Host.Outcome State Fault Refusal :=
  execSubRegUnder hardware x y s

/-- 8xy6 SHR (43_register_arithmetic.md R211): Vy is not read (30_encoding.md R108). -/
def execShrUnder (c : Config) (x _y : Reg) (s : State) : Host.Outcome State Fault Refusal :=
  .next (s.nextPC.writeWithFlag c.flagOrder x (shiftRight (s.getV x)))

/-- 8xy6 SHR with this hardware's parameters. -/
def execShr (x y : Reg) (s : State) : Host.Outcome State Fault Refusal :=
  execShrUnder hardware x y s

/-- 8xy7 SUBN (43_register_arithmetic.md R212): Vy − Vx. -/
def execSubnUnder (c : Config) (x y : Reg) (s : State) : Host.Outcome State Fault Refusal :=
  .next (s.nextPC.writeWithFlag c.flagOrder x (subNotBorrow (s.getV y) (s.getV x)))

/-- 8xy7 SUBN with this hardware's parameters. -/
def execSubn (x y : Reg) (s : State) : Host.Outcome State Fault Refusal :=
  execSubnUnder hardware x y s

/-- 8xyE SHL (43_register_arithmetic.md R213): Vy is not read (30_encoding.md R108). -/
def execShlUnder (c : Config) (x _y : Reg) (s : State) : Host.Outcome State Fault Refusal :=
  .next (s.nextPC.writeWithFlag c.flagOrder x (shiftLeft (s.getV x)))

/-- 8xyE SHL with this hardware's parameters. -/
def execShl (x y : Reg) (s : State) : Host.Outcome State Fault Refusal :=
  execShlUnder hardware x y s

/-- Cxkk RND (43_register_arithmetic.md R214): a free byte, masked. -/
def execRnd (x : Reg) (kk : Byte) (s : State) : Host.Outcome State Fault Refusal :=
  let d := s.nextPC.drawByte
  .next (d.2.setV x (d.1 &&& kk))

end Sys2Proof.Machine
end

