-- ==== Sys2Proof/Machine/Framebuffer.lean ====
section
/-! DEFINITION. The framebuffer and the blit engine (46_drawing.md R280 to R287). -/

namespace Sys2Proof.Machine

/-- `FB[y][x]` at a coordinate inside the framebuffer (46_drawing.md R280). -/
def Framebuffer.cell (fb : Framebuffer) (x y : Nat) (hx : x < Size.fbW) (hy : y < Size.fbH) : Bool := fb[y][x]

/-- `FB[y][x] <- b` at a coordinate inside the framebuffer. -/
def Framebuffer.setCell (fb : Framebuffer) (x y : Nat) (hx : x < Size.fbW) (hy : y < Size.fbH) (b : Bool) :
    Framebuffer := fb.set y (fb[y].set x b hx) hy

/-- The cell at any coordinate, `false` outside: for statements about the picture. -/
def Framebuffer.at (fb : Framebuffer) (x y : Nat) : Bool :=
  if h : x < Size.fbW ∧ y < Size.fbH then fb.cell x y h.1 h.2 else false

/-- Every cell 0 (46_drawing.md R281). -/
def Framebuffer.clear : Framebuffer := Vector.replicate Size.fbH (Vector.replicate Size.fbW false)

/-- The origin's reduction under an `ORIGIN_WRAP` (46_drawing.md R284): column and row. -/
def reduceOrigin (wrap : OriginWrap) (ox oy : Byte) : Nat × Nat :=
  match wrap with
  | .dimMinus1 => (ox.toNat % (Size.fbW - 1), oy.toNat % (Size.fbH - 1))
  | .dim => (ox.toNat % Size.fbW, oy.toNat % Size.fbH)

/-- The sprite bit at column offset `c` of a row: most significant bit first (46_drawing.md R285). -/
def spriteBit (row : Byte) (c : Nat) : Bool := row.getLsbD (7 - c)

/-- One pixel of the loop of 46_drawing.md R285: outside the screen it is skipped and does not count (R286); inside, a
1 on a 1 sets the collision bit (R287) and the bit is XORed onto the cell. -/
def blitPixel (px py : Nat) (bit : Bool) (p : Framebuffer × Bool) : Framebuffer × Bool :=
  if h : px < Size.fbW ∧ py < Size.fbH then
    let old := p.1.cell px py h.1 h.2
    (p.1.setCell px py h.1 h.2 (old ^^ bit), p.2 || (bit && old))
  else p

/-- The inner loop of 46_drawing.md R285: `c` in 0..7. -/
def blitRow (x0 py : Nat) (row : Byte) (p : Framebuffer × Bool) : Framebuffer × Bool :=
  (List.range 8).foldl (fun q c => blitPixel (x0 + c) py (spriteBit row c) q) p

/-- The outer loop of 46_drawing.md R285: the sprite's rows downward from row `py`. -/
def blitRows (x0 : Nat) : Nat → List Byte → Framebuffer × Bool → Framebuffer × Bool
  | _, [], p => p
  | py, row :: rows, p => blitRows x0 (py + 1) rows (blitRow x0 py row p)

/-- `blit(originX, originY, rows)`: the framebuffer after it and the collision bit (46_drawing.md R283, R285). -/
def blit (wrap : OriginWrap) (fb : Framebuffer) (ox oy : Byte) (rows : List Byte) : Framebuffer × Bool :=
  let o := reduceOrigin wrap ox oy
  blitRows o.1 o.2 rows (fb, false)

/-- `FB_clear()` (46_drawing.md R281). -/
def State.clearFB (s : State) : State := { s with fb := Framebuffer.clear }

/-- `FB_get(x, y)` as a call from outside the CORE: refused outside the framebuffer (46_drawing.md R282). -/
def State.fbGet (s : State) (x y : Nat) : Host.Outcome Nat Fault Refusal :=
  if h : x < Size.fbW ∧ y < Size.fbH then .next (if s.fb.cell x y h.1 h.2 then 1 else 0)
  else .refused (.rawCellAccess x y)

/-- `FB_set(x, y, v)` as a call from outside the CORE: refused outside the framebuffer, and for a value that is not 0 or
1 (46_drawing.md R282). -/
def State.fbSet (s : State) (x y v : Nat) : Host.Outcome State Fault Refusal :=
  if h : x < Size.fbW ∧ y < Size.fbH then
    match v with
    | 0 => .next { s with fb := s.fb.setCell x y h.1 h.2 false }
    | 1 => .next { s with fb := s.fb.setCell x y h.1 h.2 true }
    | _ => .refused (.rawCellAccess x y)
  else .refused (.rawCellAccess x y)

end Sys2Proof.Machine
end

