-- ==== Sys2Proof/Machine/ControlFlow.lean ====
section
/-! DEFINITION. The meanings of 41_control_flow.md. A meaning takes the state before the fetch's advance and begins with
it (`State.nextPC`, 40_execution_cycle.md R134); a fault is taken from that state (log entry 5). -/

namespace Sys2Proof.Machine

/-- 00E0 CLS (41_control_flow.md R161): `FB_clear()`, then `emit Flush` (46_drawing.md R289). -/
def execCls (s : State) : Host.Outcome State Fault Refusal :=
  .next (s.nextPC.clearFB.emit .flush)

/-- 00EE RET (41_control_flow.md R162). -/
def execRet (s : State) : Host.Outcome State Fault Refusal :=
  s.conclude s.nextPC.popPC

/-- 1nnn JP (41_control_flow.md R163). -/
def execJp (nnn : BitVec 12) (s : State) : Host.Outcome State Fault Refusal :=
  .next (s.nextPC.setPC (zextAddr nnn))

/-- 2nnn CALL (41_control_flow.md R164): the pushed value is PC after the fetch. -/
def execCall (nnn : BitVec 12) (s : State) : Host.Outcome State Fault Refusal :=
  s.conclude ((s.nextPC.push s.nextPC.pc).map fun t => t.setPC (zextAddr nnn))

/-- Bnnn JP V0 (41_control_flow.md R165): the sum is kept in PC unreduced. -/
def execJpV0 (nnn : BitVec 12) (s : State) : Host.Outcome State Fault Refusal :=
  .next (s.nextPC.setPC (zextAddr nnn + (s.getV 0).zeroExtend 16))

end Sys2Proof.Machine
end

