-- ==== Sys2Proof/Machine/Drawing.lean ====
section
/-! DEFINITION. The meaning of 46_drawing.md's instruction. -/

namespace Sys2Proof.Machine

/-- Dxyn DRW (46_drawing.md R288): the sprite's bytes through I, the blit, VF <- collision, `emit Flush`. The origins
are read before VF is written. -/
def execDrwUnder (c : Config) (x y : Reg) (n : Nat) (s : State) : Host.Outcome State Fault Refusal :=
  let drawn := blit c.originWrap s.fb (s.getV x) (s.getV y) (s.memReadList s.base n)
  .next (({ s.nextPC with fb := drawn.1 }.setV Reg.vf (flagByte drawn.2)).emit .flush)

/-- Dxyn DRW with this hardware's parameters. -/
def execDrw (x y : Reg) (n : Nat) (s : State) : Host.Outcome State Fault Refusal :=
  execDrwUnder hardware x y n s

end Sys2Proof.Machine
end

