-- ==== Sys2Proof/Machine/IndexMem.lean ====
section
/-! DEFINITION. The meanings of 44_index_memory.md. I keeps its value after Fx33, Fx55 and Fx65 (R240). -/

namespace Sys2Proof.Machine

/-- Annn LD I (44_index_memory.md R241). -/
def execLdI (nnn : BitVec 12) (s : State) : Host.Outcome State Fault Refusal :=
  .next (s.nextPC.setI (zextAddr nnn))

/-- Fx1E ADD I (44_index_memory.md R242): modulo 65536, no flag. -/
def execAddI (x : Reg) (s : State) : Host.Outcome State Fault Refusal :=
  .next (s.nextPC.setI (s.i + (s.getV x).zeroExtend 16))

/-- Fx29 LD F (44_index_memory.md R243). -/
def execLdFUnder (c : Config) (x : Reg) (s : State) : Host.Outcome State Fault Refusal :=
  .next (s.nextPC.setI (glyphAddr c (s.getV x)))

/-- Fx29 LD F with this hardware's parameters. -/
def execLdF (x : Reg) (s : State) : Host.Outcome State Fault Refusal :=
  execLdFUnder hardware x s

/-- Fx33 LD B (44_index_memory.md R244). -/
def execLdBUnder (c : Config) (x : Reg) (s : State) : Host.Outcome State Fault Refusal :=
  s.conclude (s.nextPC.memWriteList c s.base (bcdDigits (s.getV x)))

/-- Fx33 LD B with this hardware's parameters. -/
def execLdB (x : Reg) (s : State) : Host.Outcome State Fault Refusal :=
  execLdBUnder hardware x s

/-- Fx55 LD [I] (44_index_memory.md R245). -/
def execLdStoreUnder (c : Config) (x : Reg) (s : State) : Host.Outcome State Fault Refusal :=
  s.conclude (s.nextPC.memWriteList c s.base (s.valuesUpTo x))

/-- Fx55 LD [I] with this hardware's parameters. -/
def execLdStore (x : Reg) (s : State) : Host.Outcome State Fault Refusal :=
  execLdStoreUnder hardware x s

/-- Fx65 LD Vx, [I] (44_index_memory.md R246): reads never fault. -/
def execLdLoad (x : Reg) (s : State) : Host.Outcome State Fault Refusal :=
  .next (s.nextPC.loadRegs s.base (regsUpTo x))

end Sys2Proof.Machine
end

