-- ==== Sys2Proof/Machine/Skip.lean ====
section
/-! DEFINITION. The meanings of 42_conditional_skip.md: PC + 2 for the fetch, and 2 more when the condition holds
(R180). -/

namespace Sys2Proof.Machine

/-- 3xkk SE (42_conditional_skip.md R181). -/
def execSeImm (x : Reg) (kk : Byte) (s : State) : Host.Outcome State Fault Refusal :=
  .next (s.nextPC.skipIf (s.getV x == kk))

/-- 4xkk SNE (42_conditional_skip.md R182). -/
def execSneImm (x : Reg) (kk : Byte) (s : State) : Host.Outcome State Fault Refusal :=
  .next (s.nextPC.skipIf (s.getV x != kk))

/-- 5xy0 SE (42_conditional_skip.md R183). -/
def execSeReg (x y : Reg) (s : State) : Host.Outcome State Fault Refusal :=
  .next (s.nextPC.skipIf (s.getV x == s.getV y))

/-- 9xy0 SNE (42_conditional_skip.md R184). -/
def execSneReg (x y : Reg) (s : State) : Host.Outcome State Fault Refusal :=
  .next (s.nextPC.skipIf (s.getV x != s.getV y))

/-- Ex9E SKP (42_conditional_skip.md R185). -/
def execSkpUnder (c : Config) (x : Reg) (s : State) : Host.Outcome State Fault Refusal :=
  s.conclude ((keyIndex c.keyIndexPolicy (s.getV x)).map fun k => s.nextPC.skipIf (s.isPressed k))

/-- Ex9E SKP with this hardware's parameters. -/
def execSkp (x : Reg) (s : State) : Host.Outcome State Fault Refusal :=
  execSkpUnder hardware x s

/-- ExA1 SKNP (42_conditional_skip.md R186). -/
def execSknpUnder (c : Config) (x : Reg) (s : State) : Host.Outcome State Fault Refusal :=
  s.conclude ((keyIndex c.keyIndexPolicy (s.getV x)).map fun k => s.nextPC.skipIf (!s.isPressed k))

/-- ExA1 SKNP with this hardware's parameters. -/
def execSknp (x : Reg) (s : State) : Host.Outcome State Fault Refusal :=
  execSknpUnder hardware x s

end Sys2Proof.Machine
end

