-- ==== Sys2Proof/Machine/Timers.lean ====
section
/-! DEFINITION. The meanings of 45_timers.md. The countdown is the timer agent's (`timerTick`). -/

namespace Sys2Proof.Machine

/-- Fx07 LD Vx, DT (45_timers.md R271): reading does not change DT. -/
def execLdVxDT (x : Reg) (s : State) : Host.Outcome State Fault Refusal :=
  .next (s.nextPC.setV x s.dt)

/-- Fx15 LD DT, Vx (45_timers.md R272): the exact value. -/
def execLdDTVx (x : Reg) (s : State) : Host.Outcome State Fault Refusal :=
  .next { s.nextPC with dt := s.getV x }

/-- Fx18 LD ST, Vx (45_timers.md R273): the exact value. -/
def execLdSTVx (x : Reg) (s : State) : Host.Outcome State Fault Refusal :=
  .next { s.nextPC with st := s.getV x }

end Sys2Proof.Machine
end

