-- ==== Sys2Proof/Machine/Cycle.lean ====
section
/-! DEFINITION. The instruction tick (40_execution_cycle.md R132) and the steps of all agents under one name. -/

namespace Sys2Proof.Machine

/-- Fetch, decode, execute one instruction (40_execution_cycle.md R132). A word that is no instruction raises
DecodeError. -/
def fetchExecute (s : State) : Host.Outcome State Fault Refusal :=
  match decode s.fetchWord with
  | .ok ins => exec ins s
  | .error _ => s.conclude (.error (.decodeError s.fetchWord))

/-- One instruction-tick activation: it has no effect unless EXEC is Running (60_exceptions.md R353). -/
def instrTick (s : State) : Host.Outcome State Fault Refusal :=
  if s.execState.isRunning then fetchExecute s else .next s

/-- The Executor's own step: an instruction tick when Running, the completion of a wait when a key is there, nothing
otherwise (40_execution_cycle.md R130, R140; 47_input.md R315). -/
def executorStep (s : State) : Host.Outcome State Fault Refusal :=
  match s.execState with
  | .waitKey _ => .next (keyWaitDone s)
  | _ => instrTick s

/-- One step of the named agent (40_execution_cycle.md R130). -/
def activate (a : Activation) (s : State) : Host.Outcome State Fault Refusal :=
  match a with
  | .instrTick => instrTick s
  | .keyWaitDone => .next (keyWaitDone s)
  | .timerTick => .next (timerTick s)
  | .keyEvent k pressed => .next (acceptKey k pressed s)
  | .stop => .next (stopSignal s)

/-- The agent steps still to come, less the first. -/
def State.dropPending (s : State) : State := { s with pending := s.pending.tail }

/-- The step of the agent whose turn it is: the first of `pending`, or the Executor when none is listed (log entry 3). -/
def nextAgentStep (s : State) : Host.Outcome State Fault Refusal :=
  match s.pending with
  | [] => executorStep s
  | a :: _ => activate a s.dropPending

/-- The state with two bytes stored where the next fetch reads them, EXEC Running and no other agent's step before it:
what a host must set so that the very next step fetches them (log entry 9). -/
def State.placeNext (s : State) (bytes : List Byte) : State :=
  let s' := (List.range bytes.length).foldl (fun t j => t.poke (s.pc.toNat + j) (bytes.getD j 0)) s
  { s' with execState := .running, pending := [] }

end Sys2Proof.Machine
end

