-- ==== Sys2Proof/Machine/Step.lean ====
section
/-! DEFINITION. One step of the machine, and the host's way to place one instruction. -/

namespace Sys2Proof.Machine

/-- One atomic step of one agent (40_execution_cycle.md R130). -/
def step (s : State) : Host.Outcome State Fault Refusal := nextAgentStep s

/-- `s` with the instruction of the opcode table whose bits are `w` placed so that the very next step runs it. -/
def State.withFetchWord (s : State) (nbits w : Nat) : State := s.placeNext (tableBytes nbits w)

end Sys2Proof.Machine
end

