-- ==== Sys2Proof/Machine/Boot.lean ====
section
/-! DEFINITION. Reset with a program image (70_reset_and_hazards.md R370, R372). -/

namespace Sys2Proof.Machine

/-- `Load(image)`, byte after byte from `addr`, with no check (70_reset_and_hazards.md R372). -/
def State.loadBytes : State → Nat → List Byte → State
  | s, _, [] => s
  | s, addr, b :: bs => State.loadBytes (s.poke addr b) (addr + 1) bs

/-- Every element at zero, released or empty, the font area too: step 1 of `Reset` (70_reset_and_hazards.md R370). -/
def State.zeroed : State := State.reset.loadBytes hardware.fontBase (List.replicate hardware.fontSize 0)

/-- What step 1 of `Reset` leaves under a `RESET_FILL` (10_state.md R51): under ARBITRARY the elements the source gives no
value for are whatever they were in `before`. -/
def State.filled (fill : ResetFill) (before : State) : State :=
  match fill with
  | .zero => State.zeroed
  | .arbitrary =>
    { State.zeroed with
      v := before.v, i := before.i, stack := before.stack, dt := before.dt, st := before.st, mem := before.mem }

/-- `Reset(image)` under a configuration (70_reset_and_hazards.md R370): the fill, the font, the image at `PROG_BASE`, the
framebuffer cleared, PC and EXEC. `before` is read only under `RESET_FILL = ARBITRARY`, where a claim quantifies over it.
An image that does not fit is refused and no session exists (R372). -/
def State.resetUnder (c : Config) (before : State) (image : List Byte) : Host.Outcome State Fault Refusal :=
  if image.length ≤ c.maxImage then
    let s := (State.filled c.resetFill before).loadBytes c.fontBase c.fontTable
    .next (((s.loadBytes c.progBase image).clearFB.setPC (BitVec.ofNat 16 c.progBase)).setExec .running)
  else .refused (.imageTooLong image.length)

/-- `Reset(image)` of this hardware: `RESET_FILL` is ZERO, so no former state is read. This is the `load_image` port too: it
is not enabled after reset (60_exceptions.md R359). -/
def State.resetWith (image : List Byte) : Host.Outcome State Fault Refusal :=
  State.resetUnder hardware State.zeroed image

end Sys2Proof.Machine
end

