-- ==== Sys2Proof/Machine/Interface.lean ====
section
/-! DEFINITION. The output ports of 60_exceptions.md R352 as views of the state: none changes anything. -/

namespace Sys2Proof.Machine

/-- `tone`: true exactly when ST ≠ 0 (60_exceptions.md R358). -/
def State.tone (s : State) : Bool := s.st != 0

/-- `status`: EXEC, with the fault record (60_exceptions.md R360). -/
def State.status (s : State) : ExecState := s.execState

/-- `render`: the events sent so far and the framebuffer (60_exceptions.md R356). -/
def State.render (s : State) : List RenderEvent × Framebuffer := (s.emitted, s.fb)

/-- What the renderer may read while the step from `s` to `t` is taken: each cell as before the step or as after it. An
instruction changes a cell at most once, so this admits every picture part-way through a 00E0 or a Dxyn; at a Flush the
framebuffer is exact (20_memory.md R84, 70_reset_and_hazards.md R386). Log entry 7. -/
def RendererMayRead (s t : State) (fb : Framebuffer) : Prop :=
  ∀ x y, fb.at x y = s.fb.at x y ∨ fb.at x y = t.fb.at x y

/-- The spec's state tuple (10_state.md R30), without the model's own fields; memory as its 4096 cells. -/
structure Observation where
  v : Vector Byte 16
  pc : Word
  i : Word
  sp : Fin 17
  stack : Vector Word Size.stackDepth
  dt : Byte
  st : Byte
  mem : List Byte
  fb : Framebuffer
  key : Vector Bool 16
  notify : Option Key
  execState : ExecState
  deriving DecidableEq, Repr

/-- `observe`: every state element (60_exceptions.md R355). -/
def State.observe (s : State) : Observation where
  v := s.v
  pc := s.pc
  i := s.i
  sp := s.sp
  stack := s.stack
  dt := s.dt
  st := s.st
  mem := s.memReadList 0 Size.memSize
  fb := s.fb
  key := s.key
  notify := s.notify
  execState := s.execState

end Sys2Proof.Machine
end

