-- ==== Sys2Proof/Machine/Under.lean ====
section
/-! DEFINITION. The machine under any values of the parameters (00_scope.md R10): each step again, with the configuration as
an argument. With `hardware` it is the machine of Step.lean (Laws/Under.lean). The sizes of State are this hardware's:
`FitsState` says which configurations they serve (log entry 12). -/

namespace Sys2Proof.Machine

/-- `execute(ins)` under a configuration (40_execution_cycle.md R132, R135). -/
def execUnder (c : Config) (i : Instr) (s : State) : Host.Outcome State Fault Refusal :=
  match i with
  | .cls => execCls s
  | .ret => execRet s
  | .jp nnn => execJp nnn s
  | .call nnn => execCall nnn s
  | .seImm x kk => execSeImm x kk s
  | .sneImm x kk => execSneImm x kk s
  | .seReg x y => execSeReg x y s
  | .ldImm x kk => execLdImm x kk s
  | .addImm x kk => execAddImm x kk s
  | .ldReg x y => execLdReg x y s
  | .orReg x y => execOrReg x y s
  | .andReg x y => execAndReg x y s
  | .xorReg x y => execXorReg x y s
  | .addReg x y => execAddRegUnder c x y s
  | .subReg x y => execSubRegUnder c x y s
  | .shr x y => execShrUnder c x y s
  | .subn x y => execSubnUnder c x y s
  | .shl x y => execShlUnder c x y s
  | .sneReg x y => execSneReg x y s
  | .ldI nnn => execLdI nnn s
  | .jpV0 nnn => execJpV0 nnn s
  | .rnd x kk => execRnd x kk s
  | .drw x y n => execDrwUnder c x y n s
  | .skp x => execSkpUnder c x s
  | .sknp x => execSknpUnder c x s
  | .ldVxDT x => execLdVxDT x s
  | .ldVxK x => execLdVxKUnder c x s
  | .ldDTVx x => execLdDTVx x s
  | .ldSTVx x => execLdSTVx x s
  | .addI x => execAddI x s
  | .ldF x => execLdFUnder c x s
  | .ldB x => execLdBUnder c x s
  | .ldStore x => execLdStoreUnder c x s
  | .ldLoad x => execLdLoad x s

/-- `fetchExecute` under a configuration (40_execution_cycle.md R132). -/
def fetchExecuteUnder (c : Config) (s : State) : Host.Outcome State Fault Refusal :=
  match decode s.fetchWord with
  | .ok ins => execUnder c ins s
  | .error _ => s.conclude (.error (.decodeError s.fetchWord))

/-- `instrTick` under a configuration (60_exceptions.md R353). -/
def instrTickUnder (c : Config) (s : State) : Host.Outcome State Fault Refusal :=
  if s.execState.isRunning then fetchExecuteUnder c s else .next s

/-- `executorStep` under a configuration (40_execution_cycle.md R130). -/
def executorStepUnder (c : Config) (s : State) : Host.Outcome State Fault Refusal :=
  match s.execState with
  | .waitKey _ => .next (keyWaitDone s)
  | _ => instrTickUnder c s

/-- `activate` under a configuration (40_execution_cycle.md R130). -/
def activateUnder (c : Config) (a : Activation) (s : State) : Host.Outcome State Fault Refusal :=
  match a with
  | .instrTick => instrTickUnder c s
  | .keyWaitDone => .next (keyWaitDone s)
  | .timerTick => .next (timerTickUnder c s)
  | .keyEvent k pressed => .next (acceptKey k pressed s)
  | .stop => .next (stopSignal s)

/-- `step` under a configuration. -/
def stepUnder (c : Config) (s : State) : Host.Outcome State Fault Refusal :=
  match s.pending with
  | [] => executorStepUnder c s
  | a :: _ => activateUnder c a s.dropPending

/-- The width of a bit vector. -/
def bitWidth {w : Nat} (_ : BitVec w) : Nat := w

/-- State's types have the configuration's sizes, in every state, and the encoding its row count: the parameters of
00_scope.md R10 that a type fixes (10_state.md R32, R35, R37 to R41, R44, R46, R47; 30_encoding.md R101). -/
structure FitsState (c : Config) : Prop where
  memSize : ∀ a, cellOf a = a % c.memSize
  nreg : ∀ s : State, s.v.toList.length = c.nreg
  regBits : ∀ (s : State) (r : Reg), bitWidth (s.getV r) = c.regBits
  iBits : ∀ s : State, bitWidth s.i = c.iBits
  pcBits : ∀ s : State, bitWidth s.pc = c.pcBits
  stackDepth : ∀ s : State, s.stack.toList.length = c.stackDepth
  stackEntryBits : ∀ (s : State), ∀ a ∈ s.stack.toList, bitWidth a = c.stackEntryBits
  spRange : ∀ n : Nat, (∃ s : State, s.sp.val = n) ↔ c.spMin ≤ n ∧ n ≤ c.spMax
  timerBits : ∀ s : State, bitWidth s.dt = c.timerBits ∧ bitWidth s.st = c.timerBits
  fbW : ∀ s : State, ∀ row ∈ s.fb.toList, row.toList.length = c.fbW
  fbH : ∀ s : State, s.fb.toList.length = c.fbH
  nkeys : ∀ s : State, s.key.toList.length = c.nkeys
  spriteMaxRows : ∀ n : Nat, (∃ w x y, decode w = .ok (.drw x y n)) ↔ n ≤ c.spriteMaxRows
  fontSize : c.fontTable.length = c.fontSize ∧ c.fontSize = 16 * c.fontGlyphBytes

end Sys2Proof.Machine
end

