-- ==== Sys2Proof/Safety.lean ====
section
/-! DEFINITION. The terms claims use: the invariants of 70_reset_and_hazards.md R376, what a reset state is, the end of
a run (40_execution_cycle.md R139), and who writes VF (10_state.md R43). -/

namespace Sys2Proof.Machine

/-- The reserved area 0x000..0x1FF holds its reset contents, the font among them (70_reset_and_hazards.md R376). -/
def State.ReservedIntact (s : State) : Prop := ∀ a < 0x200, s.memRead a = resetByte a

/-- The condition under which a cause is raised (60_exceptions.md R331), in the state in which it was. -/
def Fault.Raised (s : State) : Fault → Prop
  | .decodeError w => w = s.fetchWord ∧ decode w = .error (.illegalWord w)
  | .stackOverflow n => n = s.sp ∧ s.sp = 16
  | .stackUnderflow n => n = s.sp ∧ s.sp = 0
  | .reservedWrite a => hardware.reserved a = true
  | .keyIndexRange b => b.toNat > 0xF

/-- A fault record describes the state it stands in: its pc and word are the faulting instruction's, and its cause was
met (60_exceptions.md R334, R336). -/
def State.RecordTrue (s : State) : Prop :=
  ∀ rec, s.execState = .faulted rec → rec.pc = s.pc ∧ rec.word = s.fetchWord ∧ rec.cause.Raised s

/-- The invariant of the machine: memory in its canonical form, the reserved area intact, the fault record true. The
other invariants of 70_reset_and_hazards.md R376 hold by the types of State (SP is at most 16, a cell of FB is 0 or 1). -/
def State.Inv (s : State) : Prop := s.mem.wf = true ∧ s.ReservedIntact ∧ s.RecordTrue

/-- The sprite's bit at the screen coordinate `(x, y)`, for a sprite with these rows drawn from the origin `(ox, oy)`:
`false` where the sprite does not reach. A picture of the loop of 46_drawing.md R285, for claims about DRW. -/
def spritePixel (wrap : OriginWrap) (ox oy : Byte) (rows : List Byte) (x y : Nat) : Bool :=
  let x0 := (reduceOrigin wrap ox oy).1
  let y0 := (reduceOrigin wrap ox oy).2
  decide (x0 ≤ x ∧ x < x0 + 8 ∧ y0 ≤ y ∧ y < y0 + rows.length) && (rows.getD (y - y0) 0).getLsbD (7 - (x - x0))

/-- EXEC is Stopped or Faulted: terminal (40_execution_cycle.md R138, 60_exceptions.md R335). -/
def State.terminal (s : State) : Bool := !s.execState.isLive

/-- The word at PC is a jump to PC itself (40_execution_cycle.md R139). -/
def State.SelfJump (s : State) : Prop := ∃ nnn, decode s.fetchWord = .ok (.jp nnn) ∧ zextAddr nnn = s.pc

/-- The end of a run, for claims about programs (40_execution_cycle.md R139). -/
def State.AtEnd (s : State) : Prop := s.terminal = true ∨ (s.execState = .running ∧ s.SelfJump)

/-- A run gone wrong: Faulted is never a final state a claim may end in (60_exceptions.md R335). -/
def State.GoneWrong (s : State) : Prop := ∃ rec, s.execState = .faulted rec

/-- Agent steps one after another, chosen freely (40_execution_cycle.md R130, 60_exceptions.md R339). -/
def runActivations : List Activation → State → Host.Outcome State Fault Refusal
  | [], s => .next s
  | a :: as, s =>
    match activate a s with
    | .next t => runActivations as t
    | .fault f => .fault f
    | .refused r => .refused r

/-- The instruction the next tick executes is `ins` (40_execution_cycle.md R132). -/
def State.Executes (s : State) (ins : Instr) : Prop := s.execState = .running ∧ decode s.fetchWord = .ok ins

/-- Whether an agent's step is enabled: the table of 40_execution_cycle.md R130. -/
def State.Enabled (s : State) : Activation → Prop
  | .instrTick => s.execState = .running
  | .keyWaitDone => ∃ x k, s.execState = .waitKey x ∧ s.notify = some k
  | .timerTick => timerEnabled hardware.timersDuringKeyWait s.execState = true
  | .keyEvent _ _ => s.execState.isLive = true
  | .stop => s.execState.isLive = true

/-- An infinite run: `who n` names the agent that steps from `run n` to `run (n + 1)`. -/
def IsRun (run : Nat → State) (who : Nat → Activation) : Prop := ∀ n, activate (who n) (run n) = .next (run (n + 1))

/-- Weak fairness of the Executor and the Timer: a step that stays enabled is eventually taken. The input feed and the
host are left out: no rule assumes that they ever act (40_execution_cycle.md R142). -/
def WeaklyFair (run : Nat → State) (who : Nat → Activation) : Prop :=
  ∀ a, a = .instrTick ∨ a = .keyWaitDone ∨ a = .timerTick →
    ∀ n, (∀ m ≥ n, (run m).Enabled a) → ∃ m ≥ n, who m = a

/-- What reset leaves under a `RESET_FILL` (10_state.md R51): under ZERO the state of `State.resetWith`; under ARBITRARY
the elements the rule fixes, whatever the others hold. -/
def State.IsReset (fill : ResetFill) (image : List Byte) (s : State) : Prop :=
  match fill with
  | .zero => State.resetWith image = .next s
  | .arbitrary =>
    image.length ≤ hardware.maxImage ∧ s.mem.wf = true
      ∧ (∀ j < hardware.fontSize, s.memRead (hardware.fontBase + j) = hardware.fontTable.getD j 0)
      ∧ (∀ j < image.length, s.memRead (hardware.progBase + j) = image.getD j 0)
      ∧ s.fb = Framebuffer.clear ∧ s.pc = 0x0200 ∧ s.sp = 0 ∧ s.key = Vector.replicate 16 false
      ∧ s.notify = none ∧ s.execState = .running
      ∧ s.draws = 0 ∧ s.pending = [] ∧ s.emitted = []

end Sys2Proof.Machine

namespace Sys2Proof

/-- The instruction may write VF: as a flag (the table of 10_state.md R43), or because VF is its destination. Fx0A
counts although its write may come later, at the completion of the wait. -/
def Instr.mayWriteVF : Instr → Bool
  | .addReg _ _ | .subReg _ _ | .shr _ _ | .subn _ _ | .shl _ _ | .drw _ _ _ => true
  | .ldImm x _ | .addImm x _ | .ldReg x _ | .orReg x _ | .andReg x _ | .xorReg x _ => x = Reg.vf
  | .rnd x _ | .ldVxDT x | .ldVxK x | .ldLoad x => x = Reg.vf
  | .cls | .ret | .jp _ | .call _ | .jpV0 _ => false
  | .seImm _ _ | .sneImm _ _ | .seReg _ _ | .sneReg _ _ | .skp _ | .sknp _ => false
  | .ldI _ | .addI _ | .ldF _ | .ldB _ | .ldStore _ | .ldDTVx _ | .ldSTVx _ => false

end Sys2Proof
end

