-- ==== Sys2Proof/Certificates/Slice0/Obligations.lean ====
section
/-! DEFINITION. The statements for the provers: what the spec's numbered rules say the machine does. A statement about an
instruction gives its word (30_encoding.md R105), the next state `exec` answers for every state and every operand, and
its frame. Values are computed on naturals, as 00_scope.md R13 reads them. -/

namespace Sys2Proof.Claims
open Sys2Proof.Machine

/-- Every byte of memory reads as before. -/
def SameMemory (s t : State) : Prop := ∀ a, t.memRead a = s.memRead a

/-- `t` is `s` with `b` in Vx and PC past the instruction: every other register and every other element as before. -/
def Wrote (s t : State) (x : Reg) (b : Byte) : Prop :=
  (∀ r, t.getV r = if r = x then b else s.getV r) ∧ t.pc = s.pc + 2
    ∧ t = { s with v := t.v, pc := t.pc } ∧ SameMemory s t

/-- `t` is `s` with a result in Vx and then a flag in VF, and PC past the instruction. -/
def WroteWithFlag (s t : State) (x : Reg) (b : Byte) (flag : Prop) [Decidable flag] : Prop :=
  (∀ r, t.getV r = if r = 15 then (if flag then 1 else 0) else if r = x then b else s.getV r) ∧ t.pc = s.pc + 2
    ∧ t = { s with v := t.v, pc := t.pc } ∧ SameMemory s t

/-- The same with the two writes in the other order (43_register_arithmetic.md R201, `RESULT_LAST`). -/
def WroteResultLast (s t : State) (x : Reg) (b : Byte) (flag : Prop) [Decidable flag] : Prop :=
  (∀ r, t.getV r = if r = x then b else if r = 15 then (if flag then 1 else 0) else s.getV r) ∧ t.pc = s.pc + 2
    ∧ t = { s with v := t.v, pc := t.pc } ∧ SameMemory s t

/-- `s` with the fault `f` taken: EXEC is Faulted with `{cause, pc, word, info}`, everything else as before the
instruction (60_exceptions.md R334, R336). -/
def faultedFrom (s : State) (f : Fault) : State :=
  { s with execState := .faulted { cause := f, pc := s.pc, word := s.fetchWord } }

/-- The 16-bit value of a natural. -/
def word (n : Nat) : Word := BitVec.ofNat 16 n

/-- The `n` bytes stored from the address `base` on: the address of the j-th, reduced (20_memory.md R72). -/
def slot (s : State) (j : Nat) : Nat := cellOf (s.base + j)

/-- `t` holds the bytes `bs` at the addresses I, I + 1, ..., every other byte as before, PC past the instruction, and
every element but memory and PC as before (I included, 44_index_memory.md R240). -/
def Stored (s t : State) (bs : List Byte) : Prop :=
  (∀ j < bs.length, t.memRead (s.base + j) = bs.getD j 0)
    ∧ (∀ a, (∀ j < bs.length, cellOf a ≠ slot s j) → t.memRead a = s.memRead a)
    ∧ t.pc = s.pc + 2 ∧ t = { s with mem := t.mem, pc := t.pc }

/-- The first of `n` stored addresses that lies in the reserved area is the j-th. -/
def FirstReserved (s : State) (n j : Nat) : Prop :=
  j < n ∧ slot s j < 0x200 ∧ ∀ k < j, 0x200 ≤ slot s k

/-- The sprite of `Dxyn` has a 1 at the screen coordinate `(px, py)`: origin Vx mod 63 and Vy mod 31, the r-th row at
I + r, most significant bit leftmost (46_drawing.md R284, R285, R288). -/
def spriteOn (s : State) (x y : Reg) (n px py : Nat) : Bool :=
  let x0 := (s.getV x).toNat % 63
  let y0 := (s.getV y).toNat % 31
  decide (x0 ≤ px ∧ px < x0 + 8 ∧ y0 ≤ py ∧ py < y0 + n) && (s.memRead (s.base + (py - y0))).getLsbD (7 - (px - x0))

/-- The same under `ORIGIN_WRAP = DIM`: origin Vx mod 64 and Vy mod 32 (46_drawing.md R284). -/
def spriteOnDim (s : State) (x y : Reg) (n px py : Nat) : Bool :=
  let x0 := (s.getV x).toNat % 64
  let y0 := (s.getV y).toNat % 32
  decide (x0 ≤ px ∧ px < x0 + 8 ∧ y0 ≤ py ∧ py < y0 + n) && (s.memRead (s.base + (py - y0))).getLsbD (7 - (px - x0))

/-- Some pixel of the sprite is 1, inside the screen. -/
def SpriteHasPixel (s : State) (x y : Reg) (n : Nat) : Prop :=
  ∃ px py, px < 64 ∧ py < 32 ∧ spriteOn s x y n px py = true

/-- Some pixel of the sprite is 1 on a cell that holds 1 (46_drawing.md R287). -/
def Collides (s : State) (x y : Reg) (n : Nat) : Prop :=
  ∃ px py, px < 64 ∧ py < 32 ∧ spriteOn s x y n px py = true ∧ s.fb.at px py = true

/-- The Executor's instruction tick is the next step: EXEC is Running, and either no agent's step is listed or an
instruction tick is first. -/
def TickDue (s : State) : Prop := s.execState = .running ∧ (s.pending = [] ∨ ∃ as, s.pending = .instrTick :: as)

/-- Instructions that write PC beyond the fetch's advance (30_encoding.md R105, groups "control flow" and "skip"). -/
def writesPC : Instr → Bool
  | .ret | .jp _ | .call _ | .jpV0 _ => true
  | .seImm _ _ | .sneImm _ _ | .seReg _ _ | .sneReg _ _ | .skp _ | .sknp _ => true
  | .cls | .ldImm _ _ | .addImm _ _ | .ldReg _ _ | .orReg _ _ | .andReg _ _ | .xorReg _ _ => false
  | .addReg _ _ | .subReg _ _ | .shr _ _ | .subn _ _ | .shl _ _ | .rnd _ _ | .drw _ _ _ => false
  | .ldI _ | .addI _ | .ldF _ | .ldB _ | .ldStore _ | .ldLoad _ => false
  | .ldVxDT _ | .ldVxK _ | .ldDTVx _ | .ldSTVx _ => false

/-- The registers an instruction writes: the column "writes" of the table of 10_state.md R33. Fx0A counts although its
write may come later, at the completion of the wait. -/
def writesV : Instr → Reg → Bool
  | .ldImm x _, r | .addImm x _, r | .ldReg x _, r | .orReg x _, r | .andReg x _, r | .xorReg x _, r => r = x
  | .addReg x _, r | .subReg x _, r | .shr x _, r | .subn x _, r | .shl x _, r => r = x || r = 15
  | .rnd x _, r | .ldVxDT x, r | .ldVxK x, r => r = x
  | .ldLoad x, r => r ≤ x
  | .drw _ _ _, r => r = 15
  | .cls, _ | .ret, _ | .jp _, _ | .call _, _ | .jpV0 _, _ => false
  | .seImm _ _, _ | .sneImm _ _, _ | .seReg _ _, _ | .sneReg _ _, _ | .skp _, _ | .sknp _, _ => false
  | .ldI _, _ | .addI _, _ | .ldF _, _ | .ldB _, _ | .ldStore _, _ | .ldDTVx _, _ | .ldSTVx _, _ => false

/-- Instructions for which 60_exceptions.md R331 lists a cause. -/
def mayFault : Instr → Bool
  | .ret | .call _ | .ldB _ | .ldStore _ | .skp _ | .sknp _ => true
  | .cls | .jp _ | .jpV0 _ | .seImm _ _ | .sneImm _ _ | .seReg _ _ | .sneReg _ _ => false
  | .ldImm _ _ | .addImm _ _ | .ldReg _ _ | .orReg _ _ | .andReg _ _ | .xorReg _ _ => false
  | .addReg _ _ | .subReg _ _ | .shr _ _ | .subn _ _ | .shl _ _ | .rnd _ _ | .drw _ _ _ => false
  | .ldI _ | .addI _ | .ldF _ | .ldLoad _ | .ldVxDT _ | .ldVxK _ | .ldDTVx _ | .ldSTVx _ => false

/-- While these agents step from `s`, EXEC stays Running or WaitKey and no instruction that `stops` is executed. -/
def Undisturbed (stops : Instr → Prop) : List Activation → State → Prop
  | [], _ => True
  | a :: as, s =>
    s.execState.isLive = true ∧ (a = .instrTick → ∀ ins, s.Executes ins → ¬ stops ins)
      ∧ ∀ t, activate a s = .next t → Undisturbed stops as t

/-- A step that neither presses a key nor stops the machine. -/
def neitherPressNorStop : Activation → Bool
  | .instrTick => true
  | .keyWaitDone => true
  | .timerTick => true
  | .keyEvent _ pressed => !pressed
  | .stop => false

end Sys2Proof.Claims

open Sys2Proof Sys2Proof.Machine Sys2Proof.Claims

/-! ## Encoding -/

/-- Words written out from the patterns of 30_encoding.md R105 decode to their instructions, one or more per family, and
words of R106 to none. -/
def Obligations.SampleWordsDecode : Prop :=
  decode 0x00E0 = .ok .cls ∧ decode 0x00EE = .ok .ret ∧ decode 0x2ABC = .ok (.call 0xABC)
    ∧ decode 0x3A05 = .ok (.seImm 10 0x05) ∧ decode 0x9AB0 = .ok (.sneReg 10 11) ∧ decode 0x8AB5 = .ok (.subReg 10 11)
    ∧ decode 0xC30F = .ok (.rnd 3 0x0F) ∧ decode 0xA050 = .ok (.ldI 0x050) ∧ decode 0xF155 = .ok (.ldStore 1)
    ∧ decode 0xFA15 = .ok (.ldDTVx 10) ∧ decode 0xD125 = .ok (.drw 1 2 5) ∧ decode 0xF30A = .ok (.ldVxK 3)
    ∧ decode 0x9AB1 = .error (.illegalWord 0x9AB1) ∧ decode 0xF019 = .error (.illegalWord 0xF019)

/-- Decoding and encoding are inverse: a well-formed instruction's word decodes to it, and a word that decodes is the
word of what it decodes to, which is well-formed (30_encoding.md R101 to R105). -/
def Obligations.DecodeAndEncodeAgree : Prop :=
  (∀ i : Instr, i.wf = true → decode (encode i) = .ok i)
    ∧ ∀ (w : Word) (i : Instr), decode w = .ok i → encode i = w ∧ i.wf = true

/-- A word decodes exactly when it matches a row of the opcode map, the row of its instruction, and it matches at most
one row (30_encoding.md R104, R105). -/
def Obligations.EachWordMatchesAtMostOneRow : Prop :=
  (∀ w : Word, (∃ i, decode w = .ok i) ↔ ∃ r ∈ opcodeTable, rowMatches r w = true)
    ∧ (∀ (w : Word) (i : Instr), decode w = .ok i → opcodeRow i ∈ opcodeTable ∧ rowMatches (opcodeRow i) w = true)
    ∧ ∀ (w : Word) (r r' : OpcodeRow), r ∈ opcodeTable → r' ∈ opcodeTable → rowMatches r w = true →
        rowMatches r' w = true → r = r'

/-- The illegal words are those of 30_encoding.md R106, and an instruction tick of a running CORE on one of them takes
DecodeError, everything but EXEC as before the fetch. -/
def Obligations.IllegalWordsRaiseDecodeError : Prop :=
  ∀ w : Word,
    let op := w.toNat / 4096
    let n := w.toNat % 16
    let kk := w.toNat % 256
    let illegal :=
      (op = 0 ∧ w ≠ 0x00E0 ∧ w ≠ 0x00EE) ∨ ((op = 5 ∨ op = 9) ∧ n ≠ 0)
        ∨ (op = 8 ∧ n ∈ [8, 9, 0xA, 0xB, 0xC, 0xD, 0xF]) ∨ (op = 0xE ∧ kk ∉ [0x9E, 0xA1])
        ∨ (op = 0xF ∧ kk ∉ [0x07, 0x0A, 0x15, 0x18, 0x1E, 0x29, 0x33, 0x55, 0x65])
    (decode w = .error (.illegalWord w) ↔ illegal)
      ∧ ∀ s : State, s.execState = .running → s.fetchWord = w → illegal →
          activate .instrTick s = .next (faultedFrom s (.decodeError w))

/-! ## Register load and arithmetic -/

/-- 6xkk, 7xkk, 8xy0, 8xy1, 8xy2 and 8xy3: the word, the value written to Vx, no flag (VF is written only as Vx), and
nothing else changed but PC (43_register_arithmetic.md R203 to R208). -/
def Obligations.LoadAddCopyAndLogic : Prop :=
  ∀ (s : State) (x y : Reg) (kk : Byte),
    (decode (0x6#4 ++ regField x ++ kk) = .ok (.ldImm x kk) ∧ ∃ t, exec (.ldImm x kk) s = .next t ∧ Wrote s t x kk)
      ∧ (decode (0x7#4 ++ regField x ++ kk) = .ok (.addImm x kk)
          ∧ ∃ t, exec (.addImm x kk) s = .next t
              ∧ Wrote s t x (BitVec.ofNat 8 (((s.getV x).toNat + kk.toNat) % 256)))
      ∧ (decode (0x8#4 ++ regField x ++ regField y ++ 0x0#4) = .ok (.ldReg x y)
          ∧ ∃ t, exec (.ldReg x y) s = .next t ∧ Wrote s t x (s.getV y))
      ∧ (decode (0x8#4 ++ regField x ++ regField y ++ 0x1#4) = .ok (.orReg x y)
          ∧ ∃ t, exec (.orReg x y) s = .next t ∧ Wrote s t x (s.getV x ||| s.getV y))
      ∧ (decode (0x8#4 ++ regField x ++ regField y ++ 0x2#4) = .ok (.andReg x y)
          ∧ ∃ t, exec (.andReg x y) s = .next t ∧ Wrote s t x (s.getV x &&& s.getV y))
      ∧ (decode (0x8#4 ++ regField x ++ regField y ++ 0x3#4) = .ok (.xorReg x y)
          ∧ ∃ t, exec (.xorReg x y) s = .next t ∧ Wrote s t x (s.getV x ^^^ s.getV y))

/-- 8xy4, 8xy5 and 8xy7: the result modulo 256 in Vx and then the carry or the strict not-borrow in VF, also when x or y
is F (43_register_arithmetic.md R209, R210). The flag of 8xy7 is an inference of the spec: "the symmetric form of the 8xy5
flag [derived: from rule R210]" (43_register_arithmetic.md). -/
def Obligations.AddAndSubtractWithFlag : Prop :=
  ∀ (s : State) (x y : Reg),
    let a := (s.getV x).toNat
    let b := (s.getV y).toNat
    (decode (0x8#4 ++ regField x ++ regField y ++ 0x4#4) = .ok (.addReg x y)
        ∧ ∃ t, exec (.addReg x y) s = .next t ∧ WroteWithFlag s t x (BitVec.ofNat 8 ((a + b) % 256)) (a + b > 255))
      ∧ (decode (0x8#4 ++ regField x ++ regField y ++ 0x5#4) = .ok (.subReg x y)
          ∧ ∃ t, exec (.subReg x y) s = .next t
              ∧ WroteWithFlag s t x (BitVec.ofNat 8 ((a + 256 - b) % 256)) (a > b))
      ∧ (decode (0x8#4 ++ regField x ++ regField y ++ 0x7#4) = .ok (.subn x y)
          ∧ ∃ t, exec (.subn x y) s = .next t
              ∧ WroteWithFlag s t x (BitVec.ofNat 8 ((b + 256 - a) % 256)) (b > a))

/-- 8xy6 and 8xyE: Vx shifted by one place and the bit shifted out in VF, whatever y is (43_register_arithmetic.md R211,
R213; 30_encoding.md R108). -/
def Obligations.ShiftsMoveOneBitIntoFlag : Prop :=
  ∀ (s : State) (x y : Reg),
    let a := (s.getV x).toNat
    (decode (0x8#4 ++ regField x ++ regField y ++ 0x6#4) = .ok (.shr x y)
        ∧ ∃ t, exec (.shr x y) s = .next t ∧ WroteWithFlag s t x (BitVec.ofNat 8 (a / 2)) (a % 2 = 1))
      ∧ (decode (0x8#4 ++ regField x ++ regField y ++ 0xE#4) = .ok (.shl x y)
          ∧ ∃ t, exec (.shl x y) s = .next t ∧ WroteWithFlag s t x (BitVec.ofNat 8 (a * 2 % 256)) (a ≥ 128))

/-- Cxkk: Vx becomes the byte drawn AND kk, whatever the draw is; with kk = 0 it is 0. The draw is the model's free value
(log entry 2), and each draw takes the next one (43_register_arithmetic.md R214). -/
def Obligations.RandomByteIsMasked : Prop :=
  ∀ (s : State) (x : Reg) (kk : Byte),
    decode (0xC#4 ++ regField x ++ kk) = .ok (.rnd x kk)
      ∧ ∃ t, exec (.rnd x kk) s = .next t
          ∧ (∀ r, t.getV r = if r = x then Config.randByte s.draws &&& kk else s.getV r)
          ∧ (kk = 0 → t.getV x = 0) ∧ t.pc = s.pc + 2 ∧ t.draws = s.draws + 1
          ∧ t = { s with v := t.v, pc := t.pc, draws := t.draws } ∧ SameMemory s t

/-! ## Control flow -/

/-- 00E0: every cell 0, one Flush, nothing else changed but PC (41_control_flow.md R161). -/
def Obligations.ClearScreen : Prop :=
  decode 0x00E0 = .ok .cls
    ∧ ∀ s : State, ∃ t, exec .cls s = .next t ∧ (∀ px py, t.fb.at px py = false)
        ∧ t.emitted = s.emitted ++ [.flush] ∧ t.pc = s.pc + 2
        ∧ t = { s with fb := t.fb, emitted := t.emitted, pc := t.pc } ∧ SameMemory s t

/-- 00EE: from a stack that is not empty, PC is the address pushed last and SP is one less, nothing else changed; from an
empty one, StackUnderflow (41_control_flow.md R162). -/
def Obligations.ReturnPopsOrUnderflows : Prop :=
  decode 0x00EE = .ok .ret
    ∧ ∀ s : State,
        (∀ (k : Nat) (h : k < 16), s.sp.val = k + 1 →
            exec .ret s = .next { s with sp := ⟨k, by omega⟩, pc := s.stack[k] })
          ∧ (s.sp = 0 → exec .ret s = .next (faultedFrom s (.stackUnderflow 0)))

/-- 2nnn: with room on the stack, the address after the CALL is pushed, SP is one more and PC is nnn, nothing else
changed; at SP = 16, StackOverflow (41_control_flow.md R164). -/
def Obligations.CallPushesOrOverflows : Prop :=
  ∀ (s : State) (nnn : BitVec 12),
    decode (0x2#4 ++ nnn) = .ok (.call nnn)
      ∧ (∀ h : s.sp.val < 16,
          exec (.call nnn) s =
            .next { s with
              stack := s.stack.set s.sp.val (s.pc + 2), sp := ⟨s.sp.val + 1, by omega⟩, pc := word nnn.toNat })
      ∧ (s.sp = 16 → exec (.call nnn) s = .next (faultedFrom s (.stackOverflow 16)))

/-- 1nnn and Bnnn: PC is nnn, or nnn + V0 unreduced, and nothing else changes (41_control_flow.md R163, R165). -/
def Obligations.JumpsSetPC : Prop :=
  ∀ (s : State) (nnn : BitVec 12),
    (decode (0x1#4 ++ nnn) = .ok (.jp nnn) ∧ exec (.jp nnn) s = .next { s with pc := word nnn.toNat })
      ∧ (decode (0xB#4 ++ nnn) = .ok (.jpV0 nnn)
          ∧ exec (.jpV0 nnn) s = .next { s with pc := word (nnn.toNat + (s.getV 0).toNat) })

/-- A CALL, anything after which SP and the return addresses below it are as the CALL left them, as when every CALL and RET
in between is matched, and a RET: SP is as before the CALL and PC is the address after it. Entries at SP and above may
hold anything (10_state.md R39). An inference of the spec: 41_control_flow.md R166, "derived: from rule R162 and rule
R164". -/
def Obligations.CallThenReturnResumes : Prop :=
  ∀ (s : State) (nnn : BitVec 12), s.sp.val < 16 →
    ∃ t, exec (.call nnn) s = .next t
      ∧ ∀ u : State, u.sp = t.sp → (∀ (j : Nat) (h : j < 16), j < t.sp.val → u.stack[j] = t.stack[j]) →
          ∃ r, exec .ret u = .next r ∧ r.pc = s.pc + 2 ∧ r.sp = s.sp ∧ r = { u with pc := r.pc, sp := r.sp }

/-! ## Conditional skip -/

/-- 3xkk, 4xkk, 5xy0 and 9xy0: PC moves by 4 when the condition holds and by 2 when it does not, modulo 65536, and
nothing else changes (42_conditional_skip.md R181 to R184). -/
def Obligations.RegisterSkips : Prop :=
  ∀ (s : State) (x y : Reg) (kk : Byte),
    (decode (0x3#4 ++ regField x ++ kk) = .ok (.seImm x kk)
        ∧ exec (.seImm x kk) s = .next { s with pc := s.pc + if s.getV x = kk then 4 else 2 })
      ∧ (decode (0x4#4 ++ regField x ++ kk) = .ok (.sneImm x kk)
          ∧ exec (.sneImm x kk) s = .next { s with pc := s.pc + if s.getV x = kk then 2 else 4 })
      ∧ (decode (0x5#4 ++ regField x ++ regField y ++ 0x0#4) = .ok (.seReg x y)
          ∧ exec (.seReg x y) s = .next { s with pc := s.pc + if s.getV x = s.getV y then 4 else 2 })
      ∧ (decode (0x9#4 ++ regField x ++ regField y ++ 0x0#4) = .ok (.sneReg x y)
          ∧ exec (.sneReg x y) s = .next { s with pc := s.pc + if s.getV x = s.getV y then 2 else 4 })

/-- Ex9E and ExA1: with Vx at most 0xF, PC moves by 4 or 2 by the state of key Vx, and nothing else changes; with Vx above
0xF, KeyIndexRange (42_conditional_skip.md R185, R186). -/
def Obligations.KeySkips : Prop :=
  ∀ (s : State) (x : Reg),
    decode (0xE#4 ++ regField x ++ 0x9E#8) = .ok (.skp x) ∧ decode (0xE#4 ++ regField x ++ 0xA1#8) = .ok (.sknp x)
      ∧ (∀ k : Key, (s.getV x).toNat = k.val →
          exec (.skp x) s = .next { s with pc := s.pc + if s.isPressed k then 4 else 2 }
            ∧ exec (.sknp x) s = .next { s with pc := s.pc + if s.isPressed k then 2 else 4 })
      ∧ ((s.getV x).toNat > 0xF →
          exec (.skp x) s = .next (faultedFrom s (.keyIndexRange (s.getV x)))
            ∧ exec (.sknp x) s = .next (faultedFrom s (.keyIndexRange (s.getV x))))

/-! ## Index register and memory -/

/-- Annn, Fx1E and Fx29: the value of I, no flag, and nothing else changed but PC (44_index_memory.md R241 to R243). -/
def Obligations.IndexRegisterWrites : Prop :=
  ∀ (s : State) (x : Reg) (nnn : BitVec 12),
    (decode (0xA#4 ++ nnn) = .ok (.ldI nnn) ∧ exec (.ldI nnn) s = .next { s with i := word nnn.toNat, pc := s.pc + 2 })
      ∧ (decode (0xF#4 ++ regField x ++ 0x1E#8) = .ok (.addI x)
          ∧ exec (.addI x) s =
              .next { s with i := word ((s.i.toNat + (s.getV x).toNat) % 65536), pc := s.pc + 2 })
      ∧ (decode (0xF#4 ++ regField x ++ 0x29#8) = .ok (.ldF x)
          ∧ exec (.ldF x) s = .next { s with i := word (0x050 + 5 * ((s.getV x).toNat % 16)), pc := s.pc + 2 })

/-- Fx33: the hundreds, tens and ones of Vx at I, I + 1 and I + 2, every other byte and every element but PC as before; or
ReservedWrite at the first of the three that is reserved, and no byte written (44_index_memory.md R244). -/
def Obligations.StoreDecimalDigits : Prop :=
  ∀ (s : State) (x : Reg), s.mem.wf = true →
    decode (0xF#4 ++ regField x ++ 0x33#8) = .ok (.ldB x)
      ∧ ((∀ j < 3, 0x200 ≤ slot s j) →
          ∃ t, exec (.ldB x) s = .next t
            ∧ Stored s t
                [BitVec.ofNat 8 ((s.getV x).toNat / 100), BitVec.ofNat 8 ((s.getV x).toNat / 10 % 10),
                  BitVec.ofNat 8 ((s.getV x).toNat % 10)])
      ∧ ∀ j, FirstReserved s 3 j → exec (.ldB x) s = .next (faultedFrom s (.reservedWrite (slot s j)))

/-- Fx55: V0..Vx at I..I + x, every other byte and every element but PC as before; or ReservedWrite at the first address
that is reserved, and no byte written (44_index_memory.md R245). -/
def Obligations.StoreRegisters : Prop :=
  ∀ (s : State) (x : Reg), s.mem.wf = true →
    decode (0xF#4 ++ regField x ++ 0x55#8) = .ok (.ldStore x)
      ∧ ((∀ j < x.val + 1, 0x200 ≤ slot s j) →
          ∃ t, exec (.ldStore x) s = .next t ∧ (∀ r ≤ x, t.memRead (s.base + r.val) = s.getV r)
            ∧ (∀ a, (∀ j < x.val + 1, cellOf a ≠ slot s j) → t.memRead a = s.memRead a)
            ∧ t.pc = s.pc + 2 ∧ t = { s with mem := t.mem, pc := t.pc })
      ∧ ∀ j, FirstReserved s (x.val + 1) j → exec (.ldStore x) s = .next (faultedFrom s (.reservedWrite (slot s j)))

/-- Fx65: V0..Vx from I..I + x, from any addresses; every other register and every element but PC as before
(44_index_memory.md R246). -/
def Obligations.LoadRegisters : Prop :=
  ∀ (s : State) (x : Reg),
    decode (0xF#4 ++ regField x ++ 0x65#8) = .ok (.ldLoad x)
      ∧ ∃ t, exec (.ldLoad x) s = .next t
          ∧ (∀ r, t.getV r = if r ≤ x then s.memRead (s.base + r.val) else s.getV r)
          ∧ t.pc = s.pc + 2 ∧ t = { s with v := t.v, pc := t.pc } ∧ SameMemory s t

/-- Fx55 and then Fx65 with the same x, the same I and no write to memory in between leave V0..Vx as they were, and memory
holds V0..Vx at I..I + x (an inference of the spec: 44_index_memory.md R247, "derived: from rule R245 and rule
R246"). -/
def Obligations.BlockTransferRestoresRegisters : Prop :=
  ∀ (s : State) (x : Reg), s.mem.wf = true → (∀ j < x.val + 1, 0x200 ≤ slot s j) →
    ∃ t, exec (.ldStore x) s = .next t
      ∧ ∀ u : State, u.i = t.i → u.mem = t.mem →
          ∃ r, exec (.ldLoad x) u = .next r ∧ (∀ q ≤ x, r.getV q = s.getV q ∧ r.memRead (s.base + q.val) = s.getV q)

/-- A word that Fx55 stored is the word the next fetch at its address reads, with nothing in between, also when it is the
instruction after the store (in part an inference of the spec: 20_memory.md R87, "derived: from rule R82"). -/
def Obligations.FetchSeesTheStore : Prop :=
  ∀ (s : State) (x j : Reg) (pc : Word), s.mem.wf = true → (∀ k < x.val + 1, 0x200 ≤ slot s k) →
    ∀ h : j < x, cellOf pc.toNat = slot s j.val →
      ∃ t, exec (.ldStore x) s = .next t
        ∧ (t.setPC pc).fetchWord = s.getV j ++ s.getV ⟨j.val + 1, Nat.lt_of_le_of_lt h x.isLt⟩

/-! ## Timers -/

/-- Fx07, Fx15 and Fx18: the exact value copied, and nothing else changed but PC (45_timers.md R271 to R273). -/
def Obligations.TimerRegisterCopies : Prop :=
  ∀ (s : State) (x : Reg),
    (decode (0xF#4 ++ regField x ++ 0x07#8) = .ok (.ldVxDT x) ∧ ∃ t, exec (.ldVxDT x) s = .next t ∧ Wrote s t x s.dt)
      ∧ (decode (0xF#4 ++ regField x ++ 0x15#8) = .ok (.ldDTVx x)
          ∧ exec (.ldDTVx x) s = .next { s with dt := s.getV x, pc := s.pc + 2 })
      ∧ (decode (0xF#4 ++ regField x ++ 0x18#8) = .ok (.ldSTVx x)
          ∧ exec (.ldSTVx x) s = .next { s with st := s.getV x, pc := s.pc + 2 })

/-- A timer tick, Running or waiting for a key: each timer one less, or 0 where it is 0, both in one step, and nothing
else changed; Stopped or Faulted, no effect (60_exceptions.md R344, R345). -/
def Obligations.TimerTickCountsDown : Prop :=
  ∀ s : State,
    (s.execState.isLive = true →
        ∃ t, activate .timerTick s = .next t ∧ t.dt.toNat = s.dt.toNat - 1 ∧ t.st.toNat = s.st.toNat - 1
          ∧ t = { s with dt := t.dt, st := t.st })
      ∧ (s.execState.isLive = false → activate .timerTick s = .next s)

/-- Over any steps of any agents in any order, while EXEC stays Running or WaitKey and no Fx15 executes, DT falls by one for
each timer tick and stops at 0, however many instruction ticks run; the same for ST and Fx18 (an inference of the spec:
45_timers.md R274, "derived: from rule R272 and 60_exceptions.md rule R345"). -/
def Obligations.TimerFallsOncePerTick : Prop :=
  ∀ (as : List Activation) (s t : State), runActivations as s = .next t →
    (Undisturbed (fun ins => ∃ x, ins = .ldDTVx x) as s → t.dt.toNat = s.dt.toNat - as.count .timerTick)
      ∧ (Undisturbed (fun ins => ∃ x, ins = .ldSTVx x) as s → t.st.toNat = s.st.toNat - as.count .timerTick)

/-- The tone is on exactly when ST is not 0, and an agent's step changes it only where it executes Fx18 or is a timer tick
that takes ST from 1 to 0 (60_exceptions.md R358). -/
def Obligations.ToneFollowsSoundTimer : Prop :=
  (∀ s : State, s.tone = true ↔ s.st ≠ 0)
    ∧ ∀ (a : Activation) (s t : State), activate a s = .next t → t.tone ≠ s.tone →
        (a = .instrTick ∧ ∃ x, s.Executes (.ldSTVx x)) ∨ (a = .timerTick ∧ s.st = 1 ∧ t.st = 0)

/-! ## Drawing -/

/-- Dxyn: each cell is XORed with the sprite's bit there, VF is 1 exactly when a sprite bit 1 met a cell holding 1, one
Flush, and nothing else changes but PC (46_drawing.md R288). -/
def Obligations.DrawSprite : Prop :=
  ∀ (s : State) (x y : Reg),
    (∀ n : BitVec 4, decode (0xD#4 ++ regField x ++ regField y ++ n) = .ok (.drw x y n.toNat))
      ∧ ∀ n : Nat, ∃ t, exec (.drw x y n) s = .next t
          ∧ (∀ px py, px < 64 → py < 32 → t.fb.at px py = (s.fb.at px py ^^ spriteOn s x y n px py))
          ∧ (Collides s x y n → t.getV 15 = 1) ∧ (¬ Collides s x y n → t.getV 15 = 0)
          ∧ (∀ r, r ≠ 15 → t.getV r = s.getV r)
          ∧ t.emitted = s.emitted ++ [.flush] ∧ t.pc = s.pc + 2
          ∧ t = { s with fb := t.fb, v := t.v, emitted := t.emitted, pc := t.pc } ∧ SameMemory s t

/-- The same DRW twice, with x and y other than F, leaves the framebuffer as it was; on a clear screen the first sets VF =
0, and the second sets VF = 1 exactly when the sprite has a 1 inside the screen (an inference of the spec: 46_drawing.md
R290, "derived: from rule R285 and rule R287"). -/
def Obligations.DrawingTwiceRestores : Prop :=
  ∀ (s : State) (x y : Reg) (n : Nat), x ≠ 15 → y ≠ 15 →
    ∃ t u, exec (.drw x y n) s = .next t ∧ exec (.drw x y n) t = .next u ∧ u.fb = s.fb
      ∧ (s.fb = Framebuffer.clear →
          t.getV 15 = 0 ∧ (SpriteHasPixel s x y n → u.getV 15 = 1) ∧ (¬ SpriteHasPixel s x y n → u.getV 15 = 0))

/-- Two sprites drawn from states with one framebuffer: the framebuffer after both is the same in either order. Where it
was clear and no cell of the screen has a 1 of both, each DRW sets VF = 0 (an inference of the spec: 46_drawing.md R290, "derived: from
rule R285 and rule R287"). -/
def Obligations.DisjointDrawsCommute : Prop :=
  ∀ (s s' : State) (x y x' y' : Reg) (n n' : Nat), s'.fb = s.fb →
    ∃ a a', exec (.drw x y n) s = .next a ∧ exec (.drw x' y' n') s' = .next a'
      ∧ ∃ b b', exec (.drw x' y' n') { s' with fb := a.fb } = .next b ∧ exec (.drw x y n) { s with fb := a'.fb } = .next b'
          ∧ b.fb = b'.fb
          ∧ (s.fb = Framebuffer.clear →
              (∀ px py, px < 64 → py < 32 →
                ¬ (spriteOn s x y n px py = true ∧ spriteOn s' x' y' n' px py = true)) →
              a.getV 15 = 0 ∧ a'.getV 15 = 0 ∧ b.getV 15 = 0 ∧ b'.getV 15 = 0)

/-- CLS and DRW emit one Flush each, whether or not a cell changed, and no other instruction emits anything
(46_drawing.md R289). -/
def Obligations.FlushAfterClearAndDrawOnly : Prop :=
  ∀ (ins : Instr) (s t : State), exec ins s = .next t →
    ((ins = .cls ∨ ∃ x y n, ins = .drw x y n) → t.emitted = s.emitted ++ [.flush])
      ∧ (ins ≠ .cls → (∀ x y n, ins ≠ .drw x y n) → t.emitted = s.emitted)

/-! ## Input -/

/-- Fx0A with a notification held: Vx takes the key, NOTIFY is emptied, EXEC stays; with none, EXEC becomes WaitKey(x).
Nothing else changes but PC (47_input.md R314 with this hardware's `KEY_WAIT_STALE`). -/
def Obligations.KeyWaitConsumesOrSuspends : Prop :=
  ∀ (s : State) (x : Reg),
    decode (0xF#4 ++ regField x ++ 0x0A#8) = .ok (.ldVxK x)
      ∧ (∀ k : Key, s.notify = some k →
          ∃ t, exec (.ldVxK x) s = .next t ∧ (∀ r, t.getV r = if r = x then BitVec.ofNat 8 k.val else s.getV r)
            ∧ t.notify = none ∧ t.pc = s.pc + 2 ∧ t = { s with v := t.v, notify := t.notify, pc := t.pc }
            ∧ SameMemory s t)
      ∧ (s.notify = none → exec (.ldVxK x) s = .next { s with execState := .waitKey x, pc := s.pc + 2 })

/-- A key event, Running or waiting: KEY takes it, a press also posts NOTIFY over what it held, a release leaves NOTIFY, and
nothing else changes; Stopped or Faulted, no effect (47_input.md R311). -/
def Obligations.KeyEventUpdatesTable : Prop :=
  ∀ (s : State) (k : Key) (pressed : Bool),
    (s.execState.isLive = true →
        ∃ t, activate (.keyEvent k pressed) s = .next t
          ∧ (∀ j, t.isPressed j = if j = k then pressed else s.isPressed j)
          ∧ t.notify = (if pressed then some k else s.notify)
          ∧ t = { s with key := t.key, notify := t.notify })
      ∧ (s.execState.isLive = false → activate (.keyEvent k pressed) s = .next s)

/-- The completion of a wait: Vx takes the key NOTIFY holds, NOTIFY is emptied, EXEC is Running, nothing else changes. No
instruction executes in the wait (47_input.md R315). With NOTIFY empty the completion's turn has no effect: the model's
deduction, log entry 11. -/
def Obligations.KeyWaitCompletes : Prop :=
  ∀ (s : State) (x : Reg), s.execState = .waitKey x →
    (∀ k : Key, s.notify = some k →
        ∃ t, activate .keyWaitDone s = .next t ∧ (∀ r, t.getV r = if r = x then BitVec.ofNat 8 k.val else s.getV r)
          ∧ t = { s with v := t.v, notify := none, execState := .running })
      ∧ (s.notify = none → activate .keyWaitDone s = .next s)
      ∧ activate .instrTick s = .next s

/-- The key-wait law: from WaitKey(x) with NOTIFY empty, while no key is pressed and no stop comes, the CORE waits and
executes nothing; after a press of k and further steps without a press, a stop or a completion it still waits, and the
completion then gives Vx = k (an inference of the spec: 47_input.md R318, "derived: from rule R311 and rule R315"). -/
def Obligations.KeyWaitEndsWithThePress : Prop :=
  ∀ (before after : List Activation) (s : State) (x : Reg) (k : Key),
    s.execState = .waitKey x → s.notify = none →
    (∀ a ∈ before, neitherPressNorStop a = true) →
    (∀ a ∈ after, neitherPressNorStop a = true ∧ a ≠ .keyWaitDone) →
      (∃ u, runActivations before s = .next u ∧ u.execState = .waitKey x ∧ u.v = s.v ∧ u.pc = s.pc ∧ u.mem = s.mem)
        ∧ (∃ u, runActivations (before ++ .keyEvent k true :: after) s = .next u ∧ u.execState = .waitKey x
            ∧ u.v = s.v ∧ u.pc = s.pc ∧ u.mem = s.mem)
        ∧ ∃ t, runActivations (before ++ .keyEvent k true :: (after ++ [.keyWaitDone])) s = .next t
            ∧ t.execState = .running ∧ (∀ r, t.getV r = if r = x then BitVec.ofNat 8 k.val else s.getV r)
            ∧ t.notify = none ∧ t.pc = s.pc ∧ t.mem = s.mem

/-- Under weak fairness and with no stop signal, a wait with a key posted ends: some later state is Running
(the assumption of 40_execution_cycle.md R142, the step of 47_input.md R315; the conclusion is the model's inference, log
entry 10). -/
def Obligations.PostedKeyEndsTheWait : Prop :=
  ∀ (run : Nat → State) (who : Nat → Activation) (n : Nat) (x : Reg), IsRun run who → WeaklyFair run who →
    (∀ m, who m ≠ .stop) → (run n).execState = .waitKey x → (run n).notify ≠ none →
      ∃ m ≥ n, (run m).execState = .running

/-- The stop signal, Running or waiting: EXEC is Stopped and Stop is emitted; V and NOTIFY and everything else keep their
values (40_execution_cycle.md R137). -/
def Obligations.StopSignalStops : Prop :=
  ∀ s : State, s.execState.isLive = true →
    activate .stop s = .next { s with execState := .stopped, emitted := s.emitted ++ [.stop] }

/-! ## The execution cycle and faults -/

/-- An instruction tick of a running CORE executes the instruction its word at PC decodes to: the two bytes at PC and
PC + 1, each reduced modulo 4096, most significant first. The machine's step takes the tick's turn off its list first (log
entry 3); `exec` itself moves PC (40_execution_cycle.md R132 to R135). -/
def Obligations.StepExecutesTheDecodedInstruction : Prop :=
  ∀ (s : State) (ins : Instr), TickDue s →
    s.fetchWord = s.memRead (s.pc.toNat % 4096) ++ s.memRead ((s.pc.toNat + 1) % 4096)
      ∧ (decode s.fetchWord = .ok ins → step s = exec ins s.dropPending)

/-- Whose step the machine's step is: the first agent of the list, from the state with its turn taken off; with none
listed, the Executor's, which completes a wait or ticks. In Stopped and Faulted only the list changes (the model's choice,
log entries 3 and 11; the agents are those of
40_execution_cycle.md R130). -/
def Obligations.StepIsOneAgentsStep : Prop :=
  ∀ s : State,
    (∀ a as, s.pending = a :: as → step s = activate a { s with pending := as })
      ∧ (s.pending = [] →
          ((∃ x, s.execState = .waitKey x) → step s = activate .keyWaitDone s)
            ∧ ((∀ x, s.execState ≠ .waitKey x) → step s = activate .instrTick s))
      ∧ (s.execState = .stopped ∨ (∃ rec, s.execState = .faulted rec) →
          step s = .next { s with pending := s.pending.tail })

/-- Every instruction, in every state and with every operand, answers a next state, and so does every step: nothing
refuses and nothing ends in a fault outcome (60_exceptions.md R330, R335; 40_execution_cycle.md R136). -/
def Obligations.EveryInstructionAnswers : Prop :=
  (∀ (ins : Instr) (s : State), ∃ t, exec ins s = .next t) ∧ ∀ s : State, ∃ t, step s = .next t

/-- An instruction tick ends in one of three ways: Running; WaitKey(x), only from Fx0A; or Faulted with every other element
as before the tick (40_execution_cycle.md R136). -/
def Obligations.TickEndsInOneOfThreeWays : Prop :=
  ∀ s : State, s.execState = .running →
    ∃ t, activate .instrTick s = .next t
      ∧ (t.execState = .running
          ∨ (∃ x, t.execState = .waitKey x ∧ decode s.fetchWord = .ok (.ldVxK x))
          ∨ ∃ rec, t = { s with execState := .faulted rec })

/-- Faults are precise and each has its cause: an instruction tick that ends Faulted leaves everything but EXEC as it was,
its record names PC, the word and the cause, and only the instruction listed for a cause raises it, under its condition
(60_exceptions.md R331, R334, R336). That nothing else faults is an inference of the spec: R332, "derived: from rule R331
and 30_encoding.md rule R105". -/
def Obligations.FaultsArePreciseAndCaused : Prop :=
  ∀ (s t : State) (rec : FaultRecord), s.execState = .running → activate .instrTick s = .next t →
    t.execState = .faulted rec →
      t = { s with execState := .faulted rec } ∧ rec.pc = s.pc ∧ rec.word = s.fetchWord
        ∧ ((rec.cause = .decodeError s.fetchWord ∧ decode s.fetchWord = .error (.illegalWord s.fetchWord))
            ∨ ∃ ins, s.Executes ins
                ∧ ((rec.cause = .stackOverflow 16 ∧ s.sp = 16 ∧ ∃ nnn, ins = .call nnn)
                  ∨ (rec.cause = .stackUnderflow 0 ∧ s.sp = 0 ∧ ins = .ret)
                  ∨ (∃ x j, ins = .ldB x ∧ FirstReserved s 3 j ∧ rec.cause = .reservedWrite (slot s j))
                  ∨ (∃ x j, ins = .ldStore x ∧ FirstReserved s (x.val + 1) j ∧ rec.cause = .reservedWrite (slot s j))
                  ∨ ∃ x, (ins = .skp x ∨ ins = .sknp x) ∧ (s.getV x).toNat > 0xF
                      ∧ rec.cause = .keyIndexRange (s.getV x)))

/-- EXEC moves only as the table of 40_execution_cycle.md R131 says, each move by its event, and no agent's step changes
anything in Stopped or Faulted. -/
def Obligations.ExecStateMovesByTheTable : Prop :=
  ∀ (a : Activation) (s t : State), activate a s = .next t →
    (t.execState ≠ s.execState →
        (a = .instrTick ∧ ∃ x, s.Executes (.ldVxK x) ∧ s.notify = none ∧ t.execState = .waitKey x)
          ∨ (a = .instrTick ∧ s.execState = .running ∧ ∃ rec, t.execState = .faulted rec)
          ∨ (a = .keyWaitDone ∧ ∃ x k, s.execState = .waitKey x ∧ s.notify = some k ∧ t.execState = .running
              ∧ t.getV x = BitVec.ofNat 8 k.val)
          ∨ (a = .stop ∧ s.execState.isLive = true ∧ t.execState = .stopped ∧ t.v = s.v))
      ∧ (s.execState.isLive = false → t = s)

/-- Stopped and Faulted are terminal: no step of any agent changes any element, and Stopped is reached only by the stop
signal, from Running or WaitKey (40_execution_cycle.md R138). -/
def Obligations.TerminalStatesAreKept : Prop :=
  (∀ (a : Activation) (s : State), s.execState = .stopped ∨ (∃ rec, s.execState = .faulted rec) →
      activate a s = .next s)
    ∧ ∀ (a : Activation) (s t : State), activate a s = .next t → t.execState = .stopped →
        s.execState = .stopped ∨ (a = .stop ∧ s.execState.isLive = true)

/-- An activation of the instruction or the timer cadence whose step is not enabled has no effect: an instruction tick in
WaitKey, Stopped or Faulted, a timer tick in Stopped or Faulted. One whose step is enabled is that step: the fetched
instruction's, or the countdown (60_exceptions.md R353). -/
def Obligations.DisabledActivationHasNoEffect : Prop :=
  ∀ s : State,
    (s.execState ≠ .running → activate .instrTick s = .next s)
      ∧ (s.execState = .stopped ∨ (∃ rec, s.execState = .faulted rec) → activate .timerTick s = .next s)
      ∧ (∀ ins, s.Executes ins → activate .instrTick s = exec ins s)
      ∧ (s.execState.isLive = true →
          ∃ t, activate .timerTick s = .next t ∧ t.dt.toNat = s.dt.toNat - 1 ∧ t.st.toNat = s.st.toNat - 1)

/-- Every interleaving is a run of the machine: the steps listed in `pending` are taken one after another, and what they do
does not depend on the list (60_exceptions.md R339). -/
def Obligations.EveryInterleavingIsAdmitted : Prop :=
  ∀ (as : List Activation) (s : State), s.pending = [] →
    Host.Core.run core as.length { s with pending := as } = runActivations as s

/-- A jump to its own address changes nothing: it is a fixed point of the instruction tick (an inference of the spec, in
its words "derived: from rule R132 and 41_control_flow.md rule R163", in 40_execution_cycle.md R139). -/
def Obligations.SelfJumpIsAFixedPoint : Prop :=
  ∀ s : State, s.execState = .running → s.SelfJump → activate .instrTick s = .next s

/-! ## Rules of the whole machine -/

/-- An instruction that does not write VF as a flag or name it as a destination leaves VF (10_state.md R43,
70_reset_and_hazards.md R382). -/
def Obligations.OnlyListedInstructionsWriteVF : Prop :=
  ∀ (ins : Instr) (s t : State), ins.mayWriteVF = false → exec ins s = .next t → t.getV 15 = s.getV 15

/-- Each element of the state is written only by the instructions its rule names: a register by those of the table of R33,
PC, beyond the fetch's advance, by control flow and skips, EXEC by Fx0A and by the instructions that raise a fault
(10_state.md R33, R35, R37 to R42, R46 to R48; 20_memory.md R78). The clauses on the draw counter, the list of turns and
the events sent are about the model's own fields (log entries 2, 3 and 4). -/
def Obligations.ElementsHaveTheirWriters : Prop :=
  ∀ (ins : Instr) (s t : State), exec ins s = .next t →
    (∀ r, t.getV r ≠ s.getV r → writesV ins r = true)
      ∧ (t.pc ≠ s.pc + 2 → writesPC ins = true ∨ ∃ f, t = faultedFrom s f)
      ∧ (t.i ≠ s.i → (∃ nnn, ins = .ldI nnn) ∨ ∃ x, ins = .addI x ∨ ins = .ldF x)
      ∧ (t.sp ≠ s.sp → ins = .ret ∨ ∃ nnn, ins = .call nnn)
      ∧ (t.stack ≠ s.stack → ∃ nnn, ins = .call nnn)
      ∧ (t.dt ≠ s.dt → ∃ x, ins = .ldDTVx x) ∧ (t.st ≠ s.st → ∃ x, ins = .ldSTVx x)
      ∧ (t.mem ≠ s.mem → ∃ x, ins = .ldB x ∨ ins = .ldStore x)
      ∧ (t.fb ≠ s.fb → ins = .cls ∨ ∃ x y n, ins = .drw x y n)
      ∧ t.key = s.key ∧ (t.notify ≠ s.notify → ∃ x, ins = .ldVxK x)
      ∧ (t.execState ≠ s.execState →
          (∃ x, ins = .ldVxK x ∧ t.execState = .waitKey x) ∨ (mayFault ins = true ∧ ∃ f, t = faultedFrom s f))
      ∧ (t.draws ≠ s.draws → ∃ x kk, ins = .rnd x kk) ∧ t.pending = s.pending
      ∧ (t.emitted ≠ s.emitted → ins = .cls ∨ ∃ x y n, ins = .drw x y n)

/-- An instruction that is no jump, call, return or skip, and that raises no fault, leaves PC at the next instruction
(40_execution_cycle.md R134). -/
def Obligations.OtherInstructionsAdvancePC : Prop :=
  ∀ (ins : Instr) (s t : State), writesPC ins = false → s.execState = .running → exec ins s = .next t →
    (¬ ∃ rec, t.execState = .faulted rec) → t.pc = s.pc + 2

/-- The invariant: memory in canonical form, the reserved area at its reset contents, the fault record true of the state.
Every step of every agent keeps it, from every state that has it. The font's part is an inference of the spec
(70_reset_and_hazards.md R376, "derived: from rule R370 and the cited rules"); the canonical form is the model's (log
entry 1). -/
def Obligations.EveryStepKeepsTheInvariant : Prop :=
  ∀ s t : State, s.Inv → step s = .next t → t.Inv

/-- The invariant holds after reset, with no image and with any image that is not refused (70_reset_and_hazards.md R370). -/
def Obligations.ResetHasTheInvariant : Prop :=
  State.reset.Inv ∧ ∀ (image : List Byte) (s : State), State.resetWith image = .next s → s.Inv

/-- The reserved area, the font in it, is never mutated: after any number of steps from a state with the invariant it reads
as after reset (10_state.md R45, 20_memory.md R73; an inference of the spec, 70_reset_and_hazards.md R376). -/
def Obligations.ReservedAreaIsNeverMutated : Prop :=
  ∀ (n : Nat) (s t : State), s.Inv → Host.Core.run core n s = .next t →
    (∀ a < 0x200, t.memRead a = resetByte a)
      ∧ ∀ j < 80, t.memRead (0x050 + j) = fontTable.getD j 0

/-! ## Reset -/

/-- Reset with an image of at most 3584 bytes: every element at the value of the table of 10_state.md R51, `RESET_FILL =
ZERO` (70_reset_and_hazards.md R370, R372). -/
def Obligations.ResetLeavesTheTable : Prop :=
  ∀ image : List Byte, image.length ≤ 3584 →
    ∃ s, State.resetWith image = .next s
      ∧ (∀ r, s.getV r = 0) ∧ s.pc = 0x0200 ∧ s.i = 0 ∧ s.sp = 0 ∧ (∀ (j : Nat) (h : j < 16), s.stack[j] = 0)
      ∧ s.dt = 0 ∧ s.st = 0
      ∧ (∀ a < 4096, s.memRead a =
          if 0x050 ≤ a ∧ a ≤ 0x09F then fontTable.getD (a - 0x050) 0
          else if 0x200 ≤ a ∧ a < 0x200 + image.length then image.getD (a - 0x200) 0
          else 0)
      ∧ (∀ px py, s.fb.at px py = false) ∧ (∀ k, s.isPressed k = false) ∧ s.notify = none
      ∧ s.execState = .running

/-- A reset state is one under either value of `RESET_FILL`: what ARBITRARY fixes holds of it, and State.reset is the reset
with no image (10_state.md R51). Beside what R51 fixes, `State.IsReset` holds the model's own: no draw made, no turn
listed, no event sent, memory in canonical form (log entries 2, 3, 4 and 1). -/
def Obligations.ResetSatisfiesBothFills : Prop :=
  State.resetWith [] = .next State.reset
    ∧ ∀ (image : List Byte) (s : State), s.IsReset .zero image → s.IsReset .arbitrary image

/-- A longer image is refused: there is no session (70_reset_and_hazards.md R372). -/
def Obligations.OverlongImageIsRefused : Prop :=
  ∀ image : List Byte, image.length > 3584 → State.resetWith image = .refused (.imageTooLong image.length)

/-- Reset under `RESET_FILL = ARBITRARY`: V, I, the stack, DT, ST and the memory outside the font and the image are whatever
they were in a state before, every other element is as under ZERO; and the states such resets leave are exactly those that
`State.IsReset` describes (10_state.md R51, 70_reset_and_hazards.md R370). The clauses on memory's canonical form and on the
draws, the turns and the events sent are the model's own (log entries 1, 2, 3 and 4). -/
def Obligations.ResetUnderArbitraryFill : Prop :=
  let c : Config := { hardware with resetFill := .arbitrary }
  (∀ (before : State) (image : List Byte), before.mem.wf = true → image.length ≤ 3584 →
      ∃ s, State.resetUnder c before image = .next s
        ∧ s.v = before.v ∧ s.i = before.i ∧ s.stack = before.stack ∧ s.dt = before.dt ∧ s.st = before.st
        ∧ s.pc = 0x0200 ∧ s.sp = 0 ∧ s.execState = .running
        ∧ (∀ a < 4096, s.memRead a =
            if 0x050 ≤ a ∧ a ≤ 0x09F then fontTable.getD (a - 0x050) 0
            else if 0x200 ≤ a ∧ a < 0x200 + image.length then image.getD (a - 0x200) 0
            else before.memRead a)
        ∧ (∀ px py, s.fb.at px py = false) ∧ (∀ k, s.isPressed k = false) ∧ s.notify = none
        ∧ s.mem.wf = true ∧ s.draws = 0 ∧ s.pending = [] ∧ s.emitted = [])
    ∧ ∀ (image : List Byte) (s : State),
        s.IsReset .arbitrary image ↔
          ∃ before : State, before.mem.wf = true ∧ State.resetUnder c before image = .next s

/-! ## The other values of the parameters (00_scope.md R10) -/

/-- Under `FLAG_ORDER = RESULT_LAST`, in any configuration: the five instructions with a flag leave the result in Vx, x = F
too, and the flag in VF where x is not F; nothing else changes but PC (43_register_arithmetic.md R201, R209 to R211, R213).
The flag of 8xy7 is an inference of the spec: "the symmetric form of the 8xy5 flag [derived: from rule R210]"
(43_register_arithmetic.md). The form, a configuration as an argument, is the model's (log entry 12). -/
def Obligations.ResultLastKeepsTheResult : Prop :=
  ∀ (c : Config) (s : State) (x y : Reg), c.flagOrder = .resultLast →
    let a := (s.getV x).toNat
    let b := (s.getV y).toNat
    (∃ t, execUnder c (.addReg x y) s = .next t
        ∧ WroteResultLast s t x (BitVec.ofNat 8 ((a + b) % 256)) (a + b > 255))
      ∧ (∃ t, execUnder c (.subReg x y) s = .next t
          ∧ WroteResultLast s t x (BitVec.ofNat 8 ((a + 256 - b) % 256)) (a > b))
      ∧ (∃ t, execUnder c (.subn x y) s = .next t
          ∧ WroteResultLast s t x (BitVec.ofNat 8 ((b + 256 - a) % 256)) (b > a))
      ∧ (∃ t, execUnder c (.shr x y) s = .next t ∧ WroteResultLast s t x (BitVec.ofNat 8 (a / 2)) (a % 2 = 1))
      ∧ ∃ t, execUnder c (.shl x y) s = .next t ∧ WroteResultLast s t x (BitVec.ofNat 8 (a * 2 % 256)) (a ≥ 128)

/-- The other values of three parameters, in any configuration that has them: with `KEY_INDEX_POLICY = LOW_NIBBLE`, Ex9E and
ExA1 look at the key of Vx's low nibble and never fault; with `KEY_WAIT_STALE = CLEAR_ON_ENTRY`, Fx0A empties NOTIFY and
waits, whatever it held; with `TIMERS_DURING_KEY_WAIT = false`, a timer tick in the wait has no effect
(42_conditional_skip.md R187, 47_input.md R314, 60_exceptions.md R344). The form is the model's (log entry 12). -/
def Obligations.OtherKeyAndTimerPolicies : Prop :=
  ∀ (c : Config) (s : State) (x : Reg),
    (c.keyIndexPolicy = .lowNibble → ∀ k : Key, (s.getV x).toNat % 16 = k.val →
        execUnder c (.skp x) s = .next { s with pc := s.pc + if s.isPressed k then 4 else 2 }
          ∧ execUnder c (.sknp x) s = .next { s with pc := s.pc + if s.isPressed k then 2 else 4 })
      ∧ (c.keyWaitStale = .clearOnEntry →
          execUnder c (.ldVxK x) s = .next { s with notify := none, execState := .waitKey x, pc := s.pc + 2 })
      ∧ (c.timersDuringKeyWait = false → s.execState = .waitKey x → activateUnder c .timerTick s = .next s)

/-- Under `RESERVED_WRITE = ALLOW`, in any configuration that has it: Fx33 and Fx55 store their bytes whatever the addresses
are, the reserved area too, and nothing faults (20_memory.md R73, 44_index_memory.md R244, R245). The form is the model's
(log entry 12), and so is the premise, memory in canonical form (log entry 1). -/
def Obligations.AllowedWritesReachTheReservedArea : Prop :=
  ∀ (c : Config) (s : State) (x : Reg), c.reservedWrite = .allow → s.mem.wf = true →
    (∃ t, execUnder c (.ldB x) s = .next t
        ∧ Stored s t
            [BitVec.ofNat 8 ((s.getV x).toNat / 100), BitVec.ofNat 8 ((s.getV x).toNat / 10 % 10),
              BitVec.ofNat 8 ((s.getV x).toNat % 10)])
      ∧ ∃ t, execUnder c (.ldStore x) s = .next t ∧ (∀ r ≤ x, t.memRead (s.base + r.val) = s.getV r)
          ∧ (∀ a, (∀ j < x.val + 1, cellOf a ≠ slot s j) → t.memRead a = s.memRead a)
          ∧ t.pc = s.pc + 2 ∧ t = { s with mem := t.mem, pc := t.pc }

/-- Under `ORIGIN_WRAP = DIM`, in any configuration that has it: Dxyn draws from the origin Vx mod 64 and Vy mod 32, XORs each
cell of the screen with the sprite's bit there, and sets VF exactly when a sprite bit 1 met a cell holding 1
(46_drawing.md R284, R285, R287, R288). The form is the model's (log entry 12). -/
def Obligations.DrawFromTheOtherOrigin : Prop :=
  ∀ (c : Config) (s : State) (x y : Reg) (n : Nat), c.originWrap = .dim →
    ∃ t, execUnder c (.drw x y n) s = .next t
      ∧ (∀ px py, px < 64 → py < 32 → t.fb.at px py = (s.fb.at px py ^^ spriteOnDim s x y n px py))
      ∧ ((∃ px py, px < 64 ∧ py < 32 ∧ spriteOnDim s x y n px py = true ∧ s.fb.at px py = true) →
          t.getV 15 = 1)
      ∧ ((¬ ∃ px py, px < 64 ∧ py < 32 ∧ spriteOnDim s x y n px py = true ∧ s.fb.at px py = true) →
          t.getV 15 = 0)
      ∧ (∀ r, r ≠ 15 → t.getV r = s.getV r)
      ∧ t.emitted = s.emitted ++ [.flush] ∧ t.pc = s.pc + 2
      ∧ t = { s with fb := t.fb, v := t.v, emitted := t.emitted, pc := t.pc } ∧ SameMemory s t
end

