-- ==== Sys2Proof/Laws/Config.lean ====
section
/-! SUPPORT. This hardware's value of each parameter (00_scope.md R10), so that no proof unfolds `hardware`. -/

namespace Sys2Proof.Machine

@[simp] theorem hardware_memSize : hardware.memSize = 4096 := rfl
@[simp] theorem hardware_progBase : hardware.progBase = 0x200 := rfl
@[simp] theorem hardware_fontBase : hardware.fontBase = 0x050 := rfl
@[simp] theorem hardware_fontGlyphBytes : hardware.fontGlyphBytes = 5 := rfl
@[simp] theorem hardware_fontSize : hardware.fontSize = 80 := rfl
@[simp] theorem hardware_fontTable : hardware.fontTable = fontTable := rfl
@[simp] theorem hardware_maxImage : hardware.maxImage = 3584 := rfl
@[simp] theorem hardware_spriteMaxRows : hardware.spriteMaxRows = 15 := rfl
@[simp] theorem hardware_originWrap : hardware.originWrap = .dimMinus1 := rfl
@[simp] theorem hardware_timersDuringKeyWait : hardware.timersDuringKeyWait = true := rfl
@[simp] theorem hardware_keyWaitStale : hardware.keyWaitStale = .consume := rfl
@[simp] theorem hardware_reservedWrite : hardware.reservedWrite = .fault := rfl
@[simp] theorem hardware_keyIndexPolicy : hardware.keyIndexPolicy = .fault := rfl
@[simp] theorem hardware_flagOrder : hardware.flagOrder = .flagLast := rfl
@[simp] theorem hardware_resetFill : hardware.resetFill = .zero := rfl

/-- The reserved area is 0x000..0x1FF (20_memory.md R74). -/
@[simp] theorem hardware_reserved (a : Nat) : hardware.reserved a = decide (a < 0x200) := by
  have h : (a ≤ 0x1FF) = (a < 0x200) := by rw [eq_iff_iff]; omega
  simp [Config.reserved, show hardware.reservedLo = 0 from rfl, show hardware.reservedHi = 0x1FF from rfl, h]

end Sys2Proof.Machine
end

