-- ==== Sys2Proof/Laws/Encoding.lean ====
section
/-! SUPPORT. The fields of a packed word (30_encoding.md R101, R102), and the parts of a fetched one. -/

namespace Sys2Proof

/-- Bits above the low part of a concatenation are the high part's. -/
theorem extract_append_high {m k len : Nat} (a : BitVec k) (b : BitVec m) (start : Nat) :
    (a ++ b).extractLsb' (m + start) len = a.extractLsb' start len := by
  ext i hi
  simp only [BitVec.getElem_extractLsb', BitVec.getLsbD_append]
  rw [if_neg (by omega)]
  congr 1
  omega

/-- Bits inside the low part of a concatenation are the low part's. -/
theorem extract_append_low {m k len : Nat} (a : BitVec k) (b : BitVec m) (start : Nat) (h : start + len ≤ m) :
    (a ++ b).extractLsb' start len = b.extractLsb' start len := by
  ext i hi
  simp only [BitVec.getElem_extractLsb', BitVec.getLsbD_append]
  rw [if_pos (by omega)]

theorem extract_whole {m : Nat} (a : BitVec m) : a.extractLsb' 0 m = a := by
  ext i hi
  simp

@[simp] theorem regField_toFin (r : Reg) : (regField r).toFin = r := rfl

@[simp] theorem regField_ofToFin (b : BitVec 4) : regField b.toFin = b := rfl

/-! ### Format NNN -/

@[simp] theorem fieldOp_packNNN (op : BitVec 4) (nnn : BitVec 12) : fieldOp (packNNN op nnn) = op :=
  (extract_append_high op nnn 0).trans (extract_whole op)

@[simp] theorem fieldNNN_packNNN (op : BitVec 4) (nnn : BitVec 12) : fieldNNN (packNNN op nnn) = nnn :=
  (extract_append_low op nnn 0 (by decide)).trans (extract_whole nnn)

/-! ### Formats XKK and XS -/

@[simp] theorem fieldOp_packXKK (op : BitVec 4) (x : Reg) (kk : Byte) : fieldOp (packXKK op x kk) = op :=
  (extract_append_high (op ++ regField x) kk 4).trans
    ((extract_append_high op (regField x) 0).trans (extract_whole op))

theorem extract_x_packXKK (op : BitVec 4) (x : Reg) (kk : Byte) :
    (packXKK op x kk).extractLsb' 8 4 = regField x :=
  (extract_append_high (op ++ regField x) kk 0).trans
    ((extract_append_low op (regField x) 0 (by decide)).trans (extract_whole _))

@[simp] theorem fieldX_packXKK (op : BitVec 4) (x : Reg) (kk : Byte) : fieldX (packXKK op x kk) = x :=
  congrArg BitVec.toFin (extract_x_packXKK op x kk)

@[simp] theorem fieldKK_packXKK (op : BitVec 4) (x : Reg) (kk : Byte) : fieldKK (packXKK op x kk) = kk :=
  (extract_append_low (op ++ regField x) kk 0 (by decide)).trans (extract_whole kk)

/-! ### Formats XYS and XYN -/

@[simp] theorem fieldOp_packXYN (op : BitVec 4) (x y : Reg) (n : BitVec 4) : fieldOp (packXYN op x y n) = op :=
  (extract_append_high (op ++ regField x ++ regField y) n 8).trans
    ((extract_append_high (op ++ regField x) (regField y) 4).trans
      ((extract_append_high op (regField x) 0).trans (extract_whole op)))

theorem extract_x_packXYN (op : BitVec 4) (x y : Reg) (n : BitVec 4) :
    (packXYN op x y n).extractLsb' 8 4 = regField x :=
  (extract_append_high (op ++ regField x ++ regField y) n 4).trans
    ((extract_append_high (op ++ regField x) (regField y) 0).trans
      ((extract_append_low op (regField x) 0 (by decide)).trans (extract_whole _)))

@[simp] theorem fieldX_packXYN (op : BitVec 4) (x y : Reg) (n : BitVec 4) : fieldX (packXYN op x y n) = x :=
  congrArg BitVec.toFin (extract_x_packXYN op x y n)

theorem extract_y_packXYN (op : BitVec 4) (x y : Reg) (n : BitVec 4) :
    (packXYN op x y n).extractLsb' 4 4 = regField y :=
  (extract_append_high (op ++ regField x ++ regField y) n 0).trans
    ((extract_append_low (op ++ regField x) (regField y) 0 (by decide)).trans (extract_whole _))

@[simp] theorem fieldY_packXYN (op : BitVec 4) (x y : Reg) (n : BitVec 4) : fieldY (packXYN op x y n) = y :=
  congrArg BitVec.toFin (extract_y_packXYN op x y n)

@[simp] theorem fieldN_packXYN (op : BitVec 4) (x y : Reg) (n : BitVec 4) : fieldN (packXYN op x y n) = n :=
  (extract_append_low (op ++ regField x ++ regField y) n 0 (by decide)).trans (extract_whole n)

/-! ### A word is its fields -/

theorem packNNN_fields (w : Word) : packNNN (fieldOp w) (fieldNNN w) = w := by
  simp only [packNNN, fieldOp, fieldNNN]
  ext i hi
  simp only [BitVec.getElem_append, BitVec.getElem_extractLsb']
  split
  · simp [BitVec.getLsbD_eq_getElem hi]
  · simp [BitVec.getLsbD_eq_getElem hi, show 12 + (i - 12) = i by omega]

theorem packXKK_fields (w : Word) : packXKK (fieldOp w) (fieldX w) (fieldKK w) = w := by
  simp only [packXKK, fieldOp, fieldX, fieldKK, regField_ofToFin]
  ext i hi
  simp only [BitVec.getElem_append, BitVec.getElem_extractLsb']
  split
  · simp [BitVec.getLsbD_eq_getElem hi]
  · split
    · simp [BitVec.getLsbD_eq_getElem hi, show 8 + (i - 8) = i by omega]
    · simp [BitVec.getLsbD_eq_getElem hi, show 12 + (i - 8 - 4) = i by omega]

theorem packXYN_fields (w : Word) : packXYN (fieldOp w) (fieldX w) (fieldY w) (fieldN w) = w := by
  simp only [packXYN, fieldOp, fieldX, fieldY, fieldN, regField_ofToFin]
  ext i hi
  simp only [BitVec.getElem_append, BitVec.getElem_extractLsb']
  split
  · simp [BitVec.getLsbD_eq_getElem hi]
  · split
    · simp [BitVec.getLsbD_eq_getElem hi, show 4 + (i - 4) = i by omega]
    · split
      · simp [BitVec.getLsbD_eq_getElem hi, show 8 + (i - 4 - 4) = i by omega]
      · simp [BitVec.getLsbD_eq_getElem hi, show 12 + (i - 4 - 4 - 4) = i by omega]

/-! ### Bytes -/

/-- The two bytes of a word make the word again (20_memory.md R75). -/
theorem wordOfBytes_bytes (w : Word) : wordOfBytes (w.extractLsb' 8 8) (w.extractLsb' 0 8) = w := by
  simp only [wordOfBytes]
  ext i hi
  simp only [BitVec.getElem_append, BitVec.getElem_extractLsb']
  split
  · simp [BitVec.getLsbD_eq_getElem hi]
  · simp [BitVec.getLsbD_eq_getElem hi, show 8 + (i - 8) = i by omega]

/-- A decode error names the word (60_exceptions.md R331). -/
theorem decode_error_word {w : Word} {e : DecodeError} (h : decode w = .error e) : e = .illegalWord w := by
  unfold decode decodeGroup8 decodeGroupF at h
  repeat' split at h
  all_goals first | (cases h; rfl) | cases h

end Sys2Proof
end

