-- ==== Sys2Proof/Laws/State.lean ====
section
/-! SUPPORT. What each named update does to each field of the state, one lemma per field, so that no proof unfolds a
record update; and the reads that an update does not disturb. -/

namespace Sys2Proof.Machine

/-! ### `State.setV` -/

@[simp] theorem State.setV_v (s : State) (x : Reg) (b : Byte) : (s.setV x b).v = s.v.set x.val b := rfl
@[simp] theorem State.setV_pc (s : State) (x : Reg) (b : Byte) : (s.setV x b).pc = s.pc := rfl
@[simp] theorem State.setV_i (s : State) (x : Reg) (b : Byte) : (s.setV x b).i = s.i := rfl
@[simp] theorem State.setV_sp (s : State) (x : Reg) (b : Byte) : (s.setV x b).sp = s.sp := rfl
@[simp] theorem State.setV_stack (s : State) (x : Reg) (b : Byte) : (s.setV x b).stack = s.stack := rfl
@[simp] theorem State.setV_dt (s : State) (x : Reg) (b : Byte) : (s.setV x b).dt = s.dt := rfl
@[simp] theorem State.setV_st (s : State) (x : Reg) (b : Byte) : (s.setV x b).st = s.st := rfl
@[simp] theorem State.setV_mem (s : State) (x : Reg) (b : Byte) : (s.setV x b).mem = s.mem := rfl
@[simp] theorem State.setV_fb (s : State) (x : Reg) (b : Byte) : (s.setV x b).fb = s.fb := rfl
@[simp] theorem State.setV_key (s : State) (x : Reg) (b : Byte) : (s.setV x b).key = s.key := rfl
@[simp] theorem State.setV_notify (s : State) (x : Reg) (b : Byte) : (s.setV x b).notify = s.notify := rfl
@[simp] theorem State.setV_execState (s : State) (x : Reg) (b : Byte) : (s.setV x b).execState = s.execState := rfl
@[simp] theorem State.setV_draws (s : State) (x : Reg) (b : Byte) : (s.setV x b).draws = s.draws := rfl
@[simp] theorem State.setV_pending (s : State) (x : Reg) (b : Byte) : (s.setV x b).pending = s.pending := rfl
@[simp] theorem State.setV_emitted (s : State) (x : Reg) (b : Byte) : (s.setV x b).emitted = s.emitted := rfl
@[simp] theorem State.setV_memRead (s : State) (x : Reg) (b : Byte) (addr : Nat) : (s.setV x b).memRead addr = s.memRead addr := rfl
@[simp] theorem State.setV_memReadList (s : State) (x : Reg) (b : Byte) (addr n : Nat) : (s.setV x b).memReadList addr n = s.memReadList addr n := rfl
@[simp] theorem State.setV_fetchWord (s : State) (x : Reg) (b : Byte) : (s.setV x b).fetchWord = s.fetchWord := rfl

/-! ### `State.setPC` -/

@[simp] theorem State.setPC_v (s : State) (a : Word) : (s.setPC a).v = s.v := rfl
@[simp] theorem State.setPC_pc (s : State) (a : Word) : (s.setPC a).pc = a := rfl
@[simp] theorem State.setPC_i (s : State) (a : Word) : (s.setPC a).i = s.i := rfl
@[simp] theorem State.setPC_sp (s : State) (a : Word) : (s.setPC a).sp = s.sp := rfl
@[simp] theorem State.setPC_stack (s : State) (a : Word) : (s.setPC a).stack = s.stack := rfl
@[simp] theorem State.setPC_dt (s : State) (a : Word) : (s.setPC a).dt = s.dt := rfl
@[simp] theorem State.setPC_st (s : State) (a : Word) : (s.setPC a).st = s.st := rfl
@[simp] theorem State.setPC_mem (s : State) (a : Word) : (s.setPC a).mem = s.mem := rfl
@[simp] theorem State.setPC_fb (s : State) (a : Word) : (s.setPC a).fb = s.fb := rfl
@[simp] theorem State.setPC_key (s : State) (a : Word) : (s.setPC a).key = s.key := rfl
@[simp] theorem State.setPC_notify (s : State) (a : Word) : (s.setPC a).notify = s.notify := rfl
@[simp] theorem State.setPC_execState (s : State) (a : Word) : (s.setPC a).execState = s.execState := rfl
@[simp] theorem State.setPC_draws (s : State) (a : Word) : (s.setPC a).draws = s.draws := rfl
@[simp] theorem State.setPC_pending (s : State) (a : Word) : (s.setPC a).pending = s.pending := rfl
@[simp] theorem State.setPC_emitted (s : State) (a : Word) : (s.setPC a).emitted = s.emitted := rfl
@[simp] theorem State.setPC_memRead (s : State) (a : Word) (addr : Nat) : (s.setPC a).memRead addr = s.memRead addr := rfl
@[simp] theorem State.setPC_memReadList (s : State) (a : Word) (addr n : Nat) : (s.setPC a).memReadList addr n = s.memReadList addr n := rfl
@[simp] theorem State.setPC_getV (s : State) (a : Word) (r : Reg) : (s.setPC a).getV r = s.getV r := rfl

/-! ### `State.setI` -/

@[simp] theorem State.setI_v (s : State) (a : Word) : (s.setI a).v = s.v := rfl
@[simp] theorem State.setI_pc (s : State) (a : Word) : (s.setI a).pc = s.pc := rfl
@[simp] theorem State.setI_i (s : State) (a : Word) : (s.setI a).i = a := rfl
@[simp] theorem State.setI_sp (s : State) (a : Word) : (s.setI a).sp = s.sp := rfl
@[simp] theorem State.setI_stack (s : State) (a : Word) : (s.setI a).stack = s.stack := rfl
@[simp] theorem State.setI_dt (s : State) (a : Word) : (s.setI a).dt = s.dt := rfl
@[simp] theorem State.setI_st (s : State) (a : Word) : (s.setI a).st = s.st := rfl
@[simp] theorem State.setI_mem (s : State) (a : Word) : (s.setI a).mem = s.mem := rfl
@[simp] theorem State.setI_fb (s : State) (a : Word) : (s.setI a).fb = s.fb := rfl
@[simp] theorem State.setI_key (s : State) (a : Word) : (s.setI a).key = s.key := rfl
@[simp] theorem State.setI_notify (s : State) (a : Word) : (s.setI a).notify = s.notify := rfl
@[simp] theorem State.setI_execState (s : State) (a : Word) : (s.setI a).execState = s.execState := rfl
@[simp] theorem State.setI_draws (s : State) (a : Word) : (s.setI a).draws = s.draws := rfl
@[simp] theorem State.setI_pending (s : State) (a : Word) : (s.setI a).pending = s.pending := rfl
@[simp] theorem State.setI_emitted (s : State) (a : Word) : (s.setI a).emitted = s.emitted := rfl
@[simp] theorem State.setI_memRead (s : State) (a : Word) (addr : Nat) : (s.setI a).memRead addr = s.memRead addr := rfl
@[simp] theorem State.setI_memReadList (s : State) (a : Word) (addr n : Nat) : (s.setI a).memReadList addr n = s.memReadList addr n := rfl
@[simp] theorem State.setI_getV (s : State) (a : Word) (r : Reg) : (s.setI a).getV r = s.getV r := rfl
@[simp] theorem State.setI_fetchWord (s : State) (a : Word) : (s.setI a).fetchWord = s.fetchWord := rfl

/-! ### `State.nextPC` -/

@[simp] theorem State.nextPC_v (s : State) : (s.nextPC).v = s.v := rfl
@[simp] theorem State.nextPC_pc (s : State) : (s.nextPC).pc = s.pc + 2 := rfl
@[simp] theorem State.nextPC_i (s : State) : (s.nextPC).i = s.i := rfl
@[simp] theorem State.nextPC_sp (s : State) : (s.nextPC).sp = s.sp := rfl
@[simp] theorem State.nextPC_stack (s : State) : (s.nextPC).stack = s.stack := rfl
@[simp] theorem State.nextPC_dt (s : State) : (s.nextPC).dt = s.dt := rfl
@[simp] theorem State.nextPC_st (s : State) : (s.nextPC).st = s.st := rfl
@[simp] theorem State.nextPC_mem (s : State) : (s.nextPC).mem = s.mem := rfl
@[simp] theorem State.nextPC_fb (s : State) : (s.nextPC).fb = s.fb := rfl
@[simp] theorem State.nextPC_key (s : State) : (s.nextPC).key = s.key := rfl
@[simp] theorem State.nextPC_notify (s : State) : (s.nextPC).notify = s.notify := rfl
@[simp] theorem State.nextPC_execState (s : State) : (s.nextPC).execState = s.execState := rfl
@[simp] theorem State.nextPC_draws (s : State) : (s.nextPC).draws = s.draws := rfl
@[simp] theorem State.nextPC_pending (s : State) : (s.nextPC).pending = s.pending := rfl
@[simp] theorem State.nextPC_emitted (s : State) : (s.nextPC).emitted = s.emitted := rfl
@[simp] theorem State.nextPC_memRead (s : State) (addr : Nat) : (s.nextPC).memRead addr = s.memRead addr := rfl
@[simp] theorem State.nextPC_memReadList (s : State) (addr n : Nat) : (s.nextPC).memReadList addr n = s.memReadList addr n := rfl
@[simp] theorem State.nextPC_getV (s : State) (r : Reg) : (s.nextPC).getV r = s.getV r := rfl

/-! ### `State.skipIf` -/

@[simp] theorem State.skipIf_v (s : State) (c : Bool) : (s.skipIf c).v = s.v := by cases c <;> rfl
@[simp] theorem State.skipIf_pc (s : State) (c : Bool) : (s.skipIf c).pc = if c then s.pc + 2 else s.pc := by cases c <;> rfl
@[simp] theorem State.skipIf_i (s : State) (c : Bool) : (s.skipIf c).i = s.i := by cases c <;> rfl
@[simp] theorem State.skipIf_sp (s : State) (c : Bool) : (s.skipIf c).sp = s.sp := by cases c <;> rfl
@[simp] theorem State.skipIf_stack (s : State) (c : Bool) : (s.skipIf c).stack = s.stack := by cases c <;> rfl
@[simp] theorem State.skipIf_dt (s : State) (c : Bool) : (s.skipIf c).dt = s.dt := by cases c <;> rfl
@[simp] theorem State.skipIf_st (s : State) (c : Bool) : (s.skipIf c).st = s.st := by cases c <;> rfl
@[simp] theorem State.skipIf_mem (s : State) (c : Bool) : (s.skipIf c).mem = s.mem := by cases c <;> rfl
@[simp] theorem State.skipIf_fb (s : State) (c : Bool) : (s.skipIf c).fb = s.fb := by cases c <;> rfl
@[simp] theorem State.skipIf_key (s : State) (c : Bool) : (s.skipIf c).key = s.key := by cases c <;> rfl
@[simp] theorem State.skipIf_notify (s : State) (c : Bool) : (s.skipIf c).notify = s.notify := by cases c <;> rfl
@[simp] theorem State.skipIf_execState (s : State) (c : Bool) : (s.skipIf c).execState = s.execState := by cases c <;> rfl
@[simp] theorem State.skipIf_draws (s : State) (c : Bool) : (s.skipIf c).draws = s.draws := by cases c <;> rfl
@[simp] theorem State.skipIf_pending (s : State) (c : Bool) : (s.skipIf c).pending = s.pending := by cases c <;> rfl
@[simp] theorem State.skipIf_emitted (s : State) (c : Bool) : (s.skipIf c).emitted = s.emitted := by cases c <;> rfl
@[simp] theorem State.skipIf_memRead (s : State) (c : Bool) (addr : Nat) : (s.skipIf c).memRead addr = s.memRead addr := by cases c <;> rfl
@[simp] theorem State.skipIf_memReadList (s : State) (c : Bool) (addr n : Nat) : (s.skipIf c).memReadList addr n = s.memReadList addr n := by cases c <;> rfl
@[simp] theorem State.skipIf_getV (s : State) (c : Bool) (r : Reg) : (s.skipIf c).getV r = s.getV r := by cases c <;> rfl

/-! ### `State.emit` -/

@[simp] theorem State.emit_v (s : State) (e : RenderEvent) : (s.emit e).v = s.v := rfl
@[simp] theorem State.emit_pc (s : State) (e : RenderEvent) : (s.emit e).pc = s.pc := rfl
@[simp] theorem State.emit_i (s : State) (e : RenderEvent) : (s.emit e).i = s.i := rfl
@[simp] theorem State.emit_sp (s : State) (e : RenderEvent) : (s.emit e).sp = s.sp := rfl
@[simp] theorem State.emit_stack (s : State) (e : RenderEvent) : (s.emit e).stack = s.stack := rfl
@[simp] theorem State.emit_dt (s : State) (e : RenderEvent) : (s.emit e).dt = s.dt := rfl
@[simp] theorem State.emit_st (s : State) (e : RenderEvent) : (s.emit e).st = s.st := rfl
@[simp] theorem State.emit_mem (s : State) (e : RenderEvent) : (s.emit e).mem = s.mem := rfl
@[simp] theorem State.emit_fb (s : State) (e : RenderEvent) : (s.emit e).fb = s.fb := rfl
@[simp] theorem State.emit_key (s : State) (e : RenderEvent) : (s.emit e).key = s.key := rfl
@[simp] theorem State.emit_notify (s : State) (e : RenderEvent) : (s.emit e).notify = s.notify := rfl
@[simp] theorem State.emit_execState (s : State) (e : RenderEvent) : (s.emit e).execState = s.execState := rfl
@[simp] theorem State.emit_draws (s : State) (e : RenderEvent) : (s.emit e).draws = s.draws := rfl
@[simp] theorem State.emit_pending (s : State) (e : RenderEvent) : (s.emit e).pending = s.pending := rfl
@[simp] theorem State.emit_emitted (s : State) (e : RenderEvent) : (s.emit e).emitted = s.emitted ++ [e] := rfl
@[simp] theorem State.emit_memRead (s : State) (e : RenderEvent) (addr : Nat) : (s.emit e).memRead addr = s.memRead addr := rfl
@[simp] theorem State.emit_memReadList (s : State) (e : RenderEvent) (addr n : Nat) : (s.emit e).memReadList addr n = s.memReadList addr n := rfl
@[simp] theorem State.emit_getV (s : State) (e : RenderEvent) (r : Reg) : (s.emit e).getV r = s.getV r := rfl
@[simp] theorem State.emit_fetchWord (s : State) (e : RenderEvent) : (s.emit e).fetchWord = s.fetchWord := rfl

/-! ### `State.poke` -/

@[simp] theorem State.poke_v (s : State) (a : Nat) (b : Byte) : (s.poke a b).v = s.v := rfl
@[simp] theorem State.poke_pc (s : State) (a : Nat) (b : Byte) : (s.poke a b).pc = s.pc := rfl
@[simp] theorem State.poke_i (s : State) (a : Nat) (b : Byte) : (s.poke a b).i = s.i := rfl
@[simp] theorem State.poke_sp (s : State) (a : Nat) (b : Byte) : (s.poke a b).sp = s.sp := rfl
@[simp] theorem State.poke_stack (s : State) (a : Nat) (b : Byte) : (s.poke a b).stack = s.stack := rfl
@[simp] theorem State.poke_dt (s : State) (a : Nat) (b : Byte) : (s.poke a b).dt = s.dt := rfl
@[simp] theorem State.poke_st (s : State) (a : Nat) (b : Byte) : (s.poke a b).st = s.st := rfl
@[simp] theorem State.poke_mem (s : State) (a : Nat) (b : Byte) : (s.poke a b).mem = s.mem.write (cellOf a) b := rfl
@[simp] theorem State.poke_fb (s : State) (a : Nat) (b : Byte) : (s.poke a b).fb = s.fb := rfl
@[simp] theorem State.poke_key (s : State) (a : Nat) (b : Byte) : (s.poke a b).key = s.key := rfl
@[simp] theorem State.poke_notify (s : State) (a : Nat) (b : Byte) : (s.poke a b).notify = s.notify := rfl
@[simp] theorem State.poke_execState (s : State) (a : Nat) (b : Byte) : (s.poke a b).execState = s.execState := rfl
@[simp] theorem State.poke_draws (s : State) (a : Nat) (b : Byte) : (s.poke a b).draws = s.draws := rfl
@[simp] theorem State.poke_pending (s : State) (a : Nat) (b : Byte) : (s.poke a b).pending = s.pending := rfl
@[simp] theorem State.poke_emitted (s : State) (a : Nat) (b : Byte) : (s.poke a b).emitted = s.emitted := rfl
@[simp] theorem State.poke_getV (s : State) (a : Nat) (b : Byte) (r : Reg) : (s.poke a b).getV r = s.getV r := rfl

/-! ### `State.clearFB` -/

@[simp] theorem State.clearFB_v (s : State) : (s.clearFB).v = s.v := rfl
@[simp] theorem State.clearFB_pc (s : State) : (s.clearFB).pc = s.pc := rfl
@[simp] theorem State.clearFB_i (s : State) : (s.clearFB).i = s.i := rfl
@[simp] theorem State.clearFB_sp (s : State) : (s.clearFB).sp = s.sp := rfl
@[simp] theorem State.clearFB_stack (s : State) : (s.clearFB).stack = s.stack := rfl
@[simp] theorem State.clearFB_dt (s : State) : (s.clearFB).dt = s.dt := rfl
@[simp] theorem State.clearFB_st (s : State) : (s.clearFB).st = s.st := rfl
@[simp] theorem State.clearFB_mem (s : State) : (s.clearFB).mem = s.mem := rfl
@[simp] theorem State.clearFB_fb (s : State) : (s.clearFB).fb = Framebuffer.clear := rfl
@[simp] theorem State.clearFB_key (s : State) : (s.clearFB).key = s.key := rfl
@[simp] theorem State.clearFB_notify (s : State) : (s.clearFB).notify = s.notify := rfl
@[simp] theorem State.clearFB_execState (s : State) : (s.clearFB).execState = s.execState := rfl
@[simp] theorem State.clearFB_draws (s : State) : (s.clearFB).draws = s.draws := rfl
@[simp] theorem State.clearFB_pending (s : State) : (s.clearFB).pending = s.pending := rfl
@[simp] theorem State.clearFB_emitted (s : State) : (s.clearFB).emitted = s.emitted := rfl
@[simp] theorem State.clearFB_memRead (s : State) (addr : Nat) : (s.clearFB).memRead addr = s.memRead addr := rfl
@[simp] theorem State.clearFB_memReadList (s : State) (addr n : Nat) : (s.clearFB).memReadList addr n = s.memReadList addr n := rfl
@[simp] theorem State.clearFB_getV (s : State) (r : Reg) : (s.clearFB).getV r = s.getV r := rfl
@[simp] theorem State.clearFB_fetchWord (s : State) : (s.clearFB).fetchWord = s.fetchWord := rfl

/-! ### `State.writeWithFlag` -/

@[simp] theorem State.writeWithFlag_pc (s : State) (o : FlagOrder) (x : Reg) (rf : Byte × Bool) : (s.writeWithFlag o x rf).pc = s.pc := by cases o <;> rfl
@[simp] theorem State.writeWithFlag_i (s : State) (o : FlagOrder) (x : Reg) (rf : Byte × Bool) : (s.writeWithFlag o x rf).i = s.i := by cases o <;> rfl
@[simp] theorem State.writeWithFlag_sp (s : State) (o : FlagOrder) (x : Reg) (rf : Byte × Bool) : (s.writeWithFlag o x rf).sp = s.sp := by cases o <;> rfl
@[simp] theorem State.writeWithFlag_stack (s : State) (o : FlagOrder) (x : Reg) (rf : Byte × Bool) : (s.writeWithFlag o x rf).stack = s.stack := by cases o <;> rfl
@[simp] theorem State.writeWithFlag_dt (s : State) (o : FlagOrder) (x : Reg) (rf : Byte × Bool) : (s.writeWithFlag o x rf).dt = s.dt := by cases o <;> rfl
@[simp] theorem State.writeWithFlag_st (s : State) (o : FlagOrder) (x : Reg) (rf : Byte × Bool) : (s.writeWithFlag o x rf).st = s.st := by cases o <;> rfl
@[simp] theorem State.writeWithFlag_mem (s : State) (o : FlagOrder) (x : Reg) (rf : Byte × Bool) : (s.writeWithFlag o x rf).mem = s.mem := by cases o <;> rfl
@[simp] theorem State.writeWithFlag_fb (s : State) (o : FlagOrder) (x : Reg) (rf : Byte × Bool) : (s.writeWithFlag o x rf).fb = s.fb := by cases o <;> rfl
@[simp] theorem State.writeWithFlag_key (s : State) (o : FlagOrder) (x : Reg) (rf : Byte × Bool) : (s.writeWithFlag o x rf).key = s.key := by cases o <;> rfl
@[simp] theorem State.writeWithFlag_notify (s : State) (o : FlagOrder) (x : Reg) (rf : Byte × Bool) : (s.writeWithFlag o x rf).notify = s.notify := by cases o <;> rfl
@[simp] theorem State.writeWithFlag_execState (s : State) (o : FlagOrder) (x : Reg) (rf : Byte × Bool) : (s.writeWithFlag o x rf).execState = s.execState := by cases o <;> rfl
@[simp] theorem State.writeWithFlag_draws (s : State) (o : FlagOrder) (x : Reg) (rf : Byte × Bool) : (s.writeWithFlag o x rf).draws = s.draws := by cases o <;> rfl
@[simp] theorem State.writeWithFlag_pending (s : State) (o : FlagOrder) (x : Reg) (rf : Byte × Bool) : (s.writeWithFlag o x rf).pending = s.pending := by cases o <;> rfl
@[simp] theorem State.writeWithFlag_emitted (s : State) (o : FlagOrder) (x : Reg) (rf : Byte × Bool) : (s.writeWithFlag o x rf).emitted = s.emitted := by cases o <;> rfl
@[simp] theorem State.writeWithFlag_memRead (s : State) (o : FlagOrder) (x : Reg) (rf : Byte × Bool) (addr : Nat) : (s.writeWithFlag o x rf).memRead addr = s.memRead addr := by cases o <;> rfl
@[simp] theorem State.writeWithFlag_memReadList (s : State) (o : FlagOrder) (x : Reg) (rf : Byte × Bool) (addr n : Nat) : (s.writeWithFlag o x rf).memReadList addr n = s.memReadList addr n := by cases o <;> rfl
@[simp] theorem State.writeWithFlag_fetchWord (s : State) (o : FlagOrder) (x : Reg) (rf : Byte × Bool) : (s.writeWithFlag o x rf).fetchWord = s.fetchWord := by cases o <;> rfl

/-! ### `State.setExec` -/

@[simp] theorem State.setExec_v (s : State) (e : ExecState) : (s.setExec e).v = s.v := rfl
@[simp] theorem State.setExec_pc (s : State) (e : ExecState) : (s.setExec e).pc = s.pc := rfl
@[simp] theorem State.setExec_i (s : State) (e : ExecState) : (s.setExec e).i = s.i := rfl
@[simp] theorem State.setExec_sp (s : State) (e : ExecState) : (s.setExec e).sp = s.sp := rfl
@[simp] theorem State.setExec_stack (s : State) (e : ExecState) : (s.setExec e).stack = s.stack := rfl
@[simp] theorem State.setExec_dt (s : State) (e : ExecState) : (s.setExec e).dt = s.dt := rfl
@[simp] theorem State.setExec_st (s : State) (e : ExecState) : (s.setExec e).st = s.st := rfl
@[simp] theorem State.setExec_mem (s : State) (e : ExecState) : (s.setExec e).mem = s.mem := rfl
@[simp] theorem State.setExec_fb (s : State) (e : ExecState) : (s.setExec e).fb = s.fb := rfl
@[simp] theorem State.setExec_key (s : State) (e : ExecState) : (s.setExec e).key = s.key := rfl
@[simp] theorem State.setExec_notify (s : State) (e : ExecState) : (s.setExec e).notify = s.notify := rfl
@[simp] theorem State.setExec_execState (s : State) (e : ExecState) : (s.setExec e).execState = e := rfl
@[simp] theorem State.setExec_draws (s : State) (e : ExecState) : (s.setExec e).draws = s.draws := rfl
@[simp] theorem State.setExec_pending (s : State) (e : ExecState) : (s.setExec e).pending = s.pending := rfl
@[simp] theorem State.setExec_emitted (s : State) (e : ExecState) : (s.setExec e).emitted = s.emitted := rfl
@[simp] theorem State.setExec_memRead (s : State) (e : ExecState) (addr : Nat) : (s.setExec e).memRead addr = s.memRead addr := rfl
@[simp] theorem State.setExec_memReadList (s : State) (e : ExecState) (addr n : Nat) : (s.setExec e).memReadList addr n = s.memReadList addr n := rfl
@[simp] theorem State.setExec_getV (s : State) (e : ExecState) (r : Reg) : (s.setExec e).getV r = s.getV r := rfl
@[simp] theorem State.setExec_fetchWord (s : State) (e : ExecState) : (s.setExec e).fetchWord = s.fetchWord := rfl

/-! ### `State.takeFault` -/

@[simp] theorem State.takeFault_v (s : State) (f : Fault) : (s.takeFault f).v = s.v := rfl
@[simp] theorem State.takeFault_pc (s : State) (f : Fault) : (s.takeFault f).pc = s.pc := rfl
@[simp] theorem State.takeFault_i (s : State) (f : Fault) : (s.takeFault f).i = s.i := rfl
@[simp] theorem State.takeFault_sp (s : State) (f : Fault) : (s.takeFault f).sp = s.sp := rfl
@[simp] theorem State.takeFault_stack (s : State) (f : Fault) : (s.takeFault f).stack = s.stack := rfl
@[simp] theorem State.takeFault_dt (s : State) (f : Fault) : (s.takeFault f).dt = s.dt := rfl
@[simp] theorem State.takeFault_st (s : State) (f : Fault) : (s.takeFault f).st = s.st := rfl
@[simp] theorem State.takeFault_mem (s : State) (f : Fault) : (s.takeFault f).mem = s.mem := rfl
@[simp] theorem State.takeFault_fb (s : State) (f : Fault) : (s.takeFault f).fb = s.fb := rfl
@[simp] theorem State.takeFault_key (s : State) (f : Fault) : (s.takeFault f).key = s.key := rfl
@[simp] theorem State.takeFault_notify (s : State) (f : Fault) : (s.takeFault f).notify = s.notify := rfl
@[simp] theorem State.takeFault_execState (s : State) (f : Fault) : (s.takeFault f).execState = ExecState.faulted ⟨f, s.pc, s.fetchWord⟩ := rfl
@[simp] theorem State.takeFault_draws (s : State) (f : Fault) : (s.takeFault f).draws = s.draws := rfl
@[simp] theorem State.takeFault_pending (s : State) (f : Fault) : (s.takeFault f).pending = s.pending := rfl
@[simp] theorem State.takeFault_emitted (s : State) (f : Fault) : (s.takeFault f).emitted = s.emitted := rfl
@[simp] theorem State.takeFault_memRead (s : State) (f : Fault) (addr : Nat) : (s.takeFault f).memRead addr = s.memRead addr := rfl
@[simp] theorem State.takeFault_memReadList (s : State) (f : Fault) (addr n : Nat) : (s.takeFault f).memReadList addr n = s.memReadList addr n := rfl
@[simp] theorem State.takeFault_getV (s : State) (f : Fault) (r : Reg) : (s.takeFault f).getV r = s.getV r := rfl
@[simp] theorem State.takeFault_fetchWord (s : State) (f : Fault) : (s.takeFault f).fetchWord = s.fetchWord := rfl

/-! ### `State.dropPending` -/

@[simp] theorem State.dropPending_v (s : State) : (s.dropPending).v = s.v := rfl
@[simp] theorem State.dropPending_pc (s : State) : (s.dropPending).pc = s.pc := rfl
@[simp] theorem State.dropPending_i (s : State) : (s.dropPending).i = s.i := rfl
@[simp] theorem State.dropPending_sp (s : State) : (s.dropPending).sp = s.sp := rfl
@[simp] theorem State.dropPending_stack (s : State) : (s.dropPending).stack = s.stack := rfl
@[simp] theorem State.dropPending_dt (s : State) : (s.dropPending).dt = s.dt := rfl
@[simp] theorem State.dropPending_st (s : State) : (s.dropPending).st = s.st := rfl
@[simp] theorem State.dropPending_mem (s : State) : (s.dropPending).mem = s.mem := rfl
@[simp] theorem State.dropPending_fb (s : State) : (s.dropPending).fb = s.fb := rfl
@[simp] theorem State.dropPending_key (s : State) : (s.dropPending).key = s.key := rfl
@[simp] theorem State.dropPending_notify (s : State) : (s.dropPending).notify = s.notify := rfl
@[simp] theorem State.dropPending_execState (s : State) : (s.dropPending).execState = s.execState := rfl
@[simp] theorem State.dropPending_draws (s : State) : (s.dropPending).draws = s.draws := rfl
@[simp] theorem State.dropPending_pending (s : State) : (s.dropPending).pending = s.pending.tail := rfl
@[simp] theorem State.dropPending_emitted (s : State) : (s.dropPending).emitted = s.emitted := rfl
@[simp] theorem State.dropPending_memRead (s : State) (addr : Nat) : (s.dropPending).memRead addr = s.memRead addr := rfl
@[simp] theorem State.dropPending_memReadList (s : State) (addr n : Nat) : (s.dropPending).memReadList addr n = s.memReadList addr n := rfl
@[simp] theorem State.dropPending_getV (s : State) (r : Reg) : (s.dropPending).getV r = s.getV r := rfl
@[simp] theorem State.dropPending_fetchWord (s : State) : (s.dropPending).fetchWord = s.fetchWord := rfl

/-! ### `State.consumeKey` -/

@[simp] theorem State.consumeKey_v (s : State) (x : Reg) (k : Key) : (s.consumeKey x k).v = s.v.set x.val (keyByte k) := rfl
@[simp] theorem State.consumeKey_pc (s : State) (x : Reg) (k : Key) : (s.consumeKey x k).pc = s.pc := rfl
@[simp] theorem State.consumeKey_i (s : State) (x : Reg) (k : Key) : (s.consumeKey x k).i = s.i := rfl
@[simp] theorem State.consumeKey_sp (s : State) (x : Reg) (k : Key) : (s.consumeKey x k).sp = s.sp := rfl
@[simp] theorem State.consumeKey_stack (s : State) (x : Reg) (k : Key) : (s.consumeKey x k).stack = s.stack := rfl
@[simp] theorem State.consumeKey_dt (s : State) (x : Reg) (k : Key) : (s.consumeKey x k).dt = s.dt := rfl
@[simp] theorem State.consumeKey_st (s : State) (x : Reg) (k : Key) : (s.consumeKey x k).st = s.st := rfl
@[simp] theorem State.consumeKey_mem (s : State) (x : Reg) (k : Key) : (s.consumeKey x k).mem = s.mem := rfl
@[simp] theorem State.consumeKey_fb (s : State) (x : Reg) (k : Key) : (s.consumeKey x k).fb = s.fb := rfl
@[simp] theorem State.consumeKey_key (s : State) (x : Reg) (k : Key) : (s.consumeKey x k).key = s.key := rfl
@[simp] theorem State.consumeKey_notify (s : State) (x : Reg) (k : Key) : (s.consumeKey x k).notify = none := rfl
@[simp] theorem State.consumeKey_execState (s : State) (x : Reg) (k : Key) : (s.consumeKey x k).execState = s.execState := rfl
@[simp] theorem State.consumeKey_draws (s : State) (x : Reg) (k : Key) : (s.consumeKey x k).draws = s.draws := rfl
@[simp] theorem State.consumeKey_pending (s : State) (x : Reg) (k : Key) : (s.consumeKey x k).pending = s.pending := rfl
@[simp] theorem State.consumeKey_emitted (s : State) (x : Reg) (k : Key) : (s.consumeKey x k).emitted = s.emitted := rfl
@[simp] theorem State.consumeKey_memRead (s : State) (x : Reg) (k : Key) (addr : Nat) : (s.consumeKey x k).memRead addr = s.memRead addr := rfl
@[simp] theorem State.consumeKey_memReadList (s : State) (x : Reg) (k : Key) (addr n : Nat) : (s.consumeKey x k).memReadList addr n = s.memReadList addr n := rfl
@[simp] theorem State.consumeKey_fetchWord (s : State) (x : Reg) (k : Key) : (s.consumeKey x k).fetchWord = s.fetchWord := rfl

/-! ### `State.drawByte` -/

@[simp] theorem State.drawByte_v (s : State) : (s.drawByte.2).v = s.v := rfl
@[simp] theorem State.drawByte_pc (s : State) : (s.drawByte.2).pc = s.pc := rfl
@[simp] theorem State.drawByte_i (s : State) : (s.drawByte.2).i = s.i := rfl
@[simp] theorem State.drawByte_sp (s : State) : (s.drawByte.2).sp = s.sp := rfl
@[simp] theorem State.drawByte_stack (s : State) : (s.drawByte.2).stack = s.stack := rfl
@[simp] theorem State.drawByte_dt (s : State) : (s.drawByte.2).dt = s.dt := rfl
@[simp] theorem State.drawByte_st (s : State) : (s.drawByte.2).st = s.st := rfl
@[simp] theorem State.drawByte_mem (s : State) : (s.drawByte.2).mem = s.mem := rfl
@[simp] theorem State.drawByte_fb (s : State) : (s.drawByte.2).fb = s.fb := rfl
@[simp] theorem State.drawByte_key (s : State) : (s.drawByte.2).key = s.key := rfl
@[simp] theorem State.drawByte_notify (s : State) : (s.drawByte.2).notify = s.notify := rfl
@[simp] theorem State.drawByte_execState (s : State) : (s.drawByte.2).execState = s.execState := rfl
@[simp] theorem State.drawByte_draws (s : State) : (s.drawByte.2).draws = s.draws + 1 := rfl
@[simp] theorem State.drawByte_pending (s : State) : (s.drawByte.2).pending = s.pending := rfl
@[simp] theorem State.drawByte_emitted (s : State) : (s.drawByte.2).emitted = s.emitted := rfl
@[simp] theorem State.drawByte_memRead (s : State) (addr : Nat) : (s.drawByte.2).memRead addr = s.memRead addr := rfl
@[simp] theorem State.drawByte_memReadList (s : State) (addr n : Nat) : (s.drawByte.2).memReadList addr n = s.memReadList addr n := rfl
@[simp] theorem State.drawByte_getV (s : State) (r : Reg) : (s.drawByte.2).getV r = s.getV r := rfl
@[simp] theorem State.drawByte_fetchWord (s : State) : (s.drawByte.2).fetchWord = s.fetchWord := rfl

/-! ### Registers -/

theorem State.getV_setV (s : State) (x y : Reg) (b : Byte) :
    (s.setV x b).getV y = if y = x then b else s.getV y := by
  simp only [State.getV, State.setV, Vector.getElem_set, Fin.ext_iff, eq_comm]

@[simp] theorem State.getV_setV_self (s : State) (x : Reg) (b : Byte) : (s.setV x b).getV x = b := by
  simp [State.getV_setV]

theorem State.getV_setV_ne (s : State) {x y : Reg} (b : Byte) (h : y ≠ x) : (s.setV x b).getV y = s.getV y := by
  simp [State.getV_setV, h]

/-- Two register files that agree register by register are equal. -/
theorem State.v_ext {s t : State} (h : ∀ r, s.getV r = t.getV r) : s.v = t.v :=
  Vector.ext fun n hn => h ⟨n, hn⟩

/-- `FLAG_LAST`: VF ends as the flag, whatever x is (43_register_arithmetic.md R201). -/
theorem State.getV_writeWithFlag_flagLast (s : State) (x y : Reg) (rf : Byte × Bool) :
    (s.writeWithFlag .flagLast x rf).getV y =
      if y = Reg.vf then flagByte rf.2 else if y = x then rf.1 else s.getV y := by
  simp only [State.writeWithFlag, State.getV_setV]

theorem State.getV_consumeKey (s : State) (x y : Reg) (k : Key) :
    (s.consumeKey x k).getV y = if y = x then keyByte k else s.getV y := State.getV_setV s x y (keyByte k)

end Sys2Proof.Machine
end

