-- ==== Sys2Proof/Laws/Memory.lean ====
section
/-! SUPPORT. Memory: a read after a write, and that every memory operation keeps the canonical form. -/

namespace Sys2Proof.Machine

theorem Memory.wfFrom_mono {m : Memory} {lo lo' : Nat} (h : lo' ≤ lo) (hm : Memory.wfFrom lo m = true) :
    Memory.wfFrom lo' m = true := by
  cases m with
  | nil => rfl
  | cons c m =>
    obtain ⟨k, b⟩ := c
    simp only [Memory.wfFrom, Bool.and_eq_true, decide_eq_true_eq] at hm ⊢
    exact ⟨⟨⟨by omega, hm.1.1.2⟩, hm.1.2⟩, hm.2⟩

/-- A list in canonical form is so from its own first address on. -/
theorem Memory.wfFrom_self {m : Memory} {k lo : Nat} {b : Byte} (hm : Memory.wfFrom lo ((k, b) :: m) = true) :
    Memory.wfFrom k ((k, b) :: m) = true := by
  simp only [Memory.wfFrom, Bool.and_eq_true, decide_eq_true_eq] at hm ⊢
  exact ⟨⟨⟨Nat.le_refl k, hm.1.1.2⟩, hm.1.2⟩, hm.2⟩

/-- A cell below every listed one reads as its reset contents. -/
theorem Memory.read_of_wfFrom {m : Memory} {lo a : Nat} (hm : Memory.wfFrom lo m = true) (h : a < lo) :
    m.read a = resetByte a := by
  induction m generalizing lo with
  | nil => rfl
  | cons c m ih =>
    obtain ⟨k, b⟩ := c
    simp only [Memory.wfFrom, Bool.and_eq_true, decide_eq_true_eq] at hm
    rw [Memory.read, if_neg (by omega)]
    exact ih hm.2 (by omega)

/-- A read after a write gives the value written at the cell written, and the old one everywhere else. -/
theorem Memory.read_write {m : Memory} {lo : Nat} (hm : Memory.wfFrom lo m = true) (a a' : Nat) (b : Byte) :
    (m.write a b).read a' = if a' = a then b else m.read a' := by
  induction m generalizing lo with
  | nil =>
    by_cases hb : b = resetByte a <;> by_cases ha : a' = a <;> simp_all [Memory.write, Memory.read]
  | cons c m ih =>
    obtain ⟨k, d⟩ := c
    simp only [Memory.wfFrom, Bool.and_eq_true, decide_eq_true_eq] at hm
    have hrest : a ≤ k → Memory.read m a = resetByte a := fun h => Memory.read_of_wfFrom hm.2 (by omega)
    by_cases hlt : a < k
    · by_cases hb : b = resetByte a
      · by_cases ha : a' = a
        · subst ha
          simp [Memory.write, hlt, hb, Memory.read, hrest hlt.le, Nat.ne_of_lt hlt]
        · simp [Memory.write, hlt, hb, ha]
      · simp only [Memory.write, hlt, hb, if_true, if_false]
        rw [Memory.read]
    · by_cases hk : a = k
      · subst hk
        by_cases hb : b = resetByte a <;> by_cases ha : a' = a <;>
          simp_all [Memory.write, Memory.read]
      · simp only [Memory.write, hlt, hk, if_false, Memory.read]
        by_cases hak : a' = k
        · subst hak; simp [Ne.symm hk]
        · simp only [hak, if_false]; exact ih hm.2

theorem Memory.wfFrom_write {m : Memory} {lo a : Nat} {b : Byte} (hm : Memory.wfFrom lo m = true) (hlo : lo ≤ a)
    (ha : a < Size.memSize) : Memory.wfFrom lo (m.write a b) = true := by
  induction m generalizing lo with
  | nil => by_cases hb : b = resetByte a <;> simp_all [Memory.write, Memory.wfFrom]
  | cons c m ih =>
    obtain ⟨k, d⟩ := c
    have hm' := hm
    simp only [Memory.wfFrom, Bool.and_eq_true, decide_eq_true_eq] at hm
    by_cases hlt : a < k
    · by_cases hb : b = resetByte a
      · simpa [Memory.write, hlt, hb] using hm'
      · simp only [Memory.write, hlt, hb, if_true, if_false, Memory.wfFrom, Bool.and_eq_true, decide_eq_true_eq]
        exact ⟨⟨⟨hlo, ha⟩, by simpa using hb⟩, ⟨⟨by omega, hm.1.1.2⟩, hm.1.2⟩, hm.2⟩
    · by_cases hk : a = k
      · subst hk
        by_cases hb : b = resetByte a
        · simp only [Memory.write, hlt, hb, if_true, if_false]
          exact Memory.wfFrom_mono (by omega) hm.2
        · simp only [Memory.write, hlt, hb, if_true, if_false, Memory.wfFrom, Bool.and_eq_true, decide_eq_true_eq]
          exact ⟨⟨⟨hlo, ha⟩, by simpa using hb⟩, hm.2⟩
      · simp only [Memory.write, hlt, hk, if_false, Memory.wfFrom, Bool.and_eq_true, decide_eq_true_eq]
        exact ⟨⟨⟨hm.1.1.1, hm.1.1.2⟩, hm.1.2⟩, ih hm.2 (by omega)⟩

/-- Two memories in canonical form that read the same are the same list. -/
theorem Memory.eq_of_read {m m' : Memory} {lo : Nat} (hm : Memory.wfFrom lo m = true) (hm' : Memory.wfFrom lo m' = true)
    (h : ∀ a < Size.memSize, m.read a = m'.read a) : m = m' := by
  induction m generalizing lo m' with
  | nil =>
    cases m' with
    | nil => rfl
    | cons c m' =>
      obtain ⟨k, b⟩ := c
      simp only [Memory.wfFrom, Bool.and_eq_true, decide_eq_true_eq, bne_iff_ne] at hm'
      exact absurd (by simpa [Memory.read] using (h k hm'.1.1.2).symm) hm'.1.2
  | cons c m ih =>
    obtain ⟨k, b⟩ := c
    have hself := Memory.wfFrom_self hm
    simp only [Memory.wfFrom, Bool.and_eq_true, decide_eq_true_eq, bne_iff_ne] at hm
    cases m' with
    | nil => exact absurd (by simpa [Memory.read] using h k hm.1.1.2) hm.1.2
    | cons c' m' =>
      obtain ⟨k', b'⟩ := c'
      have hself' := Memory.wfFrom_self hm'
      simp only [Memory.wfFrom, Bool.and_eq_true, decide_eq_true_eq, bne_iff_ne] at hm'
      have hk : k = k' := by
        rcases Nat.lt_trichotomy k k' with hlt | heq | hlt
        · refine absurd ?_ hm.1.2
          have := h k hm.1.1.2
          rwa [Memory.read_of_wfFrom hself' hlt, Memory.read, if_pos rfl] at this
        · exact heq
        · refine absurd ?_ hm'.1.2
          have := h k' hm'.1.1.2
          rw [Memory.read_of_wfFrom hself hlt, Memory.read, if_pos rfl] at this
          exact this.symm
      subst hk
      have hb : b = b' := by simpa [Memory.read] using h k hm.1.1.2
      subst hb
      congr 1
      refine ih hm.2 hm'.2 fun a ha => ?_
      by_cases hak : a = k
      · subst hak
        rw [Memory.read_of_wfFrom hm.2 (by omega), Memory.read_of_wfFrom hm'.2 (by omega)]
      · simpa [Memory.read, hak] using h a ha

theorem cellOf_lt (addr : Nat) : cellOf addr < Size.memSize := Nat.mod_lt _ (by decide)

@[simp] theorem cellOf_cellOf (addr : Nat) : cellOf (cellOf addr) = cellOf addr := Nat.mod_mod _ _

theorem cellOf_of_lt {a : Nat} (h : a < Size.memSize) : cellOf a = a := Nat.mod_eq_of_lt h

/-- An address and the cell it reaches read the same (20_memory.md R72). -/
@[simp] theorem State.memRead_cellOf (s : State) (addr : Nat) : s.memRead (cellOf addr) = s.memRead addr := by
  simp [State.memRead]

/-- Two states whose memories are in canonical form and read the same have the same memory. -/
theorem State.mem_eq_of_memRead {s t : State} (hs : s.mem.wf = true) (ht : t.mem.wf = true)
    (h : ∀ a < Size.memSize, s.memRead a = t.memRead a) : s.mem = t.mem :=
  Memory.eq_of_read hs ht fun a ha => by simpa only [State.memRead, cellOf_of_lt ha] using h a ha

/-- A checked-by-nothing write keeps the canonical form. -/
theorem State.poke_wf {s : State} (h : s.mem.wf = true) (addr : Nat) (b : Byte) : (s.poke addr b).mem.wf = true :=
  Memory.wfFrom_write h (Nat.zero_le _) (cellOf_lt addr)

theorem State.memRead_poke {s : State} (h : s.mem.wf = true) (addr addr' : Nat) (b : Byte) :
    (s.poke addr b).memRead addr' = if cellOf addr' = cellOf addr then b else s.memRead addr' :=
  Memory.read_write h _ _ _

/-! ### `State.memWrite` and `State.memWriteList` -/

/-- Everything `MemWrite` can do under `RESERVED_WRITE = FAULT` (20_memory.md R73). -/
theorem State.memWrite_hardware (s : State) (addr : Nat) (b : Byte) :
    s.memWrite hardware addr b =
      if cellOf addr < 0x200 then .error (.reservedWrite (cellOf addr)) else .ok (s.poke addr b) := by
  by_cases h : cellOf addr < 0x200 <;> simp_all [State.memWrite]

/-- A write that no policy stops lands. -/
theorem State.memWrite_free {c : Config} {s : State} {addr : Nat} {b : Byte}
    (h : c.reservedWrite = .allow ∨ c.reserved (cellOf addr) = false) : s.memWrite c addr b = .ok (s.poke addr b) := by
  rcases h with h | h <;> simp [State.memWrite, h]

/-- Writing a list changes nothing but memory. -/
theorem State.memWriteList_frame {c : Config} {s t : State} {addr : Nat} {bs : List Byte}
    (h : s.memWriteList c addr bs = .ok t) : t = { s with mem := t.mem } := by
  induction bs generalizing s addr with
  | nil => cases h; rfl
  | cons b bs ih =>
    simp only [State.memWriteList] at h
    split at h
    · rename_i s' hw
      have hs' : s' = { s with mem := s'.mem } := by
        simp only [State.memWrite] at hw
        split at hw <;> cases hw
        rfl
      have := ih h
      rw [hs'] at this
      exact this
    · cases h

/-- A list is written when no policy stops one of its addresses, and then the canonical form is kept and each byte stands at
its address. -/
theorem State.memWriteList_free {c : Config} {s : State} (hwf : s.mem.wf = true) {addr : Nat} {bs : List Byte}
    (hlen : bs.length ≤ Size.memSize)
    (hres : ∀ j < bs.length, c.reservedWrite = .allow ∨ c.reserved (cellOf (addr + j)) = false) :
    ∃ t, s.memWriteList c addr bs = .ok t ∧ t.mem.wf = true
      ∧ (∀ j < bs.length, t.memRead (addr + j) = bs.getD j 0)
      ∧ ∀ a, (∀ j < bs.length, cellOf a ≠ cellOf (addr + j)) → t.memRead a = s.memRead a := by
  induction bs generalizing s addr with
  | nil => exact ⟨s, rfl, hwf, by simp, fun _ _ => rfl⟩
  | cons b bs ih =>
    obtain ⟨t, ht, htwf, hin, hout⟩ := ih (State.poke_wf hwf addr b) (addr := addr + 1)
      (by simp only [List.length_cons] at hlen; omega)
      (fun j hj => by have := hres (j + 1) (by simpa using hj); rwa [show addr + 1 + j = addr + (j + 1) by omega])
    refine ⟨t, ?_, htwf, ?_, ?_⟩
    · rw [State.memWriteList, State.memWrite_free (by simpa using hres 0 (by simp))]; exact ht
    · intro j hj
      cases j with
      | zero =>
        have hne : ∀ j < bs.length, cellOf addr ≠ cellOf (addr + 1 + j) := by
          intro j hj
          simp only [cellOf, Size.memSize, List.length_cons] at hlen ⊢
          omega
        rw [Nat.add_zero, hout addr hne, State.memRead_poke hwf]; simp
      | succ j =>
        have := hin j (by simpa using hj)
        rw [show addr + (j + 1) = addr + 1 + j by omega, this]; simp
    · intro a ha
      have h1 : ∀ j < bs.length, cellOf a ≠ cellOf (addr + 1 + j) := fun j hj => by
        have := ha (j + 1) (by simpa using hj); rwa [show addr + 1 + j = addr + (j + 1) by omega]
      rw [hout a h1, State.memRead_poke hwf, if_neg (by simpa using ha 0 (by simp))]

/-- Under `RESERVED_WRITE = FAULT`, a list is written when none of its addresses is reserved. -/
theorem State.memWriteList_ok {s : State} (hwf : s.mem.wf = true) {addr : Nat} {bs : List Byte}
    (hlen : bs.length ≤ Size.memSize)
    (hres : ∀ j < bs.length, 0x200 ≤ cellOf (addr + j)) :
    ∃ t, s.memWriteList hardware addr bs = .ok t ∧ t.mem.wf = true
      ∧ (∀ j < bs.length, t.memRead (addr + j) = bs.getD j 0)
      ∧ ∀ a, (∀ j < bs.length, cellOf a ≠ cellOf (addr + j)) → t.memRead a = s.memRead a :=
  State.memWriteList_free hwf hlen fun j hj => .inr (by simpa using hres j hj)

/-- Under `RESERVED_WRITE = FAULT`, a list with a reserved address faults at the first one (60_exceptions.md R331). -/
theorem State.memWriteList_error {s : State} {addr : Nat} {bs : List Byte} {j : Nat} (hj : j < bs.length)
    (hbefore : ∀ k < j, 0x200 ≤ cellOf (addr + k)) (hres : cellOf (addr + j) < 0x200) :
    s.memWriteList hardware addr bs = .error (.reservedWrite (cellOf (addr + j))) := by
  induction bs generalizing s addr j with
  | nil => simp at hj
  | cons b bs ih =>
    rw [State.memWriteList, State.memWrite_hardware]
    cases j with
    | zero => rw [if_pos (by simpa using hres)]; simp
    | succ j =>
      rw [if_neg (Nat.not_lt.2 (by simpa using hbefore 0 (by omega)))]
      have := ih (s := s.poke addr b) (addr := addr + 1) (j := j) (by simpa using hj)
        (fun k hk => by have := hbefore (k + 1) (by omega); rwa [show addr + 1 + k = addr + (k + 1) by omega])
        (by rwa [show addr + 1 + j = addr + (j + 1) by omega])
      rw [show addr + (j + 1) = addr + 1 + j by omega]
      exact this

/-- The one cause a list write can raise. -/
theorem State.memWriteList_cause {c : Config} {s : State} {addr : Nat} {bs : List Byte} {f : Fault}
    (h : s.memWriteList c addr bs = .error f) : ∃ a, c.reserved a = true ∧ f = .reservedWrite a := by
  induction bs generalizing s addr with
  | nil => cases h
  | cons b bs ih =>
    simp only [State.memWriteList] at h
    split at h
    · exact ih h
    · rename_i f' hw
      simp only [State.memWrite] at hw
      split at hw <;> cases hw
      cases h
      rename_i hc
      exact ⟨_, hc.2, rfl⟩

/-- A list write that succeeds under `RESERVED_WRITE = FAULT` keeps the canonical form and the reserved area. -/
theorem State.memWriteList_keeps {s t : State} {addr : Nat} {bs : List Byte}
    (h : s.memWriteList hardware addr bs = .ok t) (hwf : s.mem.wf = true) :
    t.mem.wf = true ∧ ∀ a < 0x200, t.memRead a = s.memRead a := by
  induction bs generalizing s addr with
  | nil => cases h; exact ⟨hwf, fun _ _ => rfl⟩
  | cons b bs ih =>
    rw [State.memWriteList, State.memWrite_hardware] at h
    by_cases hr : cellOf addr < 0x200
    · simp [hr] at h
    · rw [if_neg hr] at h
      obtain ⟨h1, h2⟩ := ih h (State.poke_wf hwf addr b)
      refine ⟨h1, fun a ha => ?_⟩
      rw [h2 a ha, State.memRead_poke hwf, if_neg]
      rw [cellOf_of_lt (a := a) (by simp only [Size.memSize]; omega)]
      omega

end Sys2Proof.Machine
end

