-- ==== Sys2Proof/Laws/Ops.lean ====
section
/-! SUPPORT. Everything each remaining shared operation can do, said once. -/

namespace Sys2Proof.Machine

/-! ### Taking a fault -/

theorem State.conclude_ok (s t : State) : s.conclude (.ok t) = .next t := rfl

theorem State.conclude_error (s : State) (f : Fault) : s.conclude (.error f) = .next (s.takeFault f) := rfl

/-- An instruction that may raise a fault always answers a next state: its own, or the fault taken. -/
theorem State.conclude_cases {s t : State} {r : Except Fault State} (h : s.conclude r = .next t) :
    r = .ok t ∨ ∃ f, r = .error f ∧ t = s.takeFault f := by
  cases r with
  | ok t' => cases h; exact .inl rfl
  | error f => cases h; exact .inr ⟨f, rfl, rfl⟩

/-! ### The return stack -/

theorem State.push_ok (s : State) (a : Word) (h : s.sp.val < Size.stackDepth) :
    s.push a = .ok { s with stack := s.stack.set s.sp.val a h, sp := ⟨s.sp.val + 1, Nat.succ_lt_succ h⟩ } := dif_pos h

theorem State.push_full (s : State) (a : Word) (h : s.sp = 16) : s.push a = .error (.stackOverflow 16) := by
  simp [State.push, h]

theorem State.popPC_ok (s : State) (h : 0 < s.sp.val) :
    ∃ t, s.popPC = .ok t ∧ t.sp.val = s.sp.val - 1
      ∧ t.pc = s.stack[s.sp.val - 1]'(by have := s.sp.isLt; simp only [Size.stackDepth]; omega)
      ∧ t = { s with sp := t.sp, pc := t.pc } := by
  unfold State.popPC
  rw [dif_pos h]
  exact ⟨_, rfl, rfl, rfl, rfl⟩

theorem State.popPC_empty (s : State) (h : s.sp = 0) : s.popPC = .error (.stackUnderflow 0) := by
  simp [State.popPC, h]

/-! ### Key indices -/

/-- Everything `key_index` can do under `KEY_INDEX_POLICY = FAULT` (42_conditional_skip.md R187). -/
theorem keyIndex_fault (b : Byte) :
    (∃ h : b.toNat ≤ 0xF, keyIndex .fault b = .ok ⟨b.toNat, Nat.lt_succ_of_le h⟩)
      ∨ (b.toNat > 0xF ∧ keyIndex .fault b = .error (.keyIndexRange b)) := by
  by_cases h : b.toNat ≤ 0xF
  · exact .inl ⟨h, by simp [keyIndex, h]⟩
  · exact .inr ⟨by omega, by simp [keyIndex, h]⟩

/-! ### Block transfers -/

@[simp] theorem mem_regsUpTo {x r : Reg} : r ∈ regsUpTo x ↔ r ≤ x := by revert x r; decide

@[simp] theorem length_regsUpTo (x : Reg) : (regsUpTo x).length = x.val + 1 := by revert x; decide

theorem getElem_regsUpTo (x : Reg) (j : Nat) (h : j < (regsUpTo x).length) : ((regsUpTo x)[j]).val = j := by
  simp [regsUpTo]

@[simp] theorem State.length_valuesUpTo (s : State) (x : Reg) : (s.valuesUpTo x).length = x.val + 1 := by
  simp [State.valuesUpTo]

/-- The j-th of the values of V0..Vx is Vj's. -/
theorem State.getD_valuesUpTo (s : State) {x r : Reg} (h : r ≤ x) : (s.valuesUpTo x).getD r.val 0 = s.getV r := by
  have hr : r.val < (regsUpTo x).length := by simp; omega
  have : (regsUpTo x)[r.val] = r := Fin.ext (getElem_regsUpTo x r.val hr)
  rw [State.valuesUpTo, List.getD_eq_getElem?_getD, List.getElem?_map, List.getElem?_eq_getElem hr, this]
  rfl

/-- A load of a list of registers: each of them takes its own byte, nothing else changes. -/
theorem State.loadRegs_spec (s : State) (addr : Nat) (rs : List Reg) :
    s.loadRegs addr rs = { s with v := (s.loadRegs addr rs).v }
      ∧ ∀ r, (s.loadRegs addr rs).getV r = if r ∈ rs then s.memRead (addr + r.val) else s.getV r := by
  induction rs generalizing s with
  | nil => exact ⟨rfl, fun r => by simp [State.loadRegs]⟩
  | cons q rs ih =>
    have hstep : s.loadRegs addr (q :: rs) = (s.setV q (s.memRead (addr + q.val))).loadRegs addr rs := rfl
    obtain ⟨h1, h2⟩ := ih (s.setV q (s.memRead (addr + q.val)))
    rw [hstep]
    refine ⟨h1, fun r => ?_⟩
    rw [h2 r, State.getV_setV]
    by_cases hr : r ∈ rs <;> by_cases hq : r = q <;> simp [hr, hq]

/-! ### The key wait -/

/-- Everything the wait's entry can do, once a stale notification is dealt with (47_input.md R314). -/
theorem State.awaitKey_cases (s : State) (x : Reg) :
    (∃ k, s.notify = some k ∧ s.awaitKey x = s.consumeKey x k)
      ∨ (s.notify = none ∧ s.awaitKey x = s.setExec (.waitKey x)) := by
  cases h : s.notify with
  | none => exact .inr ⟨rfl, by simp [State.awaitKey, h]⟩
  | some k => exact .inl ⟨k, rfl, by simp [State.awaitKey, h]⟩

/-! ### Loading an image -/

/-- Loading bytes below the end of memory: memory keeps its form, the bytes stand in place, the rest is as before. -/
theorem State.loadBytes_spec {s : State} (hwf : s.mem.wf = true) {addr : Nat} {bs : List Byte}
    (h : addr + bs.length ≤ Size.memSize) :
    s.loadBytes addr bs = { s with mem := (s.loadBytes addr bs).mem } ∧ (s.loadBytes addr bs).mem.wf = true
      ∧ ∀ a < Size.memSize, (s.loadBytes addr bs).memRead a =
          if addr ≤ a ∧ a < addr + bs.length then bs.getD (a - addr) 0 else s.memRead a := by
  induction bs generalizing s addr with
  | nil =>
    refine ⟨rfl, hwf, fun a _ => ?_⟩
    rw [if_neg (by rw [List.length_nil]; omega)]; rfl
  | cons b bs ih =>
    simp only [List.length_cons] at h
    obtain ⟨h1, h2, h3⟩ := ih (State.poke_wf hwf addr b) (addr := addr + 1) (by omega)
    refine ⟨h1, h2, fun a ha => ?_⟩
    rw [State.loadBytes, h3 a ha, State.memRead_poke hwf, cellOf_of_lt ha, cellOf_of_lt (a := addr) (by omega)]
    by_cases hin : addr + 1 ≤ a ∧ a < addr + 1 + bs.length
    · obtain ⟨d, rfl⟩ : ∃ d, a = addr + 1 + d := ⟨a - (addr + 1), by omega⟩
      rw [if_pos hin, if_pos (by simp only [List.length_cons]; omega),
        show addr + 1 + d - addr = d + 1 by omega, show addr + 1 + d - (addr + 1) = d by omega]
      simp
    · rw [if_neg hin]
      by_cases he : a = addr
      · subst he; simp
      · rw [if_neg he, if_neg (by simp only [List.length_cons]; omega)]

/-! ### Reset -/

/-- What memory reads as after reset with no image (10_state.md R51). -/
theorem State.memRead_reset {a : Nat} (ha : a < Size.memSize) : State.reset.memRead a =
    if hardware.fontBase ≤ a ∧ a < hardware.fontBase + hardware.fontSize then
      hardware.fontTable.getD (a - hardware.fontBase) 0
    else 0 := by
  rw [State.memRead, cellOf_of_lt ha]
  rfl

/-- The zeroed state has its memory in canonical form, and every byte of it is 0. -/
theorem State.zeroed_mem : State.zeroed.mem.wf = true ∧ ∀ a < Size.memSize, State.zeroed.memRead a = 0 := by
  obtain ⟨-, hwf, hread⟩ := State.loadBytes_spec (s := State.reset) (addr := hardware.fontBase)
    (bs := List.replicate hardware.fontSize 0) rfl (by simp [Size.memSize])
  refine ⟨hwf, fun a ha => ?_⟩
  rw [State.zeroed, hread a ha, List.length_replicate]
  split
  · rw [List.getD_eq_getElem?_getD, List.getElem?_replicate]
    split <;> rfl
  · rename_i h
    rw [State.memRead_reset ha, if_neg h]

/-- The zeroed state is the reset state but for memory. -/
theorem State.zeroed_frame : State.zeroed = { State.reset with mem := State.zeroed.mem } :=
  (State.loadBytes_spec (s := State.reset) rfl (by simp [Size.memSize])).1

/-- The zeroed state with the font in place is the reset state: step 2 of `Reset` (70_reset_and_hazards.md R370). -/
theorem State.zeroed_font : State.zeroed.loadBytes hardware.fontBase hardware.fontTable = State.reset := by
  have hlen : hardware.fontTable.length = 80 := rfl
  obtain ⟨hframe, hwf, hread⟩ := State.loadBytes_spec State.zeroed_mem.1 (addr := hardware.fontBase)
    (bs := hardware.fontTable) (by rw [hlen]; simp [Size.memSize])
  have hmem : (State.zeroed.loadBytes hardware.fontBase hardware.fontTable).mem = State.reset.mem := by
    refine State.mem_eq_of_memRead hwf rfl fun a ha => ?_
    rw [hread a ha, State.zeroed_mem.2 a ha, State.memRead_reset ha]
    rfl
  rw [hframe, hmem, State.zeroed_frame]

/-- Everything reset with an image can do: the image stands over the reset state, or it is refused
(70_reset_and_hazards.md R370, R372). -/
theorem State.resetWith_eq (image : List Byte) :
    State.resetWith image =
      if image.length ≤ 3584 then .next (State.reset.loadBytes 0x200 image) else .refused (.imageTooLong image.length) := by
  unfold State.resetWith State.resetUnder
  rw [hardware_maxImage]
  split
  · rename_i h
    have hload := (State.loadBytes_spec (s := State.reset) (addr := 0x200) (bs := image) rfl
      (by simp only [Size.memSize]; omega)).1
    simp only [hardware_resetFill, State.filled, State.zeroed_font, hardware_progBase]
    rw [hload]
    rfl
  · rfl

/-- Under `RESET_FILL = ZERO` a reset reads no former state. -/
theorem State.resetUnder_hardware (before : State) (image : List Byte) :
    State.resetUnder hardware before image = State.resetWith image := rfl

end Sys2Proof.Machine
end

