-- ==== Sys2Proof/Laws/Exec.lean ====
section
/-! SUPPORT. Everything an instruction that may fault, wait or loop can do, said once; and that no agent's step reads the
list of steps to come. -/

namespace Sys2Proof.Machine

/-! ### The instructions that are not one update -/

/-- RET: the fault taken, or SP and PC written. -/
theorem execRet_cases {s t : State} (h : execRet s = .next t) :
    (∃ f, t = s.takeFault f) ∨ t = { s with sp := t.sp, pc := t.pc } := by
  rcases State.conclude_cases h with h | ⟨f, -, h⟩
  · simp only [State.popPC] at h
    split at h <;> cases h
    exact .inr rfl
  · exact .inl ⟨f, h⟩

/-- CALL: the fault taken, or SP, the stack and PC written. -/
theorem execCall_cases {nnn : BitVec 12} {s t : State} (h : execCall nnn s = .next t) :
    (∃ f, t = s.takeFault f) ∨ t = { s with stack := t.stack, sp := t.sp, pc := t.pc } := by
  rcases State.conclude_cases h with h | ⟨f, -, h⟩
  · simp only [State.push] at h
    split at h <;> cases h
    exact .inr rfl
  · exact .inl ⟨f, h⟩

/-- SKP: the fault taken, or PC written. -/
theorem execSkp_cases {x : Reg} {s t : State} (h : execSkp x s = .next t) :
    (∃ f, t = s.takeFault f) ∨ t = { s with pc := t.pc } := by
  rcases State.conclude_cases h with h | ⟨f, -, h⟩
  · cases hk : keyIndex hardware.keyIndexPolicy (s.getV x) <;> rw [hk] at h <;> cases h
    right
    simp only [State.skipIf]
    split <;> rfl
  · exact .inl ⟨f, h⟩

/-- SKNP: the fault taken, or PC written. -/
theorem execSknp_cases {x : Reg} {s t : State} (h : execSknp x s = .next t) :
    (∃ f, t = s.takeFault f) ∨ t = { s with pc := t.pc } := by
  rcases State.conclude_cases h with h | ⟨f, -, h⟩
  · cases hk : keyIndex hardware.keyIndexPolicy (s.getV x) <;> rw [hk] at h <;> cases h
    right
    simp only [State.skipIf]
    split <;> rfl
  · exact .inl ⟨f, h⟩

/-- LD B: the fault taken, or the digits stored. -/
theorem execLdB_cases {x : Reg} {s t : State} (h : execLdB x s = .next t) :
    (∃ f, t = s.takeFault f)
      ∨ (s.nextPC.memWriteList hardware s.base (bcdDigits (s.getV x)) = .ok t
          ∧ t = { s with mem := t.mem, pc := s.pc + 2 }) := by
  rcases State.conclude_cases h with h | ⟨f, -, h⟩
  · exact .inr ⟨h, State.memWriteList_frame h⟩
  · exact .inl ⟨f, h⟩

/-- LD [I]: the fault taken, or the registers stored. -/
theorem execLdStore_cases {x : Reg} {s t : State} (h : execLdStore x s = .next t) :
    (∃ f, t = s.takeFault f)
      ∨ (s.nextPC.memWriteList hardware s.base (s.valuesUpTo x) = .ok t
          ∧ t = { s with mem := t.mem, pc := s.pc + 2 }) := by
  rcases State.conclude_cases h with h | ⟨f, -, h⟩
  · exact .inr ⟨h, State.memWriteList_frame h⟩
  · exact .inl ⟨f, h⟩

/-- LD Vx, [I]: only V and PC written. -/
theorem execLdLoad_frame {x : Reg} {s t : State} (h : execLdLoad x s = .next t) : t = { s.nextPC with v := t.v } := by
  cases h
  exact (State.loadRegs_spec _ _ _).1

/-- LD Vx, K: the key consumed, or the wait begun. -/
theorem execLdVxK_cases {x : Reg} {s t : State} (h : execLdVxK x s = .next t) :
    (∃ k, s.notify = some k ∧ t = s.nextPC.consumeKey x k)
      ∨ (s.notify = none ∧ t = s.nextPC.setExec (.waitKey x)) := by
  cases h
  exact State.awaitKey_cases (s.nextPC.onKeyWaitEntry hardware.keyWaitStale) x

/-! ### The list of steps to come -/

/-- `s` with another list of steps to come. -/
def State.withPending (s : State) (as : List Activation) : State := { s with pending := as }

/-- The same for the state an outcome holds. -/
def withPendingOutcome (as : List Activation) :
    Host.Outcome State Fault Refusal → Host.Outcome State Fault Refusal
  | .next t => .next (t.withPending as)
  | .fault f => .fault f
  | .refused r => .refused r

theorem State.conclude_withPending (s : State) (as : List Activation) {r r' : Except Fault State}
    (h : r' = r.map (·.withPending as)) :
    (s.withPending as).conclude r' = withPendingOutcome as (s.conclude r) := by
  subst h
  cases r <;> rfl

theorem State.memWriteList_withPending (as : List Activation) (c : Config) (s : State) (a : Nat)
    (bs : List Byte) :
    (s.withPending as).memWriteList c a bs = (s.memWriteList c a bs).map (·.withPending as) := by
  induction bs generalizing s a with
  | nil => rfl
  | cons b bs ih =>
    have h : (s.withPending as).memWrite c a b = (s.memWrite c a b).map (·.withPending as) := by
      by_cases hc : c.reservedWrite = .fault ∧ c.reserved (cellOf a) <;>
        simp only [State.memWrite, hc] <;> rfl
    rw [State.memWriteList, State.memWriteList, h]
    cases s.memWrite c a b with
    | ok t => exact ih t (a + 1)
    | error => rfl

theorem State.loadRegs_withPending (as : List Activation) (s : State) (a : Nat) (rs : List Reg) :
    (s.withPending as).loadRegs a rs = (s.loadRegs a rs).withPending as := by
  induction rs generalizing s with
  | nil => rfl
  | cons r rs ih => exact ih (s.setV r (s.memRead (a + r.val)))

theorem State.skipIf_withPending (s : State) (as : List Activation) (c : Bool) :
    (s.withPending as).skipIf c = (s.skipIf c).withPending as := by
  cases c <;> rfl

/-- No instruction reads or writes the list of steps to come. -/
theorem exec_withPending (ins : Instr) (s : State) (as : List Activation) :
    exec ins (s.withPending as) = withPendingOutcome as (exec ins s) := by
  cases ins
  case ret =>
    apply State.conclude_withPending
    by_cases h : 0 < s.sp.val
    · unfold State.popPC
      rw [dif_pos (by exact h), dif_pos (by exact h)]; rfl
    · unfold State.popPC
      rw [dif_neg (by exact h), dif_neg (by exact h)]; rfl
  case call =>
    apply State.conclude_withPending
    by_cases h : s.sp.val < Size.stackDepth
    · rw [State.push_ok _ _ (by exact h), State.push_ok _ _ (by exact h)]; rfl
    · simp only [State.push]
      rw [dif_neg (by exact h), dif_neg (by exact h)]; rfl
  case skp x =>
    apply State.conclude_withPending
    change (keyIndex hardware.keyIndexPolicy (s.getV x)).map _ = _
    cases keyIndex hardware.keyIndexPolicy (s.getV x) with
    | error => rfl
    | ok k => exact congrArg Except.ok (State.skipIf_withPending s.nextPC as (s.isPressed k))
  case sknp x =>
    apply State.conclude_withPending
    change (keyIndex hardware.keyIndexPolicy (s.getV x)).map _ = _
    cases keyIndex hardware.keyIndexPolicy (s.getV x) with
    | error => rfl
    | ok k => exact congrArg Except.ok (State.skipIf_withPending s.nextPC as (!s.isPressed k))
  case ldB x =>
    apply State.conclude_withPending
    exact State.memWriteList_withPending as hardware s.nextPC s.base (bcdDigits (s.getV x))
  case ldStore x =>
    apply State.conclude_withPending
    exact State.memWriteList_withPending as hardware s.nextPC s.base (s.valuesUpTo x)
  case ldLoad x => exact congrArg Host.Outcome.next (State.loadRegs_withPending as s.nextPC s.base (regsUpTo x))
  case ldVxK x => obtain ⟨v, pc, i, sp, stack, dt, st, mem, fb, key, notify, es, dr, pe, em⟩ := s; cases notify <;> rfl
  case seImm x kk => exact congrArg Host.Outcome.next (State.skipIf_withPending s.nextPC as _)
  case sneImm x kk => exact congrArg Host.Outcome.next (State.skipIf_withPending s.nextPC as _)
  case seReg x y => exact congrArg Host.Outcome.next (State.skipIf_withPending s.nextPC as _)
  case sneReg x y => exact congrArg Host.Outcome.next (State.skipIf_withPending s.nextPC as _)
  all_goals rfl

theorem instrTick_withPending (s : State) (as : List Activation) :
    instrTick (s.withPending as) = withPendingOutcome as (instrTick s) := by
  unfold instrTick
  change (if s.execState.isRunning then _ else _) = _
  split
  · unfold fetchExecute
    change (match decode s.fetchWord with | .ok ins => _ | .error _ => _) = _
    cases decode s.fetchWord with
    | ok ins => exact exec_withPending ins s as
    | error => rfl
  · rfl

/-- No agent's step reads or writes the list of steps to come. -/
theorem activate_withPending (a : Activation) (s : State) (as : List Activation) :
    activate a (s.withPending as) = withPendingOutcome as (activate a s) := by
  cases a with
  | instrTick => exact instrTick_withPending s as
  | keyWaitDone =>
    obtain ⟨v, pc, i, sp, stack, dt, st, mem, fb, key, notify, es, dr, pe, em⟩ := s
    cases es <;> cases notify <;> rfl
  | timerTick =>
    obtain ⟨v, pc, i, sp, stack, dt, st, mem, fb, key, notify, es, dr, pe, em⟩ := s
    cases es <;> rfl
  | keyEvent k p =>
    obtain ⟨v, pc, i, sp, stack, dt, st, mem, fb, key, notify, es, dr, pe, em⟩ := s
    cases es <;> rfl
  | stop =>
    obtain ⟨v, pc, i, sp, stack, dt, st, mem, fb, key, notify, es, dr, pe, em⟩ := s
    cases es <;> rfl

end Sys2Proof.Machine
end

