-- ==== Sys2Proof/Laws/Framebuffer.lean ====
section
/-! SUPPORT. The blit engine, said cell by cell: what one pixel, one row and a whole sprite do to every cell and to the
collision bit (46_drawing.md R285 to R287). -/

namespace Sys2Proof.Machine

/-- A cell outside the framebuffer reads `false`. -/
theorem Framebuffer.at_outside (fb : Framebuffer) {x y : Nat} (h : ¬ (x < Size.fbW ∧ y < Size.fbH)) :
    fb.at x y = false := dif_neg h

theorem Framebuffer.at_inside (fb : Framebuffer) {x y : Nat} (hx : x < Size.fbW) (hy : y < Size.fbH) :
    fb.at x y = fb.cell x y hx hy := dif_pos ⟨hx, hy⟩

/-- Two framebuffers that agree cell by cell are equal. -/
theorem Framebuffer.ext_at {f g : Framebuffer} (h : ∀ x y, x < Size.fbW → y < Size.fbH → f.at x y = g.at x y) :
    f = g := by
  apply Vector.ext
  intro y hy
  apply Vector.ext
  intro x hx
  have := h x y hx hy
  rwa [Framebuffer.at_inside f hx hy, Framebuffer.at_inside g hx hy] at this

@[simp] theorem Framebuffer.at_clear (x y : Nat) : Framebuffer.clear.at x y = false := by
  by_cases h : x < Size.fbW ∧ y < Size.fbH
  · simp [Framebuffer.at_inside _ h.1 h.2, Framebuffer.cell, Framebuffer.clear]
  · exact Framebuffer.at_outside _ h

theorem Framebuffer.at_setCell (fb : Framebuffer) {px py : Nat} (hx : px < Size.fbW) (hy : py < Size.fbH)
    (b : Bool) (x y : Nat) :
    (fb.setCell px py hx hy b).at x y = if x = px ∧ y = py then b else fb.at x y := by
  by_cases h : x < Size.fbW ∧ y < Size.fbH
  · rw [Framebuffer.at_inside _ h.1 h.2, Framebuffer.at_inside _ h.1 h.2]
    by_cases hyy : y = py
    · subst hyy
      by_cases hxx : x = px
      · subst hxx; simp [Framebuffer.cell, Framebuffer.setCell]
      · simp [Framebuffer.cell, Framebuffer.setCell, hxx, Ne.symm hxx]
    · simp [Framebuffer.cell, Framebuffer.setCell, hyy, Ne.symm hyy]
  · rw [Framebuffer.at_outside _ h, Framebuffer.at_outside _ h, if_neg]
    rintro ⟨rfl, rfl⟩
    exact h ⟨hx, hy⟩

/-- One pixel: the bit is XORed onto its own cell, if that cell exists. -/
theorem blitPixel_at (px py : Nat) (bit : Bool) (p : Framebuffer × Bool) {x y : Nat} (hx : x < Size.fbW)
    (hy : y < Size.fbH) :
    (blitPixel px py bit p).1.at x y = (p.1.at x y ^^ (decide (x = px ∧ y = py) && bit)) := by
  unfold blitPixel
  split
  · rename_i h
    rw [Framebuffer.at_setCell]
    by_cases hc : x = px ∧ y = py
    · obtain ⟨rfl, rfl⟩ := hc
      simp [Framebuffer.at_inside p.1 hx hy]
    · simp [hc]
  · rename_i h
    have hc : ¬ (x = px ∧ y = py) := by rintro ⟨rfl, rfl⟩; exact h ⟨hx, hy⟩
    simp [hc]

/-- One pixel: a 1 on a cell that holds 1 sets the collision bit, and nothing clears it (46_drawing.md R287). -/
theorem blitPixel_collision (px py : Nat) (bit : Bool) (p : Framebuffer × Bool) :
    (blitPixel px py bit p).2 = (p.2 || (bit && p.1.at px py)) := by
  unfold blitPixel
  split
  · rename_i h
    rw [Framebuffer.at_inside _ h.1 h.2]
  · rename_i h
    rw [Framebuffer.at_outside _ h]
    simp

/-- The first `n` pixels of a row. -/
def blitRowTo (n x0 py : Nat) (row : Byte) (p : Framebuffer × Bool) : Framebuffer × Bool :=
  (List.range n).foldl (fun q c => blitPixel (x0 + c) py (spriteBit row c) q) p

theorem blitRowTo_succ (n x0 py : Nat) (row : Byte) (p : Framebuffer × Bool) :
    blitRowTo (n + 1) x0 py row p = blitPixel (x0 + n) py (spriteBit row n) (blitRowTo n x0 py row p) := by
  simp [blitRowTo, List.range_succ]

theorem blitRowTo_at (n x0 py : Nat) (row : Byte) (p : Framebuffer × Bool) {x y : Nat} (hx : x < Size.fbW)
    (hy : y < Size.fbH) :
    (blitRowTo n x0 py row p).1.at x y =
      (p.1.at x y ^^ (decide (x0 ≤ x ∧ x < x0 + n ∧ y = py) && spriteBit row (x - x0))) := by
  induction n with
  | zero =>
    have : ¬ (x0 ≤ x ∧ x < x0 + 0 ∧ y = py) := by omega
    simp only [blitRowTo, List.range_zero, List.foldl_nil, this, decide_false, Bool.false_and, Bool.xor_false]
  | succ n ih =>
    rw [blitRowTo_succ, blitPixel_at _ _ _ _ hx hy, ih]
    by_cases hc : x = x0 + n ∧ y = py
    · obtain ⟨rfl, rfl⟩ := hc
      simp
    · have : (x0 ≤ x ∧ x < x0 + (n + 1) ∧ y = py) ↔ (x0 ≤ x ∧ x < x0 + n ∧ y = py) := by omega
      simp [hc, this]

theorem blitRowTo_collision (n x0 py : Nat) (row : Byte) (p : Framebuffer × Bool) :
    (blitRowTo n x0 py row p).2 = true ↔
      p.2 = true ∨ ∃ c < n, spriteBit row c = true ∧ p.1.at (x0 + c) py = true := by
  induction n with
  | zero => simp [blitRowTo]
  | succ n ih =>
    have hat : (blitRowTo n x0 py row p).1.at (x0 + n) py = p.1.at (x0 + n) py := by
      by_cases h : x0 + n < Size.fbW ∧ py < Size.fbH
      · rw [blitRowTo_at _ _ _ _ _ h.1 h.2]; simp
      · rw [Framebuffer.at_outside _ h, Framebuffer.at_outside _ h]
    rw [blitRowTo_succ, blitPixel_collision, hat, Bool.or_eq_true, ih, Bool.and_eq_true]
    constructor
    · rintro ((h | ⟨c, hc, h⟩) | h)
      · exact .inl h
      · exact .inr ⟨c, by omega, h⟩
      · exact .inr ⟨n, by omega, h⟩
    · rintro (h | ⟨c, hc, h⟩)
      · exact .inl (.inl h)
      · by_cases hcn : c = n
        · subst hcn; exact .inr h
        · exact .inl (.inr ⟨c, by omega, h⟩)

/-- A whole sprite, cell by cell. -/
theorem blitRows_at (x0 y0 : Nat) (rows : List Byte) (p : Framebuffer × Bool) {x y : Nat} (hx : x < Size.fbW)
    (hy : y < Size.fbH) :
    (blitRows x0 y0 rows p).1.at x y =
      (p.1.at x y ^^ (decide (x0 ≤ x ∧ x < x0 + 8 ∧ y0 ≤ y ∧ y < y0 + rows.length)
        && spriteBit (rows.getD (y - y0) 0) (x - x0))) := by
  induction rows generalizing y0 p with
  | nil =>
    have : ¬ (x0 ≤ x ∧ x < x0 + 8 ∧ y0 ≤ y ∧ y < y0 + ([] : List Byte).length) := by
      rw [List.length_nil]; omega
    simp only [blitRows, this, decide_false, Bool.false_and, Bool.xor_false]
  | cons row rows ih =>
    rw [blitRows, ih, show blitRow x0 y0 row p = blitRowTo 8 x0 y0 row p from rfl, blitRowTo_at _ _ _ _ _ hx hy]
    by_cases hyy : y = y0
    · subst hyy
      simp
    · by_cases hlt : y < y0
      · have h1 : ¬ (y0 + 1 ≤ y) := by omega
        have h2 : ¬ (y0 ≤ y) := by omega
        simp [h1, h2, hyy]
      · obtain ⟨d, rfl⟩ : ∃ d, y = y0 + 1 + d := ⟨y - (y0 + 1), by omega⟩
        have h1 : y0 + 1 + d - (y0 + 1) = d := by omega
        have h2 : y0 + 1 + d - y0 = d + 1 := by omega
        have h3 : (x0 ≤ x ∧ x < x0 + 8 ∧ y0 + 1 ≤ y0 + 1 + d ∧ y0 + 1 + d < y0 + 1 + rows.length)
            ↔ (x0 ≤ x ∧ x < x0 + 8 ∧ y0 ≤ y0 + 1 + d ∧ y0 + 1 + d < y0 + (rows.length + 1)) := by omega
        simp only [hyy, and_false, decide_false, Bool.false_and, Bool.xor_false, h1, h2, h3, List.length_cons,
          List.getD_cons_succ]

/-- A whole sprite's collision: some drawn 1 meets a cell that held 1 before the blit. -/
theorem blitRows_collision (x0 y0 : Nat) (rows : List Byte) (p : Framebuffer × Bool) :
    (blitRows x0 y0 rows p).2 = true ↔
      p.2 = true ∨ ∃ r < rows.length, ∃ c < 8, spriteBit (rows.getD r 0) c = true ∧ p.1.at (x0 + c) (y0 + r) = true := by
  induction rows generalizing y0 p with
  | nil => simp [blitRows]
  | cons row rows ih =>
    have hat : ∀ r c, (blitRow x0 y0 row p).1.at (x0 + c) (y0 + 1 + r) = p.1.at (x0 + c) (y0 + 1 + r) := by
      intro r c
      by_cases h : x0 + c < Size.fbW ∧ y0 + 1 + r < Size.fbH
      · rw [show blitRow x0 y0 row p = blitRowTo 8 x0 y0 row p from rfl, blitRowTo_at _ _ _ _ _ h.1 h.2]
        have : ¬ (y0 + 1 + r = y0) := by omega
        simp [this]
      · rw [Framebuffer.at_outside _ h, Framebuffer.at_outside _ h]
    rw [blitRows, ih]
    simp only [hat]
    rw [show blitRow x0 y0 row p = blitRowTo 8 x0 y0 row p from rfl, blitRowTo_collision]
    constructor
    · rintro ((h | ⟨c, hc, h1, h2⟩) | ⟨r, hr, c, hc, h1, h2⟩)
      · exact .inl h
      · exact .inr ⟨0, by simp, c, hc, by simpa using h1, by simpa using h2⟩
      · exact .inr ⟨r + 1, by simpa using hr, c, hc, by simpa using h1, by
          rwa [show y0 + (r + 1) = y0 + 1 + r by omega]⟩
    · rintro (h | ⟨r, hr, c, hc, h1, h2⟩)
      · exact .inl (.inl h)
      · cases r with
        | zero => exact .inl (.inr ⟨c, hc, by simpa using h1, by simpa using h2⟩)
        | succ r =>
          exact .inr ⟨r, by simpa using hr, c, hc, by simpa using h1, by
            rwa [show y0 + 1 + r = y0 + (r + 1) by omega]⟩

/-- The blit, cell by cell: the sprite's pixel is XORed onto the cell (46_drawing.md R285, R286). -/
theorem blit_at (wrap : OriginWrap) (fb : Framebuffer) (ox oy : Byte) (rows : List Byte) {x y : Nat}
    (hx : x < Size.fbW) (hy : y < Size.fbH) :
    (blit wrap fb ox oy rows).1.at x y = (fb.at x y ^^ spritePixel wrap ox oy rows x y) :=
  blitRows_at _ _ rows (fb, false) hx hy

/-- The blit's collision bit: a drawn pixel of the sprite is 1 where the cell held 1 (46_drawing.md R287). -/
theorem blit_collision (wrap : OriginWrap) (fb : Framebuffer) (ox oy : Byte) (rows : List Byte) :
    (blit wrap fb ox oy rows).2 = true ↔
      ∃ x y, x < Size.fbW ∧ y < Size.fbH ∧ spritePixel wrap ox oy rows x y = true ∧ fb.at x y = true := by
  unfold blit
  rw [blitRows_collision]
  constructor
  · rintro (h | ⟨r, hr, c, hc, h1, h2⟩)
    · cases h
    · by_cases hin : (reduceOrigin wrap ox oy).1 + c < Size.fbW ∧ (reduceOrigin wrap ox oy).2 + r < Size.fbH
      · refine ⟨_, _, hin.1, hin.2, ?_, h2⟩
        simp only [spritePixel, Nat.add_sub_cancel_left, Bool.and_eq_true, decide_eq_true_eq]
        exact ⟨by omega, h1⟩
      · rw [Framebuffer.at_outside _ hin] at h2; cases h2
  · rintro ⟨x, y, hx, hy, h1, h2⟩
    simp only [spritePixel, Bool.and_eq_true, decide_eq_true_eq] at h1
    refine .inr ⟨y - (reduceOrigin wrap ox oy).2, by omega, x - (reduceOrigin wrap ox oy).1, by omega, h1.2, ?_⟩
    rwa [show (reduceOrigin wrap ox oy).1 + (x - (reduceOrigin wrap ox oy).1) = x by omega,
      show (reduceOrigin wrap ox oy).2 + (y - (reduceOrigin wrap ox oy).2) = y by omega]

end Sys2Proof.Machine
end

