-- ==== Sys2Proof/Laws/PerInstr.lean ====
section
/-! SUPPORT. Per instruction: its word has the fixed bits of its row of 30_encoding.md R105. -/

namespace Sys2Proof

theorem and_fifteen (a : BitVec 4) : a &&& 15#4 = a := by revert a; decide

theorem and_255 (a : Byte) : a &&& 255#8 = a := BitVec.and_allOnes

theorem packNNN_masked (op : BitVec 4) (nnn : BitVec 12) : packNNN op nnn &&& 0xF000 = packNNN op 0 := by
  rw [show (0xF000 : Word) = packNNN 0xF 0 from rfl, packNNN, packNNN, BitVec.and_append, packNNN]
  simp [and_fifteen]

theorem packXKK_masked (op : BitVec 4) (x : Reg) (kk : Byte) : packXKK op x kk &&& 0xF000 = packXKK op 0 0 := by
  rw [show (0xF000 : Word) = packXKK 0xF 0 0 from rfl, packXKK, packXKK, BitVec.and_append, BitVec.and_append, packXKK]
  simp [regField, and_fifteen]

theorem packXKK_masked_sub (op : BitVec 4) (x : Reg) (kk : Byte) : packXKK op x kk &&& 0xF0FF = packXKK op 0 kk := by
  rw [show (0xF0FF : Word) = packXKK 0xF 0 0xFF from rfl, packXKK, packXKK, BitVec.and_append, BitVec.and_append, packXKK]
  simp [regField, and_fifteen, and_255]

theorem packXYN_masked (op : BitVec 4) (x y : Reg) (n : BitVec 4) : packXYN op x y n &&& 0xF000 = packXYN op 0 0 0 := by
  rw [show (0xF000 : Word) = packXYN 0xF 0 0 0 from rfl, packXYN, packXYN, BitVec.and_append, BitVec.and_append,
    BitVec.and_append, packXYN]
  simp [regField, and_fifteen]

theorem packXYN_masked_sub (op : BitVec 4) (x y : Reg) (n : BitVec 4) :
    packXYN op x y n &&& 0xF00F = packXYN op 0 0 n := by
  rw [show (0xF00F : Word) = packXYN 0xF 0 0 0xF from rfl, packXYN, packXYN, BitVec.and_append, BitVec.and_append,
    BitVec.and_append, packXYN]
  simp [regField, and_fifteen]

end Sys2Proof

namespace Sys2Proof.Laws.RowMatch

/-- The instruction's word belongs to the instruction's row (30_encoding.md R104, R105). -/
def Statement (i : Instr) : Prop := rowMatches (opcodeRow i) (encode i) = true

theorem cls : Statement .cls := rfl
theorem ret : Statement .ret := rfl
theorem jp (nnn : BitVec 12) : Statement (.jp nnn) :=
  beq_iff_eq.2 (packNNN_masked _ _)
theorem call (nnn : BitVec 12) : Statement (.call nnn) :=
  beq_iff_eq.2 (packNNN_masked _ _)
theorem seImm (x : Reg) (kk : Byte) : Statement (.seImm x kk) :=
  beq_iff_eq.2 (packXKK_masked _ _ _)
theorem sneImm (x : Reg) (kk : Byte) : Statement (.sneImm x kk) :=
  beq_iff_eq.2 (packXKK_masked _ _ _)
theorem seReg (x : Reg) (y : Reg) : Statement (.seReg x y) :=
  beq_iff_eq.2 (packXYN_masked_sub _ _ _ _)
theorem ldImm (x : Reg) (kk : Byte) : Statement (.ldImm x kk) :=
  beq_iff_eq.2 (packXKK_masked _ _ _)
theorem addImm (x : Reg) (kk : Byte) : Statement (.addImm x kk) :=
  beq_iff_eq.2 (packXKK_masked _ _ _)
theorem ldReg (x : Reg) (y : Reg) : Statement (.ldReg x y) :=
  beq_iff_eq.2 (packXYN_masked_sub _ _ _ _)
theorem orReg (x : Reg) (y : Reg) : Statement (.orReg x y) :=
  beq_iff_eq.2 (packXYN_masked_sub _ _ _ _)
theorem andReg (x : Reg) (y : Reg) : Statement (.andReg x y) :=
  beq_iff_eq.2 (packXYN_masked_sub _ _ _ _)
theorem xorReg (x : Reg) (y : Reg) : Statement (.xorReg x y) :=
  beq_iff_eq.2 (packXYN_masked_sub _ _ _ _)
theorem addReg (x : Reg) (y : Reg) : Statement (.addReg x y) :=
  beq_iff_eq.2 (packXYN_masked_sub _ _ _ _)
theorem subReg (x : Reg) (y : Reg) : Statement (.subReg x y) :=
  beq_iff_eq.2 (packXYN_masked_sub _ _ _ _)
theorem shr (x : Reg) (y : Reg) : Statement (.shr x y) :=
  beq_iff_eq.2 (packXYN_masked_sub _ _ _ _)
theorem subn (x : Reg) (y : Reg) : Statement (.subn x y) :=
  beq_iff_eq.2 (packXYN_masked_sub _ _ _ _)
theorem shl (x : Reg) (y : Reg) : Statement (.shl x y) :=
  beq_iff_eq.2 (packXYN_masked_sub _ _ _ _)
theorem sneReg (x : Reg) (y : Reg) : Statement (.sneReg x y) :=
  beq_iff_eq.2 (packXYN_masked_sub _ _ _ _)
theorem ldI (nnn : BitVec 12) : Statement (.ldI nnn) :=
  beq_iff_eq.2 (packNNN_masked _ _)
theorem jpV0 (nnn : BitVec 12) : Statement (.jpV0 nnn) :=
  beq_iff_eq.2 (packNNN_masked _ _)
theorem rnd (x : Reg) (kk : Byte) : Statement (.rnd x kk) :=
  beq_iff_eq.2 (packXKK_masked _ _ _)
theorem drw (x : Reg) (y : Reg) (n : Nat) : Statement (.drw x y n) :=
  beq_iff_eq.2 (packXYN_masked _ _ _ _)
theorem skp (x : Reg) : Statement (.skp x) :=
  beq_iff_eq.2 (packXKK_masked_sub _ _ _)
theorem sknp (x : Reg) : Statement (.sknp x) :=
  beq_iff_eq.2 (packXKK_masked_sub _ _ _)
theorem ldVxDT (x : Reg) : Statement (.ldVxDT x) :=
  beq_iff_eq.2 (packXKK_masked_sub _ _ _)
theorem ldVxK (x : Reg) : Statement (.ldVxK x) :=
  beq_iff_eq.2 (packXKK_masked_sub _ _ _)
theorem ldDTVx (x : Reg) : Statement (.ldDTVx x) :=
  beq_iff_eq.2 (packXKK_masked_sub _ _ _)
theorem ldSTVx (x : Reg) : Statement (.ldSTVx x) :=
  beq_iff_eq.2 (packXKK_masked_sub _ _ _)
theorem addI (x : Reg) : Statement (.addI x) :=
  beq_iff_eq.2 (packXKK_masked_sub _ _ _)
theorem ldF (x : Reg) : Statement (.ldF x) :=
  beq_iff_eq.2 (packXKK_masked_sub _ _ _)
theorem ldB (x : Reg) : Statement (.ldB x) :=
  beq_iff_eq.2 (packXKK_masked_sub _ _ _)
theorem ldStore (x : Reg) : Statement (.ldStore x) :=
  beq_iff_eq.2 (packXKK_masked_sub _ _ _)
theorem ldLoad (x : Reg) : Statement (.ldLoad x) :=
  beq_iff_eq.2 (packXKK_masked_sub _ _ _)

end Sys2Proof.Laws.RowMatch
end

