-- ==== Sys2Proof/Laws/Step.lean ====
section
/-! SUPPORT. What a step can be: whose turn it is, and what that agent does. -/

namespace Sys2Proof.Machine

/-- With no agent's step listed, the Executor steps. -/
theorem step_of_idle {s : State} (h : s.pending = []) : step s = executorStep s := by
  simp [step, nextAgentStep, h]

/-- With agents' steps listed, the first of them is taken. -/
theorem step_of_pending {s : State} {a : Activation} {as : List Activation} (h : s.pending = a :: as) :
    step s = activate a s.dropPending := by
  simp [step, nextAgentStep, h]

/-- A running Executor fetches, decodes and executes. -/
theorem executorStep_running {s : State} (h : s.execState = .running) : executorStep s = fetchExecute s := by
  simp [executorStep, instrTick, h, ExecState.isRunning]

theorem instrTick_running {s : State} (h : s.execState = .running) : instrTick s = fetchExecute s := by
  simp [instrTick, h, ExecState.isRunning]

/-- An instruction tick has no effect unless EXEC is Running (60_exceptions.md R353). -/
theorem instrTick_not_running {s : State} (h : s.execState ≠ .running) : instrTick s = .next s := by
  have : s.execState.isRunning = false := by
    cases he : s.execState <;> simp_all [ExecState.isRunning]
  simp [instrTick, this]

theorem fetchExecute_of_decode {s : State} {ins : Instr} (h : decode s.fetchWord = .ok ins) :
    fetchExecute s = exec ins s := by
  simp [fetchExecute, h]

theorem fetchExecute_of_error {s : State} {e : DecodeError} (h : decode s.fetchWord = .error e) :
    fetchExecute s = .next (s.takeFault (.decodeError s.fetchWord)) := by
  simp [fetchExecute, h, State.conclude]

/-- A completed wait (47_input.md R315). -/
theorem keyWaitDone_of_key {s : State} {x : Reg} {k : Key} (hx : s.execState = .waitKey x) (hk : s.notify = some k) :
    keyWaitDone s = (s.consumeKey x k).setExec .running := by
  simp [keyWaitDone, hx, hk]

theorem keyWaitDone_of_empty {s : State} (hk : s.notify = none) : keyWaitDone s = s := by
  cases he : s.execState <;> simp [keyWaitDone, he, hk]

theorem keyWaitDone_of_not_waiting {s : State} (h : ∀ x, s.execState ≠ .waitKey x) : keyWaitDone s = s := by
  cases he : s.execState <;> simp_all [keyWaitDone]

/-- The state an agent's step starts from: `s` with its turn taken off the list. -/
theorem State.dropPending_idle {s : State} (h : s.pending = []) : s.dropPending = s := by
  cases s; simp_all [State.dropPending]

/-- Everything an agent's step can do: an instruction tick of a running CORE, the completion of a wait, a timer tick, a key
event, a stop; or nothing, where the step is not enabled. -/
theorem activate_cases {a : Activation} {s t : State} (h : activate a s = .next t) :
    (a = .instrTick ∧ s.execState = .running ∧ fetchExecute s = .next t)
      ∨ (a = .keyWaitDone ∧ t = keyWaitDone s)
      ∨ (a = .timerTick ∧ t = timerTick s)
      ∨ (∃ k pressed, a = .keyEvent k pressed ∧ t = acceptKey k pressed s)
      ∨ (a = .stop ∧ t = stopSignal s)
      ∨ (a = .instrTick ∧ s.execState ≠ .running ∧ t = s) := by
  cases a with
  | instrTick =>
    by_cases hr : s.execState = .running
    · exact .inl ⟨rfl, hr, by rwa [activate, instrTick_running hr] at h⟩
    · rw [activate, instrTick_not_running hr] at h
      cases h
      exact .inr (.inr (.inr (.inr (.inr ⟨rfl, hr, rfl⟩))))
  | keyWaitDone => cases h; exact .inr (.inl ⟨rfl, rfl⟩)
  | timerTick => cases h; exact .inr (.inr (.inl ⟨rfl, rfl⟩))
  | keyEvent k pressed => cases h; exact .inr (.inr (.inr (.inl ⟨k, pressed, rfl, rfl⟩)))
  | stop => cases h; exact .inr (.inr (.inr (.inr (.inl ⟨rfl, rfl⟩))))

/-- Every step is one of five, by the agent whose turn it is: an instruction tick of a running CORE, the completion of a
wait, a timer tick, a key event, a stop; or nothing was enabled. It starts from the state with its turn taken off the
list. -/
theorem step_cases {s t : State} (h : step s = .next t) :
    (s.execState = .running ∧ fetchExecute s.dropPending = .next t)
      ∨ t = keyWaitDone s.dropPending
      ∨ ((∃ as, s.pending = .timerTick :: as) ∧ t = timerTick s.dropPending)
      ∨ (∃ k pressed, (∃ as, s.pending = .keyEvent k pressed :: as) ∧ t = acceptKey k pressed s.dropPending)
      ∨ ((∃ as, s.pending = .stop :: as) ∧ t = stopSignal s.dropPending)
      ∨ t = s.dropPending := by
  have tick : ∀ u : State, instrTick u = .next t → (u.execState = .running ∧ fetchExecute u = .next t) ∨ t = u := by
    intro u hu
    by_cases hr : u.execState = .running
    · exact .inl ⟨hr, by rwa [instrTick_running hr] at hu⟩
    · rw [instrTick_not_running hr] at hu
      cases hu
      exact .inr rfl
  cases hp : s.pending with
  | nil =>
    rw [step_of_idle hp] at h
    rw [State.dropPending_idle hp]
    unfold executorStep at h
    split at h
    · cases h; exact .inr (.inl rfl)
    · rcases tick s h with h' | h'
      · exact .inl h'
      · exact .inr (.inr (.inr (.inr (.inr h'))))
  | cons a as =>
    rw [step_of_pending hp] at h
    cases a with
    | instrTick =>
      rcases tick _ h with h' | h'
      · exact .inl h'
      · exact .inr (.inr (.inr (.inr (.inr h'))))
    | keyWaitDone => cases h; exact .inr (.inl rfl)
    | timerTick => cases h; exact .inr (.inr (.inl ⟨⟨as, rfl⟩, rfl⟩))
    | keyEvent k pressed => cases h; exact .inr (.inr (.inr (.inl ⟨k, pressed, ⟨as, rfl⟩, rfl⟩)))
    | stop => cases h; exact .inr (.inr (.inr (.inr (.inl ⟨⟨as, rfl⟩, rfl⟩))))

/-- A run of several steps begins with the first. -/
theorem run_of_next {s t : State} (h : step s = .next t) (k : Nat) :
    Host.Core.run core (k + 1) s = Host.Core.run core k t := by
  have e : core.step s = .next t := h
  refine (Host.Core.run.eq_2 core s k).trans ?_
  rw [e]

end Sys2Proof.Machine
end

