-- ==== Sys2Proof/Laws/Under.lean ====
section
/-! SUPPORT. With this hardware's values of the parameters, the machine under a configuration is the machine of Step.lean,
and State has the sizes they name (00_scope.md R10). -/

namespace Sys2Proof.Machine

theorem execUnder_hardware (i : Instr) (s : State) : execUnder hardware i s = exec i s := by cases i <;> rfl

theorem fetchExecuteUnder_hardware (s : State) : fetchExecuteUnder hardware s = fetchExecute s := by
  unfold fetchExecuteUnder fetchExecute
  cases decode s.fetchWord with
  | ok ins => exact execUnder_hardware ins s
  | error => rfl

theorem instrTickUnder_hardware (s : State) : instrTickUnder hardware s = instrTick s := by
  simp only [instrTickUnder, instrTick, fetchExecuteUnder_hardware]

theorem executorStepUnder_hardware (s : State) : executorStepUnder hardware s = executorStep s := by
  unfold executorStepUnder executorStep
  cases s.execState with
  | waitKey => rfl
  | _ => exact instrTickUnder_hardware s

theorem activateUnder_hardware (a : Activation) (s : State) : activateUnder hardware a s = activate a s := by
  cases a <;> first | exact instrTickUnder_hardware s | rfl

/-- The machine's step is the step under this hardware's values. -/
theorem stepUnder_hardware (s : State) : stepUnder hardware s = step s := by
  unfold stepUnder step nextAgentStep
  cases s.pending with
  | nil => exact executorStepUnder_hardware s
  | cons a as => exact activateUnder_hardware a s.dropPending

/-- A word decodes to a DRW of each row count up to 15 and of no other. -/
theorem drw_rows (n : Nat) : (∃ w x y, decode w = .ok (.drw x y n)) ↔ n ≤ 15 := by
  constructor
  · rintro ⟨w, x, y, h⟩
    unfold decode decodeGroup8 decodeGroupF at h
    repeat' split at h
    all_goals cases h
    have := (fieldN w).isLt
    omega
  · intro h
    have rows : ∀ k : Fin 16, decode (packXYN 0xD 0 0 (BitVec.ofNat 4 k.val)) = .ok (.drw 0 0 k.val) := by decide
    exact ⟨_, 0, 0, rows ⟨n, Nat.lt_succ_of_le h⟩⟩

/-- State has the sizes this hardware's parameters name. -/
theorem hardware_fitsState : FitsState hardware where
  memSize _ := rfl
  nreg _ := Vector.length_toList
  regBits _ _ := rfl
  iBits _ := rfl
  pcBits _ := rfl
  stackDepth _ := Vector.length_toList
  stackEntryBits _ _ _ := rfl
  spRange n := ⟨fun ⟨s, h⟩ => ⟨Nat.zero_le _, h ▸ Nat.le_of_lt_succ s.sp.isLt⟩,
    fun h => ⟨{ State.reset with sp := ⟨n, Nat.lt_succ_of_le h.2⟩ }, rfl⟩⟩
  timerBits _ := ⟨rfl, rfl⟩
  fbW _ _ _ := Vector.length_toList
  fbH _ := Vector.length_toList
  nkeys _ := Vector.length_toList
  spriteMaxRows := drw_rows
  fontSize := ⟨rfl, rfl⟩

end Sys2Proof.Machine
end

