-- ==== Sys2Proof/Machine/Assembly.lean ====
section
/-! DEFINITION. The written form of an instruction: the mnemonics of 30_encoding.md R105 and the operand syntax of R110. It
names instructions and no meaning depends on it (R109). -/

namespace Sys2Proof.Machine

/-- A hexadecimal digit, 0..9 and A..F. -/
def hexDigit (d : Nat) : Char := Char.ofNat (if d < 10 then 48 + d else 55 + d)

/-- The last `width` hexadecimal digits of a number, most significant first. -/
def hexDigits : Nat → Nat → List Char
  | 0, _ => []
  | width + 1, n => hexDigits width (n / 16) ++ [hexDigit (n % 16)]

/-- `0x` and the digits: how `nnn` (three) and `kk` (two) are written (30_encoding.md R110). -/
def hexText (width n : Nat) : String := "0x" ++ String.ofList (hexDigits width n)

/-- `V0`..`VF` (30_encoding.md R110). -/
def regText (r : Reg) : String := "V" ++ String.ofList [hexDigit r.val]

/-- `n`, in decimal, 0..15 (30_encoding.md R110). -/
def rowsText (n : Nat) : String := toString n

/-- An instruction as the spec writes it (30_encoding.md R105, R110). -/
def asmText : Instr → String
  | .cls => "CLS"
  | .ret => "RET"
  | .jp nnn => "JP " ++ hexText 3 nnn.toNat
  | .call nnn => "CALL " ++ hexText 3 nnn.toNat
  | .seImm x kk => "SE " ++ regText x ++ ", " ++ hexText 2 kk.toNat
  | .sneImm x kk => "SNE " ++ regText x ++ ", " ++ hexText 2 kk.toNat
  | .seReg x y => "SE " ++ regText x ++ ", " ++ regText y
  | .ldImm x kk => "LD " ++ regText x ++ ", " ++ hexText 2 kk.toNat
  | .addImm x kk => "ADD " ++ regText x ++ ", " ++ hexText 2 kk.toNat
  | .ldReg x y => "LD " ++ regText x ++ ", " ++ regText y
  | .orReg x y => "OR " ++ regText x ++ ", " ++ regText y
  | .andReg x y => "AND " ++ regText x ++ ", " ++ regText y
  | .xorReg x y => "XOR " ++ regText x ++ ", " ++ regText y
  | .addReg x y => "ADD " ++ regText x ++ ", " ++ regText y
  | .subReg x y => "SUB " ++ regText x ++ ", " ++ regText y
  | .shr x y => "SHR " ++ regText x ++ ", " ++ regText y
  | .subn x y => "SUBN " ++ regText x ++ ", " ++ regText y
  | .shl x y => "SHL " ++ regText x ++ ", " ++ regText y
  | .sneReg x y => "SNE " ++ regText x ++ ", " ++ regText y
  | .ldI nnn => "LD I, " ++ hexText 3 nnn.toNat
  | .jpV0 nnn => "JP V0, " ++ hexText 3 nnn.toNat
  | .rnd x kk => "RND " ++ regText x ++ ", " ++ hexText 2 kk.toNat
  | .drw x y n => "DRW " ++ regText x ++ ", " ++ regText y ++ ", " ++ rowsText n
  | .skp x => "SKP " ++ regText x
  | .sknp x => "SKNP " ++ regText x
  | .ldVxDT x => "LD " ++ regText x ++ ", DT"
  | .ldVxK x => "LD " ++ regText x ++ ", K"
  | .ldDTVx x => "LD DT, " ++ regText x
  | .ldSTVx x => "LD ST, " ++ regText x
  | .addI x => "ADD I, " ++ regText x
  | .ldF x => "LD F, " ++ regText x
  | .ldB x => "LD B, " ++ regText x
  | .ldStore x => "LD [I], " ++ regText x
  | .ldLoad x => "LD " ++ regText x ++ ", [I]"

end Sys2Proof.Machine
end

