-- ==== Sys2Proof/Tests/Slice0.lean ====
section
/-! SUPPORT. Tests. Expected results are the vectors of 95_test_vectors.md (named L1-n, A1, B1, ... in the comments), worked
examples of the rules, and words written out from the patterns of 30_encoding.md R105. The second part gives, for every
statement that has hypotheses, states and operands that meet them. -/

namespace Sys2Proof.Tests
open Sys2Proof.Machine Sys2Proof.Claims

/-! ## Helpers -/

/-- The outcome is a next state with the property `p`. -/
def ran (o : Host.Outcome State Fault Refusal) (p : State → Bool) : Bool :=
  match o with
  | .next t => p t
  | .fault _ => false
  | .refused _ => false

/-- The outcome is a refusal. -/
def isRefused (o : Host.Outcome State Fault Refusal) : Bool :=
  match o with
  | .next _ => false
  | .fault _ => false
  | .refused _ => true

/-- `s` with the word `w` at PC. -/
def placed (w : Word) (s : State) : State := s.placeNext [w.extractLsb' 8 8, w.extractLsb' 0 8]

/-- One step of the machine on the word `w` at PC ends in a state with the property `p`. -/
def ticked (w : Word) (s : State) (p : State → Bool) : Bool := ran (step (placed w s)) p

/-- The step on `w` faults, with this record, and changes nothing else. -/
def Faults (w : Word) (s : State) (cause : Fault) (pc : Word) : Prop :=
  step (placed w s) = .next ((placed w s).setExec (.faulted { cause := cause, pc := pc, word := w }))

/-- The reset state with some registers set. -/
def regs (l : List (Reg × Byte)) : State := l.foldl (fun s p => s.setV p.1 p.2) State.reset

/-- A state with SP set. -/
def withSP (n : Fin 17) (s : State) : State := { s with sp := n }

/-- A state with some bytes in memory. -/
def bytesAt (a : Nat) (bs : List Byte) (s : State) : State := s.loadBytes a bs

/-- A state with the cell (0, 0) or another cell set. -/
def lit (x y : Nat) (s : State) : State :=
  if h : x < Size.fbW ∧ y < Size.fbH then { s with fb := s.fb.setCell x y h.1 h.2 true } else s

/-- The set cells of a region at the top left, as (column, row). -/
def litCells (s : State) (w h : Nat) : List (Nat × Nat) :=
  (List.range h).flatMap fun y => (List.range w).filterMap fun x => if s.fb.at x y then some (x, y) else none

/-- The reset state waiting for a key. -/
def waiting (x : Reg) (n : Option Key) : State := { State.reset with execState := .waitKey x, notify := n }

/-! ## Well-formedness: DRW's row count is a `u4` -/

theorem test_wf_refuses_row_count_16 : (Instr.drw 0 0 16).wf = false := by decide
theorem test_wf_accepts_row_count_15 : (Instr.drw 0 0 15).wf = true := by decide

/-! ## Decoding: one word per constructor, from the patterns of 30_encoding.md R105 -/

theorem test_decode_control :
    decode 0x00E0 = .ok .cls ∧ decode 0x00EE = .ok .ret ∧ decode 0x1ABC = .ok (.jp 0xABC)
      ∧ decode 0x2DEF = .ok (.call 0xDEF) ∧ decode 0xB123 = .ok (.jpV0 0x123) := by decide

theorem test_decode_skips :
    decode 0x3A05 = .ok (.seImm 10 0x05) ∧ decode 0x4B17 = .ok (.sneImm 11 0x17) ∧ decode 0x5AB0 = .ok (.seReg 10 11)
      ∧ decode 0x9CD0 = .ok (.sneReg 12 13) ∧ decode 0xE59E = .ok (.skp 5) ∧ decode 0xE6A1 = .ok (.sknp 6) := by decide

theorem test_decode_loads :
    decode 0x6AFF = .ok (.ldImm 10 0xFF) ∧ decode 0x7A01 = .ok (.addImm 10 0x01) ∧ decode 0x8120 = .ok (.ldReg 1 2)
      ∧ decode 0xC30F = .ok (.rnd 3 0x0F) := by decide

theorem test_decode_group_8 :
    decode 0x8121 = .ok (.orReg 1 2) ∧ decode 0x8232 = .ok (.andReg 2 3) ∧ decode 0x8343 = .ok (.xorReg 3 4)
      ∧ decode 0x8454 = .ok (.addReg 4 5) ∧ decode 0x8565 = .ok (.subReg 5 6) ∧ decode 0x8676 = .ok (.shr 6 7)
      ∧ decode 0x8787 = .ok (.subn 7 8) ∧ decode 0x889E = .ok (.shl 8 9) := by decide

theorem test_decode_index_and_draw :
    decode 0xA050 = .ok (.ldI 0x050) ∧ decode 0xF21E = .ok (.addI 2) ∧ decode 0xF429 = .ok (.ldF 4)
      ∧ decode 0xF533 = .ok (.ldB 5) ∧ decode 0xF655 = .ok (.ldStore 6) ∧ decode 0xF765 = .ok (.ldLoad 7)
      ∧ decode 0xD125 = .ok (.drw 1 2 5) := by decide

theorem test_decode_timers_and_key :
    decode 0xF307 = .ok (.ldVxDT 3) ∧ decode 0xFA15 = .ok (.ldDTVx 10) ∧ decode 0xF118 = .ok (.ldSTVx 1)
      ∧ decode 0xF30A = .ok (.ldVxK 3) := by decide

/-- I1 and group 0. -/
theorem test_decode_illegal_group_0 :
    decode 0x0000 = .error (.illegalWord 0x0000) ∧ decode 0x0123 = .error (.illegalWord 0x0123)
      ∧ decode 0x00E1 = .error (.illegalWord 0x00E1) ∧ decode 0x00FF = .error (.illegalWord 0x00FF) := by decide

/-- I2, I3, I5, C8, D18. -/
theorem test_decode_illegal :
    decode 0x800F = .error (.illegalWord 0x800F) ∧ decode 0x8128 = .error (.illegalWord 0x8128)
      ∧ decode 0xE09F = .error (.illegalWord 0xE09F) ∧ decode 0xF019 = .error (.illegalWord 0xF019)
      ∧ decode 0x9AB1 = .error (.illegalWord 0x9AB1) ∧ decode 0x5121 = .error (.illegalWord 0x5121) := by decide

theorem test_decode_short_list : decodeBytes [0x12] = .error .truncated := by rfl
theorem test_decode_bytes_rest : decodeBytes [0x6A, 0xFF, 0x12] = .ok (.ldImm 10 0xFF, [0x12]) := by rfl
theorem test_encode_bytes_big_endian : encodeBytes (.ldImm 10 0xFE) = [0x6A, 0xFE] := by decide
theorem test_table_word : decodeTableWord 16 0xD125 = some (.drw 1 2 5) := by decide
theorem test_table_has_34_rows : opcodeTable.length = 34 := by decide

/-! ## Reset (J1 to J3) -/

/-- J1, the registers and memory. -/
theorem test_reset_with_image :
    ran (State.resetWith [0x12, 0x00]) (fun s =>
      s.pc == 0x200 && s.memRead 0x200 == 0x12 && s.memRead 0x201 == 0x00 && s.memRead 0x202 == 0x00
        && s.memRead 0x050 == 0xF0 && s.memRead 0x09F == 0x80 && s.sp == 0 && decide (s.execState = .running)) = true := by
  rw [State.resetWith_eq, if_pos (by decide)]
  decide

/-- J2. -/
theorem test_reset_refuses_long_image :
    State.resetWith (List.replicate 3585 0) = .refused (.imageTooLong 3585) := by
  rw [State.resetWith_eq, if_neg (by rw [List.length_replicate]; decide), List.length_replicate]

/-- J2: the longest image is not refused. -/
theorem reset_with_longest_image : ∃ s, State.resetWith (List.replicate 3584 0xFF) = .next s := by
  rw [State.resetWith_eq, if_pos (by rw [List.length_replicate])]
  exact ⟨_, rfl⟩

theorem reset_with_no_image : State.resetWith [] = .next State.reset := by
  rw [State.resetWith_eq, if_pos (by decide)]
  rfl

/-- J3. -/
theorem test_reset_empty_image_faults :
    step State.reset = .next (State.reset.setExec (.faulted { cause := .decodeError 0, pc := 0x200, word := 0 })) := by rfl

theorem test_font_glyph_A : State.reset.memReadList 0x082 5 = [0xF0, 0x90, 0xF0, 0x90, 0x90] := by decide

/-! ## Fetch and cycle (A1 to A7) -/

/-- A2: a fetch at 0xFFF takes its low byte from 0x000. -/
theorem test_fetch_wraps : (bytesAt 0xFFF [0x12] (State.reset.setPC 0xFFF)).fetchWord = 0x1200 := by decide

/-- A3: PC keeps 0x1000, the fetch reads 0x000. -/
theorem test_fetch_above_memory :
    ran (step (State.reset.setPC 0x1000)) (fun t =>
      decide (t.execState = .faulted { cause := .decodeError 0, pc := 0x1000, word := 0 }) && t.pc == 0x1000) = true := by
  decide

/-- A4: an odd PC. -/
theorem test_fetch_odd : ticked 0x6B01 (State.reset.setPC 0x201) (fun t => t.getV 11 == 1 && t.pc == 0x203) = true := by decide

/-- A5: PC wraps modulo 65536. -/
theorem test_pc_wraps : ticked 0x6001 (State.reset.setPC 0xFFFE) (fun t => t.getV 0 == 1 && t.pc == 0) = true := by decide

/-- A7. -/
theorem test_self_jump :
    step (placed 0x120C (State.reset.setPC 0x20C)) = .next (placed 0x120C (State.reset.setPC 0x20C)) := by rfl

/-- A6. -/
theorem test_stop :
    ran (step { State.reset with pending := [.stop, .instrTick] }) (fun t =>
      decide (t.execState = .stopped) && decide (t.emitted = [.stop]) && decide (t.pending = [.instrTick])) = true := by
  decide

/-- A6, no further step. -/
theorem test_stopped_keeps_state :
    step { State.reset with execState := .stopped, pending := [.keyEvent 1 true] }
      = .next { State.reset with execState := .stopped } := by rfl

theorem test_with_fetch_word : ran (step (State.reset.withFetchWord 16 0x6A33)) (fun t => t.getV 10 == 0x33) = true := by decide

/-! ## Control flow (B1 to B10) -/

/-- B1. -/
theorem test_cls :
    ticked 0x00E0 (lit 3 4 (regs [(15, 7)])) (fun t =>
      litCells t 8 8 == [] && decide (t.emitted = [.flush]) && t.pc == 0x202 && t.getV 15 == 7) = true := by
  decide

/-- B2. -/
theorem test_ret :
    ticked 0x00EE (withSP 1 { State.reset with stack := State.reset.stack.set 0 0x206 }) (fun t =>
      t.sp == 0 && t.pc == 0x206 && t.stack[0] == 0x206) = true := by
  decide

/-- B3. -/
theorem test_ret_underflow : Faults 0x00EE (State.reset.setPC 0x300) (.stackUnderflow 0) 0x300 := by rfl

/-- B4. -/
theorem test_jp : ticked 0x1ABC State.reset (fun t => t.pc == 0xABC) = true := by decide

/-- B5. -/
theorem test_call :
    ticked 0x2210 (State.reset.setPC 0x204) (fun t => t.stack[0] == 0x206 && t.sp == 1 && t.pc == 0x210) = true := by
  decide

/-- B6. -/
theorem test_call_overflow : Faults 0x2210 (withSP 16 (State.reset.setPC 0x204)) (.stackOverflow 16) 0x204 := by rfl

/-- B8: the sum is not reduced. -/
theorem test_jpV0 : ticked 0xBFFF (regs [(0, 0x02)]) (fun t => t.pc == 0x1001) = true := by decide

/-- B10: always V0, and an odd target. -/
theorem test_jpV0_reads_V0 : ticked 0xB000 (regs [(0, 0xFF)]) (fun t => t.pc == 0x0FF) = true := by decide

/-! ## Skips (L1-6, C1 to C14) -/

/-- L1-6. -/
theorem test_seImm :
    ticked 0x3A05 (regs [(10, 5)]) (fun t => t.pc == 0x204) = true
      ∧ ticked 0x3A05 (regs [(10, 6)]) (fun t => t.pc == 0x202) = true := by
  decide

/-- C14. -/
theorem test_skip_wraps : ticked 0x3000 (State.reset.setPC 0xFFFC) (fun t => t.pc == 0) = true := by decide

/-- C1, C2. -/
theorem test_sneImm :
    ticked 0x4410 (regs [(4, 0x10)]) (fun t => t.pc == 0x202) = true
      ∧ ticked 0x4410 (regs [(4, 0x11)]) (fun t => t.pc == 0x204) = true := by
  decide

/-- C3, C4. -/
theorem test_seReg :
    ticked 0x5120 (regs [(1, 0x7F), (2, 0x7F)]) (fun t => t.pc == 0x204) = true
      ∧ ticked 0x5120 (regs [(1, 0x7F), (2, 0x7E)]) (fun t => t.pc == 0x202) = true := by
  decide

/-- C6, C7. -/
theorem test_sneReg :
    ticked 0x9120 (regs [(1, 0x7F), (2, 0x7E)]) (fun t => t.pc == 0x204) = true
      ∧ ticked 0x9120 (regs [(1, 0x7F), (2, 0x7F)]) (fun t => t.pc == 0x202) = true := by
  decide

/-- C9, C10. -/
theorem test_skp :
    ticked 0xE59E (acceptKey 0xC true (regs [(5, 0x0C)])) (fun t => t.pc == 0x204) = true
      ∧ ticked 0xE59E (regs [(5, 0x0C)]) (fun t => t.pc == 0x202) = true := by
  decide

/-- C12. -/
theorem test_skp_range : Faults 0xE59E (regs [(5, 0x10)]) (.keyIndexRange 0x10) 0x200 := by rfl

/-- C11, and its reverse. -/
theorem test_sknp :
    ticked 0xE5A1 (regs [(5, 0x0C)]) (fun t => t.pc == 0x204) = true
      ∧ ticked 0xE5A1 (acceptKey 0xC true (regs [(5, 0x0C)])) (fun t => t.pc == 0x202) = true := by
  decide

theorem test_sknp_range : Faults 0xE5A1 (regs [(5, 0xFF)]) (.keyIndexRange 0xFF) 0x200 := by rfl

/-- C13, the other KEY_INDEX_POLICY: key 0. -/
theorem test_keyIndex_low_nibble : (keyIndex .lowNibble 0x10).toOption = some 0 := by decide

/-! ## Arithmetic (L1-1 to L1-5, D1 to D17) -/

/-- D1. -/
theorem test_ldImm : ticked 0x6C42 State.reset (fun t => t.getV 12 == 0x42) = true := by decide

/-- D2. -/
theorem test_addImm : ticked 0x7303 (regs [(3, 0xFE), (15, 5)]) (fun t => t.getV 3 == 1 && t.getV 15 == 5) = true := by decide

/-- D3. -/
theorem test_ldReg : ticked 0x8120 (regs [(2, 0x33)]) (fun t => t.getV 1 == 0x33 && t.getV 2 == 0x33) = true := by decide

/-- D4. -/
theorem test_orReg :
    ticked 0x8121 (regs [(1, 0x0F), (2, 0xF0), (15, 7)]) (fun t => t.getV 1 == 0xFF && t.getV 15 == 7) = true := by decide

/-- D4. -/
theorem test_andReg :
    ticked 0x8122 (regs [(1, 0x0F), (2, 0xF0), (15, 7)]) (fun t => t.getV 1 == 0x00 && t.getV 15 == 7) = true := by decide

/-- D4, D5. -/
theorem test_xorReg :
    ticked 0x8123 (regs [(1, 0x0F), (2, 0xF0), (15, 7)]) (fun t => t.getV 1 == 0xFF && t.getV 15 == 7) = true
      ∧ ticked 0x8113 (regs [(1, 0xAA)]) (fun t => t.getV 1 == 0) = true := by
  decide

/-- L1-1. -/
theorem test_addReg :
    ticked 0x8124 (regs [(1, 0xFF), (2, 0x01)]) (fun t => t.getV 1 == 0 && t.getV 15 == 1) = true
      ∧ ticked 0x8124 (regs [(1, 0x7F), (2, 0x01)]) (fun t => t.getV 1 == 0x80 && t.getV 15 == 0) = true := by
  decide

/-- D6, D7. -/
theorem test_addReg_same_and_flag :
    ticked 0x8334 (regs [(3, 0x90)]) (fun t => t.getV 3 == 0x20 && t.getV 15 == 1) = true
      ∧ ticked 0x8F14 (regs [(15, 0x80), (1, 0x80)]) (fun t => t.getV 15 == 1) = true := by
  decide

/-- L1-2. -/
theorem test_subReg :
    ticked 0x8125 (regs [(1, 0x05), (2, 0x03)]) (fun t => t.getV 1 == 0x02 && t.getV 15 == 1) = true
      ∧ ticked 0x8125 (regs [(1, 0x03), (2, 0x05)]) (fun t => t.getV 1 == 0xFE && t.getV 15 == 0) = true := by
  decide

/-- L1-2: equal operands borrow nothing and clear the flag. -/
theorem test_subReg_equal :
    ticked 0x8125 (regs [(1, 0x05), (2, 0x05), (15, 9)]) (fun t => t.getV 1 == 0 && t.getV 15 == 0) = true := by decide

/-- L1-3, D12. -/
theorem test_shr :
    ticked 0x8106 (regs [(1, 0x81)]) (fun t => t.getV 1 == 0x40 && t.getV 15 == 1) = true
      ∧ ticked 0x8126 (regs [(1, 0x01), (2, 0xAB)]) (fun t => t.getV 1 == 0 && t.getV 15 == 1 && t.getV 2 == 0xAB) = true := by
  decide

/-- D15, both values of FLAG_ORDER. -/
theorem test_shr_flag_order :
    ticked 0x8F06 (regs [(15, 0x02)]) (fun t => t.getV 15 == 0) = true
      ∧ ((regs [(15, 0x02)]).writeWithFlag .resultLast 15 (shiftRight 0x02)).getV 15 = 1 := by
  decide

/-- D9, D10, D11. -/
theorem test_subn :
    ticked 0x8127 (regs [(1, 0x03), (2, 0x05)]) (fun t => t.getV 1 == 0x02 && t.getV 15 == 1) = true
      ∧ ticked 0x8127 (regs [(1, 0x05), (2, 0x03)]) (fun t => t.getV 1 == 0xFE && t.getV 15 == 0) = true
      ∧ ticked 0x8127 (regs [(1, 0x05), (2, 0x05)]) (fun t => t.getV 1 == 0x00 && t.getV 15 == 0) = true := by
  decide

/-- L1-3, D13. -/
theorem test_shl :
    ticked 0x810E (regs [(1, 0x81)]) (fun t => t.getV 1 == 0x02 && t.getV 15 == 1) = true
      ∧ ticked 0x810E (regs [(1, 0x01), (15, 3)]) (fun t => t.getV 1 == 0x02 && t.getV 15 == 0) = true := by
  decide

/-- D16, D17: the byte is free, the mask is not. -/
theorem test_rnd :
    ∃ t, step (placed 0xC30F State.reset) = .next t ∧ t.getV 3 = Config.randByte 0 &&& 0x0F ∧ t.draws = 1 :=
  ⟨_, rfl, rfl, rfl⟩

/-! ## Index and memory (L1-11, E1 to E13) -/

/-- E1. -/
theorem test_ldI : ticked 0xAFFF State.reset (fun t => t.i == 0xFFF) = true := by decide

/-- E2, E3. -/
theorem test_addI :
    ticked 0xF01E (regs [(0, 1), (15, 8)] |>.setI 0x0FFF) (fun t => t.i == 0x1000 && t.getV 15 == 8) = true
      ∧ ticked 0xF01E (regs [(0, 1)] |>.setI 0xFFFF) (fun t => t.i == 0) = true := by
  decide

/-- E4, E5. -/
theorem test_ldF :
    ticked 0xF429 (regs [(4, 0x0A)]) (fun t => t.i == 0x82) = true
      ∧ ticked 0xF429 (regs [(4, 0x1F)]) (fun t => t.i == 0x9B) = true := by
  decide

/-- E6. -/
theorem test_ldB :
    ticked 0xF033 (regs [(0, 0xFF)] |>.setI 0x300) (fun t => t.memReadList 0x300 3 == [2, 5, 5] && t.i == 0x300) = true
      ∧ ticked 0xF033 (regs [(0, 0x64)] |>.setI 0x300) (fun t => t.memReadList 0x300 3 == [1, 0, 0]) = true := by
  decide

/-- E7. -/
theorem test_ldB_reserved : Faults 0xF033 (regs [(0, 7)] |>.setI 0x0FFF) (.reservedWrite 0) 0x200 := by rfl

/-- E8, the other RESERVED_WRITE. -/
theorem test_ldB_allowed :
    (match (State.reset.memWriteList { hardware with reservedWrite := .allow } 0x0FFF (bcdDigits 7)) with
      | .ok t => t.memRead 0xFFF == 0 && t.memRead 0 == 0 && t.memRead 1 == 7
      | .error _ => false) = true := by
  decide

/-- E9. -/
theorem test_ldStore :
    ticked 0xF155 (regs [(0, 0x11), (1, 0x22), (2, 0x33)] |>.setI 0x400) (fun t =>
      t.memReadList 0x400 3 == [0x11, 0x22, 0] && t.i == 0x400) = true := by
  decide

/-- E10. -/
theorem test_ldStore_reserved :
    Faults 0xF155 (regs [(0, 1), (1, 2)] |>.setI 0x01FF) (.reservedWrite 0x1FF) 0x200 := by rfl

/-- E12: the address wraps. -/
theorem test_ldLoad_wraps :
    ticked 0xF165 (bytesAt 0xFFF [0xAB] (regs [(1, 9)] |>.setI 0x0FFF)) (fun t => t.getV 0 == 0xAB && t.getV 1 == 0) = true := by
  decide

/-- E13. -/
theorem test_ldLoad_font :
    ticked 0xF465 (regs [(5, 9)] |>.setI 0x0050) (fun t =>
      t.valuesUpTo 5 == [0xF0, 0x90, 0x90, 0x90, 0xF0, 9] && t.i == 0x50) = true := by
  decide

/-! ## Timers (F1 to F8) -/

/-- F1. -/
theorem test_ldVxDT :
    ticked 0xF307 { State.reset with dt := 0x3C } (fun t => t.getV 3 == 0x3C && t.dt == 0x3C) = true := by decide

/-- F2, F8. -/
theorem test_ldDTVx :
    ticked 0xFA15 (regs [(10, 3)]) (fun t => t.dt == 3) = true
      ∧ ticked 0xF015 { State.reset with dt := 9 } (fun t => t.dt == 0) = true := by
  decide

/-- F3. -/
theorem test_ldSTVx : ticked 0xF118 (regs [(1, 0x0A)]) (fun t => t.st == 0x0A && t.tone && t.dt == 0) = true := by decide

/-- F4, F5. -/
theorem test_timer_tick :
    (timerTick { State.reset with dt := 1 }).dt = 0 ∧ (timerTick { State.reset with dt := 1 }).st = 0
      ∧ (timerTick { State.reset with st := 1 }).tone = false := by
  decide

/-- F6, F7. -/
theorem test_timer_tick_waiting_and_stopped :
    (timerTick { waiting 0 none with dt := 5, st := 2 }).dt = 4 ∧ (timerTick { waiting 0 none with dt := 5, st := 2 }).st = 1
      ∧ (timerTick { State.reset with dt := 5, execState := .stopped }).dt = 5 := by
  decide

/-! ## Drawing (L1-4, L1-8, G1 to G8) -/

/-- L1-4. -/
theorem test_drw_glyph_0 :
    ticked 0xD005 (State.reset.setI 0x050) (fun t =>
      litCells t 9 6 == [(0, 0), (1, 0), (2, 0), (3, 0), (0, 1), (3, 1), (0, 2), (3, 2), (0, 3), (3, 3), (0, 4), (1, 4), (2, 4), (3, 4)]
        && t.getV 15 == 0 && decide (t.emitted = [.flush])) = true := by
  decide

/-- G3: clipped at the right and at the bottom. -/
theorem test_drw_clips :
    ticked 0xD125 (regs [(1, 0x3E), (2, 0x1E)] |>.setI 0x050) (fun t =>
      t.fb.at 62 30 && t.fb.at 63 30 && t.fb.at 62 31 && !t.fb.at 63 31 && !t.fb.at 0 30 && !t.fb.at 62 0) = true := by
  decide

/-- G1, G2: origins reduced modulo 63 and 31; and the other ORIGIN_WRAP. -/
theorem test_origin :
    reduceOrigin .dimMinus1 0x3F 0x00 = (0, 0) ∧ reduceOrigin .dimMinus1 0x40 0x1F = (1, 0)
      ∧ reduceOrigin .dim 0x3F 0x1F = (63, 31) := by
  decide

/-- G5: x = F reads VF before it is overwritten; G6: the sprite's addresses wrap. -/
theorem test_drw_reads_before_flag_and_wraps :
    ticked 0xDF21 (regs [(15, 8)] |>.setI 0x050) (fun t => litCells t 13 1 == [(8, 0), (9, 0), (10, 0), (11, 0)] && t.getV 15 == 0) = true
      ∧ (bytesAt 0xFFE [0x80, 0x80] State.reset).memReadList 0xFFE 3 = [0x80, 0x80, 0] := by
  decide

/-- G7, G8. -/
theorem test_drw_collision :
    ticked 0xD121 (lit 0 0 (State.reset.setI 0x050)) (fun t => litCells t 5 1 == [(1, 0), (2, 0), (3, 0)] && t.getV 15 == 1) = true
      ∧ ticked 0xD121 (lit 0 1 (State.reset.setI 0x050)) (fun t => t.fb.at 0 1 && t.getV 15 == 0) = true := by
  decide

/-- R282: a raw cell access outside the framebuffer, or of a value that is no bit, is refused. -/
theorem test_raw_cell_access :
    isRefused (State.reset.fbSet 64 0 1) = true ∧ isRefused (State.reset.fbSet 0 0 2) = true
      ∧ ran (State.reset.fbSet 63 31 1) (fun t => t.fb.at 63 31) = true := by
  decide

/-! ## Input (H1 to H11) -/

/-- H1, H2. -/
theorem test_key_press :
    (acceptKey 5 true State.reset).isPressed 5 = true ∧ (acceptKey 5 true State.reset).notify = some 5
      ∧ (acceptKey 9 true (acceptKey 5 true State.reset)).notify = some 9 := by
  decide

/-- H3, H11. -/
theorem test_key_release_and_stopped :
    (acceptKey 9 false (acceptKey 9 true State.reset)).isPressed 9 = false
      ∧ (acceptKey 9 false (acceptKey 9 true State.reset)).notify = some 9
      ∧ (acceptKey 1 true { State.reset with execState := .stopped }).isPressed 1 = false := by
  decide

/-- H4. -/
theorem test_ldVxK_consumes :
    ticked 0xF20A { State.reset with notify := some 9 } (fun t =>
      t.getV 2 == 9 && decide (t.notify = none) && decide (t.execState = .running) && t.pc == 0x202) = true := by
  decide

/-- L1-9's first step; and H5, the other KEY_WAIT_STALE. -/
theorem test_ldVxK_waits :
    ticked 0xF30A State.reset (fun t => decide (t.execState = .waitKey 3) && t.pc == 0x202) = true
      ∧ (({ State.reset with notify := some 9 }.onKeyWaitEntry .clearOnEntry).awaitKey 2).execState = .waitKey 2 := by
  decide

/-- H6, H7. -/
theorem test_wait_goes_on :
    instrTick (waiting 2 none) = .next (waiting 2 none)
      ∧ (acceptKey 4 false (waiting 2 none)).execState = .waitKey 2 := by
  exact ⟨rfl, rfl⟩

/-- H8, H10. -/
theorem test_completion :
    (keyWaitDone (waiting 2 (some 4))).getV 2 = 4 ∧ (keyWaitDone (waiting 2 (some 4))).execState = .running
      ∧ (keyWaitDone (waiting 15 (some 3))).getV 15 = 3 := by
  decide

/-- H9. -/
theorem test_stop_ends_wait :
    (stopSignal (waiting 2 none)).execState = .stopped ∧ (stopSignal (waiting 2 none)).getV 2 = 0 := by decide

/-! ## The ports (60_exceptions.md R331, R355) -/

theorem test_fault_codes :
    [Fault.decodeError 0, .stackOverflow 16, .stackUnderflow 0, .reservedWrite 0, .keyIndexRange 0].map Fault.code
      = [1, 2, 3, 4, 5] := by
  decide

theorem test_observe : State.reset.observe.pc = 0x200 ∧ State.reset.observe.notify = none := by decide

/-! ## Written forms (30_encoding.md R110), from the programs P1 and P3 -/

theorem test_asm :
    asmText (.ldImm 1 0x05) = "LD V1, 0x05" ∧ asmText (.jp 0x204) = "JP 0x204" ∧ asmText (.drw 11 12 5) = "DRW VB, VC, 5"
      ∧ asmText (.ldF 10) = "LD F, VA" := by decide

/-! ## Witnesses: states and operands that meet the hypotheses of the statements, clause by clause -/

/-- `DecodeAndEncodeAgree`. -/
theorem witness_decode_and_encode : (Instr.drw 15 15 15).wf = true ∧ decode 0xDFFF = .ok (.drw 15 15 15) := by decide

/-- `EachWordMatchesAtMostOneRow`. -/
theorem witness_row : decode 0x8AB4 = .ok (.addReg 10 11) ∧ opcodeRow (.addReg 10 11) ∈ opcodeTable
    ∧ rowMatches (opcodeRow (.addReg 0 0)) 0x8AB4 = true := by decide

/-- `IllegalWordsRaiseDecodeError`: a running state whose word at PC is illegal, for a word of each group. -/
theorem witness_illegal_words :
    (placed 0x0FFF State.reset).execState = .running ∧ (placed 0x0FFF State.reset).fetchWord = 0x0FFF
      ∧ (placed 0x5001 State.reset).fetchWord = 0x5001 ∧ (placed 0x9ABF State.reset).fetchWord = 0x9ABF
      ∧ (placed 0x8008 State.reset).fetchWord = 0x8008 ∧ (placed 0xE000 State.reset).fetchWord = 0xE000
      ∧ (placed 0xFFFF State.reset).fetchWord = 0xFFFF := by
  decide

/-- `ReturnPopsOrUnderflows`: one address, a full stack, an empty stack. -/
theorem witness_return :
    (withSP 1 State.reset).sp.val = 0 + 1 ∧ (withSP 16 State.reset).sp.val = 15 + 1 ∧ State.reset.sp = 0 := by decide

/-- `CallPushesOrOverflows`: an empty stack, one with room for one address, a full one. -/
theorem witness_call :
    State.reset.sp.val < 16 ∧ (withSP 15 State.reset).sp.val < 16 ∧ (withSP 16 State.reset).sp = 16 := by decide

/-- `CallThenReturnResumes`: the highest SP and the lowest, and after the CALL a state with its SP in which the entry at SP,
left there by an inner CALL, is not what it was. -/
theorem witness_call_then_return :
    (withSP 15 State.reset).sp.val < 16 ∧ State.reset.sp.val < 16
      ∧ ∃ t, exec (.call 0x300) State.reset = .next t
        ∧ ∃ u : State, u.sp = t.sp ∧ (∀ (j : Nat) (h : j < 16), j < t.sp.val → u.stack[j] = t.stack[j])
          ∧ u.stack[1] ≠ t.stack[1] := by
  refine ⟨by decide, by decide, _, rfl, { State.reset with sp := 1, stack := #v[0x202, 0x99, 0, 0, 0, 0, 0, 0, 0, 0, 0, 0, 0, 0, 0, 0] },
    rfl, fun j h hj => ?_, by decide⟩
  obtain rfl : j = 0 := by
    have : j < 1 := hj
    omega
  rfl

/-- `KeySkips`: key indices 0 and 0xF, and 0x10. -/
theorem witness_key_skips :
    ((regs [(5, 0)]).getV 5).toNat = (0 : Key).val ∧ ((regs [(5, 0x0F)]).getV 5).toNat = (15 : Key).val
      ∧ ((regs [(5, 0x10)]).getV 5).toNat > 0xF := by
  decide

/-- `StoreDecimalDigits`: the lowest and the highest free I, and the first reserved address the first, second or third. -/
theorem witness_store_digits :
    State.reset.mem.wf = true
      ∧ (∀ j < 3, 0x200 ≤ slot (State.reset.setI 0x200) j) ∧ (∀ j < 3, 0x200 ≤ slot (State.reset.setI 0xFFD) j)
      ∧ FirstReserved (State.reset.setI 0x1FF) 3 0 ∧ FirstReserved (State.reset.setI 0xFFF) 3 1
      ∧ FirstReserved (State.reset.setI 0xFFE) 3 2 := by
  unfold FirstReserved
  decide

/-- `StoreRegisters`, `BlockTransferRestoresRegisters`: all registers at the lowest and the highest free I; one register; the
first reserved address the first or the last. -/
theorem witness_store_registers :
    State.reset.mem.wf = true
      ∧ (∀ j < (15 : Reg).val + 1, 0x200 ≤ slot (State.reset.setI 0x200) j)
      ∧ (∀ j < (15 : Reg).val + 1, 0x200 ≤ slot (State.reset.setI 0xFF0) j)
      ∧ (∀ j < (0 : Reg).val + 1, 0x200 ≤ slot (State.reset.setI 0x1FFF) j)
      ∧ FirstReserved (State.reset.setI 0x1FF) ((15 : Reg).val + 1) 0
      ∧ FirstReserved (State.reset.setI 0xFF1) ((15 : Reg).val + 1) 15 := by
  unfold FirstReserved
  decide

/-- `BlockTransferRestoresRegisters`: the state after the store is itself a state with its I and memory. -/
theorem witness_block_transfer :
    ∃ t, exec (.ldStore 15) (State.reset.setI 0xFF0) = .next t ∧ ∃ u : State, u.i = t.i ∧ u.mem = t.mem :=
  ⟨_, rfl, _, rfl, rfl⟩

/-- `FetchSeesTheStore`: the first word and the last one stored, the second through a PC above memory. -/
theorem witness_fetch_sees_store :
    (∀ k < (15 : Reg).val + 1, 0x200 ≤ slot (State.reset.setI 0x20A) k)
      ∧ (0 : Reg) < 15 ∧ cellOf (0x20A : Word).toNat = slot (State.reset.setI 0x20A) (0 : Reg).val
      ∧ (14 : Reg) < 15 ∧ cellOf (0xF218 : Word).toNat = slot (State.reset.setI 0x20A) (14 : Reg).val := by
  decide

/-- `TimerTickCountsDown`, `KeyEventUpdatesTable`, `StopSignalStops`: live in two ways, and not live in two ways. -/
theorem witness_live :
    State.reset.execState.isLive = true ∧ (waiting 15 none).execState.isLive = true
      ∧ (State.reset.setExec .stopped).execState.isLive = false
      ∧ (State.reset.takeFault (.decodeError 0)).execState.isLive = false := by
  decide

/-- A running state at a jump to itself, with both timers set. -/
def looping : State := { placed 0x1200 State.reset with dt := 1, st := 2 }

theorem looping_executes (ins : Instr) (s : State) (h : s.Executes ins) (hw : s.fetchWord = 0x1200) :
    ins = .jp 0x200 := by
  have hd : decode 0x1200 = .ok (.jp 0x200) := by decide
  have h2 := h.2
  rw [hw, hd] at h2
  exact (Except.ok.inj h2).symm

/-- `TimerFallsOncePerTick`: ticks of both cadences, undisturbed. -/
theorem witness_timer_falls :
    (∃ t, runActivations [.timerTick, .instrTick, .timerTick] looping = .next t)
      ∧ Undisturbed (fun ins => ∃ x, ins = .ldDTVx x) [.timerTick, .instrTick, .timerTick] looping
      ∧ Undisturbed (fun ins => ∃ x, ins = .ldSTVx x) [.timerTick, .instrTick, .timerTick] looping := by
  have word : (timerTick looping).fetchWord = 0x1200 := by decide
  have tick : activate .instrTick (timerTick looping) = .next (timerTick looping) := by rfl
  have run : ∀ stops : Instr → Prop, ¬ stops (.jp 0x200) →
      Undisturbed stops [.timerTick, .instrTick, .timerTick] looping := by
    intro stops hs
    refine ⟨by decide, fun h => (nomatch h), fun t h => ?_⟩
    cases h
    refine ⟨by decide, fun _ ins hi hstop => hs (looping_executes ins _ hi word ▸ hstop), fun t h => ?_⟩
    rw [tick] at h
    cases h
    exact ⟨by decide, fun h => (nomatch h), fun t h => trivial⟩
  exact ⟨⟨_, rfl⟩, run _ (fun ⟨_, h⟩ => nomatch h), run _ (fun ⟨_, h⟩ => nomatch h)⟩

/-- `ToneFollowsSoundTimer`: Fx18 turns the tone on, a timer tick turns it off. -/
theorem witness_tone :
    (∃ t, activate .instrTick (placed 0xF118 (regs [(1, 1)])) = .next t
        ∧ t.tone ≠ (placed 0xF118 (regs [(1, 1)])).tone)
      ∧ ∃ t, activate .timerTick { State.reset with st := 1 } = .next t ∧ t.tone ≠ { State.reset with st := 1 }.tone :=
  ⟨⟨_, rfl, by decide⟩, _, rfl, by decide⟩

theorem reset_fb_at (px py : Nat) : State.reset.fb.at px py = false := by
  simp [Framebuffer.at, Framebuffer.cell, State.reset]

/-- `DrawSprite`: a sprite that collides, at the first and at the last cell, and one that does not. -/
theorem witness_draw :
    Collides (lit 0 0 (State.reset.setI 0x050)) 0 0 1
      ∧ Collides (lit 63 31 (regs [(0, 0x3E), (1, 0x1E)] |>.setI 0x055)) 0 1 2
      ∧ ¬ Collides (State.reset.setI 0x050) 0 0 5 := by
  refine ⟨⟨0, 0, by decide⟩, ⟨63, 31, by decide⟩, ?_⟩
  rintro ⟨px, py, _, _, _, h⟩
  exact absurd (reset_fb_at px py) (by rw [show State.reset.fb.at px py = true from h]; decide)

/-- `DrawingTwiceRestores`: a clear screen, a sprite with a 1 inside the screen, at its last cell too, and one without. -/
theorem witness_drawing_twice :
    (1 : Reg) ≠ 15 ∧ (2 : Reg) ≠ 15 ∧ State.reset.fb = Framebuffer.clear
      ∧ SpriteHasPixel (State.reset.setI 0x050) 1 2 5 ∧ ¬ SpriteHasPixel (State.reset.setI 0x050) 1 2 0 := by
  refine ⟨by decide, by decide, rfl, ⟨0, 0, by decide⟩, ?_⟩
  rintro ⟨px, py, _, _, h⟩
  simp only [spriteOn, Bool.and_eq_true, decide_eq_true_eq] at h
  omega

/-- A state to draw from row 30 on, I at the given address: from 0x300 a sprite with a 1 in its rows 0 and 2, from 0x303
one with a 1 in its row 2 alone. -/
def lowSprites (i : Word) : State := bytesAt 0x300 [0x80, 0, 0x80, 0, 0, 0x80] (regs [(1, 30)] |>.setI i)

theorem lowSprites_origin (i : Word) : ((lowSprites i).getV 1).toNat % 31 = 30 := rfl

/-- `DisjointDrawsCommute`: two sprites side by side on a clear screen, and two that have a 1 of both below the screen only,
in row 32. -/
theorem witness_disjoint_draws :
    (regs [(0, 8)] |>.setI 0x050).fb = (State.reset.setI 0x050).fb
      ∧ (State.reset.setI 0x050).fb = Framebuffer.clear
      ∧ (∀ px py, px < 64 → py < 32 → ¬ (spriteOn (State.reset.setI 0x050) 0 1 5 px py = true
          ∧ spriteOn (regs [(0, 8)] |>.setI 0x050) 0 1 5 px py = true))
      ∧ (lowSprites 0x303).fb = (lowSprites 0x300).fb ∧ (lowSprites 0x300).fb = Framebuffer.clear
      ∧ (∀ px py, px < 64 → py < 32 →
          ¬ (spriteOn (lowSprites 0x300) 0 1 3 px py = true ∧ spriteOn (lowSprites 0x303) 0 1 3 px py = true))
      ∧ spriteOn (lowSprites 0x300) 0 1 3 0 32 = true ∧ spriteOn (lowSprites 0x303) 0 1 3 0 32 = true := by
  refine ⟨rfl, rfl, fun px py _ _ h => ?_, rfl, rfl, fun px py _ hy h => ?_, by decide, by decide⟩
  · have h0 : ((State.reset.setI 0x050).getV 0).toNat % 63 = 0 := by decide
    have h8 : ((regs [(0, 8)] |>.setI 0x050).getV 0).toNat % 63 = 8 := by decide
    simp only [spriteOn, Bool.and_eq_true, decide_eq_true_eq] at h
    omega
  · have h2 := h.2
    simp only [spriteOn, lowSprites_origin, Bool.and_eq_true] at h2
    have empty : (lowSprites 0x303).memRead ((lowSprites 0x303).base + (py - 30)) = 0 := by
      obtain h | h : py - 30 = 0 ∨ py - 30 = 1 := by omega
      all_goals rw [h]; decide
    rw [empty] at h2
    simp at h2

/-- A configuration with the other value of every parameter that has two (00_scope.md R10). -/
def other : Config :=
  { hardware with
    originWrap := .dim, timersDuringKeyWait := false, keyWaitStale := .clearOnEntry, reservedWrite := .allow,
    keyIndexPolicy := .lowNibble, flagOrder := .resultLast, resetFill := .arbitrary }

/-- `ResultLastKeepsTheResult`, `OtherKeyAndTimerPolicies`, `AllowedWritesReachTheReservedArea`, `DrawFromTheOtherOrigin`: a
configuration with the other values, keys of low nibble 0 and 0xF, a waiting state, memory in canonical form, and a sprite
that collides at the origin (63, 31). -/
theorem witness_other :
    other.flagOrder = .resultLast ∧ other.keyIndexPolicy = .lowNibble ∧ other.keyWaitStale = .clearOnEntry
      ∧ other.timersDuringKeyWait = false ∧ other.reservedWrite = .allow ∧ other.originWrap = .dim
      ∧ ((regs [(5, 0x10)]).getV 5).toNat % 16 = (0 : Key).val ∧ ((regs [(5, 0xFF)]).getV 5).toNat % 16 = (15 : Key).val
      ∧ (waiting 3 none).execState = .waitKey 3 ∧ State.reset.mem.wf = true
      ∧ ∃ px py, px < 64 ∧ py < 32
          ∧ spriteOnDim (lit 63 31 (regs [(0, 0x7F), (1, 0x1F)] |>.setI 0x050)) 0 1 1 px py = true
          ∧ (lit 63 31 (regs [(0, 0x7F), (1, 0x1F)] |>.setI 0x050)).fb.at px py = true :=
  ⟨rfl, rfl, rfl, rfl, rfl, rfl, by decide, by decide, rfl, rfl, 63, 31, by decide⟩

/-- `ResetUnderArbitraryFill`: a state before with values of its own and a written byte, and the longest image. -/
theorem witness_arbitrary_fill :
    (bytesAt 0x300 [7] (regs [(3, 9)])).mem.wf = true ∧ (List.replicate 3584 (0xFF : Byte)).length ≤ 3584 :=
  ⟨by decide, by rw [List.length_replicate]⟩

/-- C13, D15 and H5 with the other values, and a timer tick in the wait (60_exceptions.md R344). -/
theorem test_other_values :
    ran (stepUnder other (placed 0xE59E (acceptKey 0 true (regs [(5, 0x10)])))) (fun t => t.pc == 0x204) = true
      ∧ ran (stepUnder other (placed 0x8F06 (regs [(15, 0x02)]))) (fun t => t.getV 15 == 1) = true
      ∧ ran (stepUnder other (placed 0xF20A { State.reset with notify := some 9 })) (fun t =>
          decide (t.execState = .waitKey 2) && decide (t.notify = none)) = true
      ∧ ran (stepUnder other { waiting 0 none with dt := 5, pending := [.timerTick] }) (fun t => t.dt == 5) = true := by
  decide

/-- R51, ARBITRARY: V3 and a byte of free memory are left, PC and SP are not. -/
theorem test_arbitrary_fill :
    let s := (State.filled .arbitrary (withSP 4 (bytesAt 0x300 [7] (regs [(3, 9)]))))
    s.getV 3 = 9 ∧ s.memRead 0x300 = 7 ∧ s.sp = 0 := by
  decide

/-- `FlushAfterClearAndDrawOnly`, `OnlyListedInstructionsWriteVF`, `OtherInstructionsAdvancePC`, `ElementsHaveTheirWriters`:
instructions of each kind that answer a next state. `TickEndsInOneOfThreeWays`: a running state. -/
theorem witness_instructions :
    (∃ t, exec .cls State.reset = .next t) ∧ (∃ t, exec (.drw 1 2 15) State.reset = .next t)
      ∧ (∃ t, exec (.ldImm 14 1) State.reset = .next t)
      ∧ (Instr.ldImm 14 1).mayWriteVF = false ∧ (Instr.ldLoad 14).mayWriteVF = false
      ∧ writesPC (.ldImm 14 1) = false ∧ State.reset.execState = .running
      ∧ ¬ ∃ rec, State.reset.execState = .faulted rec := by
  refine ⟨⟨_, rfl⟩, ⟨_, rfl⟩, ⟨_, rfl⟩, by decide, by decide, by decide, rfl, ?_⟩
  rintro ⟨rec, h⟩
  cases h

/-- `KeyWaitConsumesOrSuspends`: key 0 and key 0xF held, and none. -/
theorem witness_key_wait :
    { State.reset with notify := some 0 }.notify = some 0 ∧ { State.reset with notify := some 15 }.notify = some 15
      ∧ State.reset.notify = none := by decide

/-- `KeyWaitCompletes`: waiting with a key and without one. -/
theorem witness_completion :
    (waiting 15 (some 0)).execState = .waitKey 15 ∧ (waiting 15 (some 0)).notify = some 0
      ∧ (waiting 0 none).execState = .waitKey 0 ∧ (waiting 0 none).notify = none := by decide

/-- `KeyWaitEndsWithThePress`: steps before and after the press. -/
theorem witness_key_wait_law :
    (waiting 3 none).execState = .waitKey 3 ∧ (waiting 3 none).notify = none
      ∧ (∀ a ∈ [Activation.instrTick, .keyWaitDone, .keyEvent 4 false], neitherPressNorStop a = true)
      ∧ (∀ a ∈ [Activation.timerTick, .keyEvent 7 false], neitherPressNorStop a = true ∧ a ≠ .keyWaitDone) := by
  decide

/-- The state of a run that completes a wait and then loops at a jump to itself. -/
def fairRun (m : Nat) : State :=
  match m with
  | 0 => { placed 0x1200 State.reset with execState := .waitKey 0, notify := some 7 }
  | _ + 1 => keyWaitDone { placed 0x1200 State.reset with execState := .waitKey 0, notify := some 7 }

/-- Its agents: the completion, and then ticks of the two cadences in turn. -/
def fairWho (m : Nat) : Activation :=
  match m with
  | 0 => .keyWaitDone
  | k + 1 => if k % 2 = 0 then .instrTick else .timerTick

/-- A running state at the jump to itself at 0x200 is left as it is by an instruction tick (A7). -/
theorem self_jump_tick (u : State) (hr : u.execState = .running) (hw : u.fetchWord = 0x1200) (hp : u.pc = 0x200) :
    activate .instrTick u = .next u := by
  have hd : decode 0x1200 = .ok (.jp 0x200) := by decide
  simp only [activate, instrTick, hr, ExecState.isRunning, fetchExecute, hw, hd, exec, execJp, if_true]
  obtain ⟨⟩ := u
  cases hp
  rfl

/-- `PostedKeyEndsTheWait`: a weakly fair run with no stop signal that begins in a wait with a key posted. -/
theorem witness_posted_key :
    IsRun fairRun fairWho ∧ WeaklyFair fairRun fairWho ∧ (∀ m, fairWho m ≠ .stop)
      ∧ (fairRun 0).execState = .waitKey 0 ∧ (fairRun 0).notify ≠ none := by
  refine ⟨fun m => ?_, ?_, fun m => ?_, rfl, by decide⟩
  · cases m with
    | zero => rfl
    | succ k =>
      simp only [fairWho]
      split
      · exact self_jump_tick (fairRun 1) rfl (by decide) rfl
      · rfl
  · rintro a (rfl | rfl | rfl) n hn
    · exact ⟨2 * n + 1, by omega, by simp [fairWho]⟩
    · obtain ⟨x, k, hx, -⟩ := hn (n + 1) (by omega)
      cases hx
    · exact ⟨2 * n + 2, by omega, by simp [fairWho, Nat.add_mod]⟩
  · cases m with
    | zero => decide
    | succ k => simp only [fairWho]; split <;> decide

/-- `StepExecutesTheDecodedInstruction`: an instruction tick due with no turn listed and with its turn first. -/
theorem witness_step :
    TickDue (placed 0x00E0 State.reset) ∧ decode (placed 0x00E0 State.reset).fetchWord = .ok .cls
      ∧ TickDue { placed 0x00E0 State.reset with pending := [.instrTick, .stop] } :=
  ⟨⟨rfl, .inl rfl⟩, by decide, ⟨rfl, .inr ⟨_, rfl⟩⟩⟩

/-- `StepIsOneAgentsStep`, `TerminalStatesAreKept`, `DisabledActivationHasNoEffect`, `EveryInterleavingIsAdmitted`: each of
their cases. -/
theorem witness_turns :
    { State.reset with pending := [.stop] }.pending = .stop :: [] ∧ State.reset.pending = []
      ∧ (waiting 1 none).pending = [] ∧ (waiting 1 none).execState = .waitKey 1
      ∧ (∀ x, State.reset.execState ≠ .waitKey x)
      ∧ (State.reset.setExec .stopped).execState = .stopped
      ∧ (∃ rec, (State.reset.takeFault (.decodeError 0)).execState = .faulted rec)
      ∧ (placed 0x00E0 State.reset).Executes .cls :=
  ⟨rfl, rfl, rfl, rfl, fun _ => by decide +revert, rfl, ⟨_, rfl⟩, rfl, by decide⟩

/-- `FaultsArePreciseAndCaused`: each cause. -/
theorem witness_faults :
    (∃ t rec, activate .instrTick (placed 0x0000 State.reset) = .next t ∧ t.execState = .faulted rec)
      ∧ (∃ t rec, activate .instrTick (placed 0x2210 (withSP 16 State.reset)) = .next t ∧ t.execState = .faulted rec)
      ∧ (∃ t rec, activate .instrTick (placed 0x00EE State.reset) = .next t ∧ t.execState = .faulted rec)
      ∧ (∃ t rec, activate .instrTick (placed 0xF033 (State.reset.setI 0xFFE)) = .next t ∧ t.execState = .faulted rec)
      ∧ (∃ t rec, activate .instrTick (placed 0xFF55 (State.reset.setI 0xFF1)) = .next t ∧ t.execState = .faulted rec)
      ∧ (∃ t rec, activate .instrTick (placed 0xE59E (regs [(5, 0x10)])) = .next t ∧ t.execState = .faulted rec)
      ∧ (∃ t rec, activate .instrTick (placed 0xE5A1 (regs [(5, 0x10)])) = .next t ∧ t.execState = .faulted rec) :=
  ⟨⟨_, _, rfl, rfl⟩, ⟨_, _, rfl, rfl⟩, ⟨_, _, rfl, rfl⟩, ⟨_, _, rfl, rfl⟩, ⟨_, _, rfl, rfl⟩, ⟨_, _, rfl, rfl⟩, _, _, rfl, rfl⟩

/-- `ExecStateMovesByTheTable`: each move. `TerminalStatesAreKept`: a step that ends in Stopped. -/
theorem witness_moves :
    (∃ t, activate .instrTick (placed 0xF30A State.reset) = .next t ∧ t.execState = .waitKey 3)
      ∧ (∃ t, activate .keyWaitDone (waiting 3 (some 15)) = .next t ∧ t.execState = .running)
      ∧ (∃ t, activate .stop (waiting 3 none) = .next t ∧ t.execState = .stopped)
      ∧ (∃ t, activate .stop State.reset = .next t ∧ t.execState = .stopped) :=
  ⟨⟨_, rfl, rfl⟩, ⟨_, rfl, rfl⟩, ⟨_, rfl, rfl⟩, _, rfl, rfl⟩

/-- `SelfJumpIsAFixedPoint`. -/
theorem witness_self_jump :
    (placed 0x1200 State.reset).execState = .running ∧ (placed 0x1200 State.reset).SelfJump :=
  ⟨rfl, 0x200, by decide, by decide⟩

/-- `EveryStepKeepsTheInvariant`, `ReservedAreaIsNeverMutated`: a state with the invariant that steps. -/
theorem witness_invariant :
    State.reset.Inv ∧ (∃ t, step State.reset = .next t) ∧ ∃ t, Host.Core.run core 1 State.reset = .next t := by
  refine ⟨⟨by decide, fun a ha => ?_, fun rec h => nomatch h⟩, ⟨_, rfl⟩, ⟨_, rfl⟩⟩
  rw [State.memRead, cellOf, Nat.mod_eq_of_lt (by simp only [Size.memSize]; omega)]
  rfl

/-- `EveryStepKeepsTheInvariant`: a faulted state with the invariant. -/
theorem witness_invariant_faulted : ∃ t : State, step State.reset = .next t ∧ t.RecordTrue ∧ ∃ rec, t.execState = .faulted rec := by
  refine ⟨_, rfl, fun rec h => ?_, _, rfl⟩
  cases h
  exact ⟨rfl, rfl, rfl, by rfl⟩

/-- `ResetHasTheInvariant`, `ResetLeavesTheTable`, `ResetSatisfiesBothFills`: images of no byte and of the most bytes.
`OverlongImageIsRefused`: one byte more. -/
theorem witness_images :
    (List.replicate 3584 (0xFF : Byte)).length ≤ 3584 ∧ (List.replicate 3585 (0xFF : Byte)).length > 3584
      ∧ ([] : List Byte).length ≤ 3584 ∧ State.reset.IsReset .zero []
      ∧ ∃ s, State.resetWith (List.replicate 3584 0xFF) = .next s := by
  exact ⟨by rw [List.length_replicate], by rw [List.length_replicate]; decide, by decide, reset_with_no_image,
    reset_with_longest_image⟩

end Sys2Proof.Tests
end

section
/-! SUPPORT. What each instruction writes: one frame for all instructions, and from it the writers of each element
(10_state.md R33 to R48). -/

namespace Sys2Proof.Machine
open Sys2Proof.Claims

/-- The elements of `t` that an instruction may write when it raises no fault, over those of `s` with PC past the
instruction. -/
def frameOf (ins : Instr) (s t : State) : State :=
  match ins with
  | .cls => { s.nextPC with fb := t.fb, emitted := t.emitted }
  | .drw _ _ _ => { s.nextPC with v := t.v, fb := t.fb, emitted := t.emitted }
  | .ret => { s with sp := t.sp, pc := t.pc }
  | .call _ => { s with stack := t.stack, sp := t.sp, pc := t.pc }
  | .jp _ | .jpV0 _ | .seImm _ _ | .sneImm _ _ | .seReg _ _ | .sneReg _ _ | .skp _ | .sknp _ => { s with pc := t.pc }
  | .ldImm _ _ | .addImm _ _ | .ldReg _ _ | .orReg _ _ | .andReg _ _ | .xorReg _ _ => { s.nextPC with v := t.v }
  | .addReg _ _ | .subReg _ _ | .shr _ _ | .subn _ _ | .shl _ _ => { s.nextPC with v := t.v }
  | .ldVxDT _ | .ldLoad _ => { s.nextPC with v := t.v }
  | .rnd _ _ => { s.nextPC with v := t.v, draws := t.draws }
  | .ldVxK _ => { s.nextPC with v := t.v, notify := t.notify, execState := t.execState }
  | .ldI _ | .addI _ | .ldF _ => { s.nextPC with i := t.i }
  | .ldDTVx _ => { s.nextPC with dt := t.dt }
  | .ldSTVx _ => { s.nextPC with st := t.st }
  | .ldB _ | .ldStore _ => { s.nextPC with mem := t.mem }

/-- A skip after the fetch's advance writes PC only. -/
theorem State.nextPC_skipIf_frame (s : State) (c : Bool) :
    s.nextPC.skipIf c = { s with pc := (s.nextPC.skipIf c).pc } := by
  cases c <;> rfl

/-- An instruction is one of R331 and takes its fault, or it writes within its frame. -/
theorem exec_frame {ins : Instr} {s t : State} (h : exec ins s = .next t) :
    (mayFault ins = true ∧ ∃ f, t = faultedFrom s f) ∨ t = frameOf ins s t := by
  cases ins with
  | ret => exact (execRet_cases h).imp_left fun hf => ⟨rfl, hf⟩
  | call => exact (execCall_cases h).imp_left fun hf => ⟨rfl, hf⟩
  | skp => exact (execSkp_cases h).imp_left fun hf => ⟨rfl, hf⟩
  | sknp => exact (execSknp_cases h).imp_left fun hf => ⟨rfl, hf⟩
  | ldB => exact (execLdB_cases h).imp (fun hf => ⟨rfl, hf⟩) And.right
  | ldStore => exact (execLdStore_cases h).imp (fun hf => ⟨rfl, hf⟩) And.right
  | seImm | sneImm | seReg | sneReg => cases h; exact .inr (State.nextPC_skipIf_frame s _)
  | ldLoad => exact .inr (execLdLoad_frame h)
  | ldVxK => rcases execLdVxK_cases h with ⟨k, -, rfl⟩ | ⟨-, rfl⟩ <;> exact .inr rfl
  | _ => cases h; exact .inr rfl

/-- A register outside the column "writes" of 10_state.md R33 keeps its value. -/
theorem exec_getV_of_not_writesV {ins : Instr} {s t : State} {r : Reg} (h : exec ins s = .next t)
    (hw : writesV ins r = false) : t.getV r = s.getV r := by
  cases ins with
  | ldImm x | addImm x | ldReg x | orReg x | andReg x | xorReg x | ldVxDT x | rnd x =>
    cases h
    exact State.getV_setV_ne _ _ (of_decide_eq_false hw)
  | addReg x | subReg x | shr x | subn x | shl x =>
    obtain ⟨hx, hf⟩ : r ≠ x ∧ r ≠ Reg.vf := by simpa [writesV] using hw
    cases h
    exact (State.getV_setV_ne _ _ hf).trans (State.getV_setV_ne _ _ hx)
  | drw =>
    cases h
    exact State.getV_setV_ne _ _ (of_decide_eq_false hw)
  | ldLoad x =>
    cases h
    rw [(State.loadRegs_spec _ _ _).2, if_neg fun hr => of_decide_eq_false hw (mem_regsUpTo.1 hr)]
    rfl
  | ldVxK x =>
    rcases execLdVxK_cases h with ⟨k, -, rfl⟩ | ⟨-, rfl⟩
    · exact State.getV_setV_ne _ _ (of_decide_eq_false hw)
    · rfl
  | _ =>
    rcases exec_frame h with ⟨-, f, rfl⟩ | hf
    · rfl
    · exact (congrArg (State.getV · r) hf).trans rfl

/-- The instructions of `mayWriteVF` are those whose column "writes" holds VF. -/
theorem mayWriteVF_eq_writesV (ins : Instr) : ins.mayWriteVF = writesV ins 15 := by
  cases ins with
  | ldLoad x => exact decide_eq_decide.2 Fin.last_le_iff.symm
  | _ => simp [Instr.mayWriteVF, writesV, eq_comm]

/-- EXEC is written by Fx0A when it begins to wait, and by a fault taken (40_execution_cycle.md R131). -/
theorem exec_execState_ne {ins : Instr} {s t : State} (h : exec ins s = .next t) (hne : t.execState ≠ s.execState) :
    (∃ x, ins = .ldVxK x ∧ t.execState = .waitKey x) ∨ (mayFault ins = true ∧ ∃ f, t = faultedFrom s f) := by
  rcases exec_frame h with hf | hf
  · exact .inr hf
  · cases ins with
    | ldVxK x =>
      rcases execLdVxK_cases h with ⟨k, -, rfl⟩ | ⟨-, rfl⟩
      · exact absurd rfl hne
      · exact .inl ⟨x, rfl, rfl⟩
    | _ => exact absurd (congrArg State.execState hf) hne

/-! The writers of each other element, of an instruction that writes within its frame. -/

section
variable {ins : Instr} {s t : State} (h : t = frameOf ins s t)
include h

theorem writesPC_of_pc_ne (hne : t.pc ≠ s.pc + 2) : writesPC ins = true := by
  cases ins with
  | ret | jp | call | jpV0 | seImm | sneImm | seReg | sneReg | skp | sknp => rfl
  | _ => exact absurd (congrArg State.pc h) hne

theorem writer_of_i_ne (hne : t.i ≠ s.i) : (∃ nnn, ins = .ldI nnn) ∨ ∃ x, ins = .addI x ∨ ins = .ldF x := by
  cases ins with
  | ldI nnn => exact .inl ⟨nnn, rfl⟩
  | addI x => exact .inr ⟨x, .inl rfl⟩
  | ldF x => exact .inr ⟨x, .inr rfl⟩
  | _ => exact absurd (congrArg State.i h) hne

theorem writer_of_sp_ne (hne : t.sp ≠ s.sp) : ins = .ret ∨ ∃ nnn, ins = .call nnn := by
  cases ins with
  | ret => exact .inl rfl
  | call nnn => exact .inr ⟨nnn, rfl⟩
  | _ => exact absurd (congrArg State.sp h) hne

theorem writer_of_stack_ne (hne : t.stack ≠ s.stack) : ∃ nnn, ins = .call nnn := by
  cases ins with
  | call nnn => exact ⟨nnn, rfl⟩
  | _ => exact absurd (congrArg State.stack h) hne

theorem writer_of_dt_ne (hne : t.dt ≠ s.dt) : ∃ x, ins = .ldDTVx x := by
  cases ins with
  | ldDTVx x => exact ⟨x, rfl⟩
  | _ => exact absurd (congrArg State.dt h) hne

theorem writer_of_st_ne (hne : t.st ≠ s.st) : ∃ x, ins = .ldSTVx x := by
  cases ins with
  | ldSTVx x => exact ⟨x, rfl⟩
  | _ => exact absurd (congrArg State.st h) hne

theorem writer_of_mem_ne (hne : t.mem ≠ s.mem) : ∃ x, ins = .ldB x ∨ ins = .ldStore x := by
  cases ins with
  | ldB x => exact ⟨x, .inl rfl⟩
  | ldStore x => exact ⟨x, .inr rfl⟩
  | _ => exact absurd (congrArg State.mem h) hne

theorem writer_of_fb_ne (hne : t.fb ≠ s.fb) : ins = .cls ∨ ∃ x y n, ins = .drw x y n := by
  cases ins with
  | cls => exact .inl rfl
  | drw x y n => exact .inr ⟨x, y, n, rfl⟩
  | _ => exact absurd (congrArg State.fb h) hne

theorem writer_of_notify_ne (hne : t.notify ≠ s.notify) : ∃ x, ins = .ldVxK x := by
  cases ins with
  | ldVxK x => exact ⟨x, rfl⟩
  | _ => exact absurd (congrArg State.notify h) hne

theorem writer_of_draws_ne (hne : t.draws ≠ s.draws) : ∃ x kk, ins = .rnd x kk := by
  cases ins with
  | rnd x kk => exact ⟨x, kk, rfl⟩
  | _ => exact absurd (congrArg State.draws h) hne

theorem writer_of_emitted_ne (hne : t.emitted ≠ s.emitted) : ins = .cls ∨ ∃ x y n, ins = .drw x y n := by
  cases ins with
  | cls => exact .inl rfl
  | drw x y n => exact .inr ⟨x, y, n, rfl⟩
  | _ => exact absurd (congrArg State.emitted h) hne

theorem key_of_frame : t.key = s.key := by
  cases ins <;> exact (congrArg State.key h).trans rfl

theorem pending_of_frame : t.pending = s.pending := by
  cases ins <;> exact (congrArg State.pending h).trans rfl

end

end Sys2Proof.Machine

namespace Sys2Proof.Proofs
open Sys2Proof.Machine Sys2Proof.Claims

/-- Settles O46: VF is a register outside the instruction's column "writes". -/
theorem onlyListedInstructionsWriteVF : Obligations.OnlyListedInstructionsWriteVF := by
  intro ins s t hvf h
  exact exec_getV_of_not_writesV h (mayWriteVF_eq_writesV ins ▸ hvf)

/-- Settles O47: a fault taken writes EXEC alone, and any other instruction writes within its frame. -/
theorem elementsHaveTheirWriters : Obligations.ElementsHaveTheirWriters := by
  intro ins s t h
  refine ⟨fun r hne => ?_, ?_⟩
  · by_contra hw
    exact hne (exec_getV_of_not_writesV h (Bool.eq_false_of_not_eq_true hw))
  have hexec := exec_execState_ne h
  rcases exec_frame h with ⟨-, f, rfl⟩ | hf
  · refine ⟨fun _ => .inr ⟨f, rfl⟩, ?_, ?_, ?_, ?_, ?_, ?_, ?_, rfl, ?_, hexec, ?_, rfl, ?_⟩ <;>
      exact fun hne => absurd rfl hne
  · exact ⟨fun hne => .inl (writesPC_of_pc_ne hf hne), writer_of_i_ne hf, writer_of_sp_ne hf, writer_of_stack_ne hf,
      writer_of_dt_ne hf, writer_of_st_ne hf, writer_of_mem_ne hf, writer_of_fb_ne hf, key_of_frame hf,
      writer_of_notify_ne hf, hexec, writer_of_draws_ne hf, pending_of_frame hf, writer_of_emitted_ne hf⟩

end Sys2Proof.Proofs
end

section
/-! SUPPORT. What no step can do to memory, and the induction over the steps of a run. -/

namespace Sys2Proof.Machine

/-- The part of the invariant that is about memory: the canonical form, and the reserved area at its reset contents
(70_reset_and_hazards.md R376). -/
def State.MemoryIntact (s : State) : Prop := s.mem.wf = true ∧ s.ReservedIntact

/-- Reads depend on memory alone. -/
theorem State.memRead_congr {s t : State} (h : t.mem = s.mem) (a : Nat) : t.memRead a = s.memRead a := by
  rw [State.memRead, State.memRead, h]

theorem State.MemoryIntact.of_mem_eq {s t : State} (hs : s.MemoryIntact) (h : t.mem = s.mem) : t.MemoryIntact :=
  ⟨h ▸ hs.1, fun a ha => (State.memRead_congr h a).trans (hs.2 a ha)⟩

/-- An instruction leaves memory, or it stores a list of bytes through I that the reserved area does not stop. -/
theorem exec_mem_cases {ins : Instr} {s t : State} (h : exec ins s = .next t) :
    t.mem = s.mem ∨ ∃ bs, s.nextPC.memWriteList hardware s.base bs = .ok t := by
  by_cases hm : t.mem = s.mem
  · exact .inl hm
  rcases exec_frame h with ⟨-, f, rfl⟩ | hf
  · exact .inl rfl
  obtain ⟨x, rfl | rfl⟩ := writer_of_mem_ne hf hm
  · exact (execLdB_cases h).imp (fun ⟨_, hf⟩ => (congrArg State.mem hf).trans rfl) fun ⟨hw, _⟩ => ⟨_, hw⟩
  · exact (execLdStore_cases h).imp (fun ⟨_, hf⟩ => (congrArg State.mem hf).trans rfl) fun ⟨hw, _⟩ => ⟨_, hw⟩

theorem exec_memoryIntact {ins : Instr} {s t : State} (h : exec ins s = .next t) (hs : s.MemoryIntact) :
    t.MemoryIntact := by
  rcases exec_mem_cases h with hm | ⟨bs, hw⟩
  · exact hs.of_mem_eq hm
  · obtain ⟨hwf, hread⟩ := State.memWriteList_keeps hw hs.1
    exact ⟨hwf, fun a ha => (hread a ha).trans (hs.2 a ha)⟩

theorem fetchExecute_memoryIntact {s t : State} (h : fetchExecute s = .next t) (hs : s.MemoryIntact) :
    t.MemoryIntact := by
  cases hd : decode s.fetchWord with
  | ok ins => exact exec_memoryIntact (fetchExecute_of_decode hd ▸ h) hs
  | error e =>
    rw [fetchExecute_of_error hd] at h
    cases h
    exact hs.of_mem_eq rfl

@[simp] theorem keyWaitDone_mem (s : State) : (keyWaitDone s).mem = s.mem := by
  unfold keyWaitDone; split <;> rfl

@[simp] theorem timerTick_mem (s : State) : (timerTick s).mem = s.mem := by
  unfold timerTick timerTickUnder; split <;> rfl

@[simp] theorem acceptKey_mem (k : Key) (pressed : Bool) (s : State) : (acceptKey k pressed s).mem = s.mem := by
  unfold acceptKey; split <;> rfl

@[simp] theorem stopSignal_mem (s : State) : (stopSignal s).mem = s.mem := by
  unfold stopSignal; split <;> rfl

/-- Every step keeps memory's part of the invariant: only an instruction tick can write memory at all. -/
theorem step_memoryIntact {s t : State} (hs : s.MemoryIntact) (h : step s = .next t) : t.MemoryIntact := by
  rcases step_cases h with ⟨-, h⟩ | rfl | ⟨-, rfl⟩ | ⟨k, pressed, -, rfl⟩ | ⟨-, rfl⟩ | rfl
  · exact fetchExecute_memoryIntact h (hs.of_mem_eq rfl)
  all_goals exact hs.of_mem_eq (by simp)

/-- A run of several steps that answers a state is a first step and a run of the rest. -/
theorem run_succ_cases {n : Nat} {s t : State} (h : Host.Core.run core (n + 1) s = .next t) :
    ∃ u, step s = .next u ∧ Host.Core.run core n u = .next t := by
  have hrun := (Host.Core.run.eq_2 core s n).symm.trans h
  cases hstep : step s with
  | next u => exact ⟨u, rfl, (run_of_next hstep n).symm.trans h⟩
  | fault r => rw [show core.step s = .fault r from hstep] at hrun; cases hrun
  | refused r => rw [show core.step s = .refused r from hstep] at hrun; cases hrun

/-- What every step keeps, every run keeps. -/
theorem run_keeps {P : State → Prop} (hstep : ∀ {s t}, P s → step s = .next t → P t) {n : Nat} {s t : State}
    (hs : P s) (h : Host.Core.run core n s = .next t) : P t := by
  induction n generalizing s with
  | zero => cases h; exact hs
  | succ n ih =>
    obtain ⟨u, hu, hrun⟩ := run_succ_cases h
    exact ih (hstep hs hu) hrun

/-- The reset contents of the font area are the font table (10_state.md R45). -/
theorem resetByte_font {j : Nat} (hj : j < 80) : resetByte (0x050 + j) = fontTable.getD j 0 := by
  have hin : hardware.fontBase ≤ 0x050 + j ∧ 0x050 + j < hardware.fontBase + hardware.fontSize := by
    simp only [hardware_fontBase, hardware_fontSize]
    omega
  rw [resetByte, if_pos hin, hardware_fontBase, Nat.add_sub_cancel_left, hardware_fontTable]

end Sys2Proof.Machine

namespace Sys2Proof.Proofs
open Sys2Proof.Machine

/-- Settles O51: every step, so every run, keeps memory's part of the invariant. -/
theorem reservedAreaIsNeverMutated : Obligations.ReservedAreaIsNeverMutated := by
  intro n s t hs hrun
  obtain ⟨hwf, hreserved, -⟩ := hs
  obtain ⟨-, hread⟩ := run_keeps (P := State.MemoryIntact) step_memoryIntact ⟨hwf, hreserved⟩ hrun
  exact ⟨hread, fun j hj => (hread _ (by omega)).trans (resetByte_font hj)⟩

end Sys2Proof.Proofs
end

section
/-! SUPPORT. Reset under `RESET_FILL = ARBITRARY` (10_state.md R51, 70_reset_and_hazards.md R370). -/

namespace Sys2Proof.Machine

/-- This hardware with a `RESET_FILL`. -/
def withFill (fill : ResetFill) : Config := { hardware with resetFill := fill }

/-- What `Reset` does after the fill (70_reset_and_hazards.md R370): the font, the image, the framebuffer, PC and EXEC. -/
def State.afterFill (s : State) (image : List Byte) : State :=
  (((s.loadBytes 0x050 fontTable).loadBytes 0x200 image).clearFB.setPC 0x200).setExec .running

/-- A reset is the fill and what comes after it, or the refusal of an image that does not fit. -/
theorem State.resetUnder_withFill (fill : ResetFill) (before : State) (image : List Byte) :
    State.resetUnder (withFill fill) before image =
      if image.length ≤ 3584 then .next ((State.filled fill before).afterFill image)
      else .refused (.imageTooLong image.length) := by
  have hmax : (withFill fill).maxImage = 3584 := by simp [withFill, Config.maxImage]
  rw [State.resetUnder, hmax]
  rfl

/-- The reset state with the elements R51 leaves open as in `before`, and the memory `m`. -/
def State.resetOver (before : State) (m : Memory) : State :=
  { State.reset with
    v := before.v, i := before.i, stack := before.stack, dt := before.dt, st := before.st, mem := m }

/-- The byte at an address after reset with an image over the bytes of `before`. -/
def State.byteAfterReset (before : State) (image : List Byte) (a : Nat) : Byte :=
  if 0x050 ≤ a ∧ a ≤ 0x09F then fontTable.getD (a - 0x050) 0
  else if 0x200 ≤ a ∧ a < 0x200 + image.length then image.getD (a - 0x200) 0
  else before.memRead a

theorem State.byteAfterReset_font (before : State) (image : List Byte) {j : Nat} (hj : j < 80) :
    before.byteAfterReset image (0x050 + j) = fontTable.getD j 0 := by
  rw [State.byteAfterReset, if_pos (by omega), Nat.add_sub_cancel_left]

theorem State.byteAfterReset_image (before : State) (image : List Byte) {j : Nat} (hj : j < image.length) :
    before.byteAfterReset image (0x200 + j) = image.getD j 0 := by
  rw [State.byteAfterReset, if_neg (by omega), if_pos (by omega), Nat.add_sub_cancel_left]

/-- Where the font and the image stand already, reset leaves every byte. -/
theorem State.byteAfterReset_self {s : State} {image : List Byte}
    (hfont : ∀ j < 80, s.memRead (0x050 + j) = fontTable.getD j 0)
    (himage : ∀ j < image.length, s.memRead (0x200 + j) = image.getD j 0) (a : Nat) :
    s.byteAfterReset image a = s.memRead a := by
  rw [State.byteAfterReset]
  split_ifs with hf hi
  · rw [← hfont (a - 0x050) (by omega), Nat.add_sub_cancel' hf.1]
  · rw [← himage (a - 0x200) (by omega), Nat.add_sub_cancel' hi.1]
  · rfl

/-- The fill under ARBITRARY: the reset state over `before`, with the whole of its memory. -/
theorem State.filled_arbitrary (before : State) :
    State.filled .arbitrary before = before.resetOver before.mem := by
  rw [State.filled, State.zeroed_frame]
  rfl

/-- Loading bytes over such a state writes its memory alone. -/
theorem State.loadBytes_resetOver {before : State} {m : Memory} (hm : m.wf = true) {addr : Nat} {bs : List Byte}
    (h : addr + bs.length ≤ Size.memSize) :
    ∃ m' : Memory, (before.resetOver m).loadBytes addr bs = before.resetOver m' ∧ m'.wf = true
      ∧ ∀ a < Size.memSize, (before.resetOver m').memRead a =
          if addr ≤ a ∧ a < addr + bs.length then bs.getD (a - addr) 0 else (before.resetOver m).memRead a := by
  obtain ⟨hframe, hwf, hread⟩ := State.loadBytes_spec (s := before.resetOver m) hm h
  exact ⟨_, hframe, hwf, fun a ha => hframe ▸ hread a ha⟩

/-- A reset that answers a state had an image that fits (70_reset_and_hazards.md R372). -/
theorem State.length_le_of_resetUnder {fill : ResetFill} {before s : State} {image : List Byte}
    (h : State.resetUnder (withFill fill) before image = .next s) : image.length ≤ 3584 := by
  by_contra hlen
  rw [State.resetUnder_withFill, if_neg hlen] at h
  cases h

/-- Everything reset under ARBITRARY does with an image that fits. -/
theorem State.resetUnder_arbitrary {before : State} (hwf : before.mem.wf = true) {image : List Byte}
    (hlen : image.length ≤ 3584) :
    ∃ m : Memory, State.resetUnder (withFill .arbitrary) before image = .next (before.resetOver m) ∧ m.wf = true
      ∧ ∀ a < Size.memSize, (before.resetOver m).memRead a = before.byteAfterReset image a := by
  have hfont : fontTable.length = 80 := rfl
  obtain ⟨m₁, hload₁, hwf₁, hread₁⟩ := State.loadBytes_resetOver (before := before) hwf
    (addr := 0x050) (bs := fontTable) (by rw [hfont]; decide)
  obtain ⟨m₂, hload₂, hwf₂, hread₂⟩ := State.loadBytes_resetOver (before := before) hwf₁
    (addr := 0x200) (bs := image) (by simp only [Size.memSize]; omega)
  refine ⟨m₂, ?_, hwf₂, fun a ha => ?_⟩
  · rw [State.resetUnder_withFill, if_pos hlen, State.filled_arbitrary, State.afterFill, hload₁, hload₂]
    rfl
  · have hbefore : (before.resetOver before.mem).memRead a = before.memRead a := rfl
    rw [hread₂ a ha, hread₁ a ha, hfont, hbefore, State.byteAfterReset]
    by_cases himage : 0x200 ≤ a ∧ a < 0x200 + image.length
    · rw [if_pos himage, if_neg (by omega), if_pos himage]
    · rw [if_neg himage, if_neg himage]
      exact if_congr (by omega) rfl rfl

/-- Over the zeroed state the two fills are one: the reset under ARBITRARY is that under ZERO. -/
theorem State.resetUnder_arbitrary_zeroed (image : List Byte) :
    State.resetUnder (withFill .arbitrary) State.zeroed image = State.resetWith image := by
  have hfill : State.filled .arbitrary State.zeroed = State.filled .zero State.zeroed := by
    simp only [State.filled]
  have hzero : State.resetWith image = State.resetUnder (withFill .zero) State.zeroed image := rfl
  rw [hzero, State.resetUnder_withFill, State.resetUnder_withFill, hfill]

/-- The states that resets under ARBITRARY leave are those with the elements R51 fixes. -/
theorem State.isReset_arbitrary_iff (image : List Byte) (s : State) :
    s.IsReset .arbitrary image ↔
      ∃ before : State, before.mem.wf = true ∧ State.resetUnder (withFill .arbitrary) before image = .next s := by
  constructor
  · obtain ⟨v, pc, i, sp, stack, dt, st, mem, fb, key, notify, execState, draws, pending, emitted⟩ := s
    rintro ⟨hlen, hwf, hfont, himage, rfl, rfl, rfl, rfl, rfl, rfl, rfl, rfl, rfl⟩
    obtain ⟨m, hreset, hm, hread⟩ := State.resetUnder_arbitrary hwf hlen
    have hmem : mem = m := State.mem_eq_of_memRead hwf hm fun a ha =>
      (State.byteAfterReset_self hfont himage a).symm.trans (hread a ha).symm
    subst hmem
    exact ⟨_, hwf, hreset⟩
  · rintro ⟨before, hwf, h⟩
    have hlen := State.length_le_of_resetUnder h
    obtain ⟨m, hreset, hm, hread⟩ := State.resetUnder_arbitrary hwf hlen
    cases hreset.symm.trans h
    refine ⟨hlen, hm, fun j (hj : j < 80) => ?_, fun j hj => ?_, rfl, rfl, rfl, rfl, rfl, rfl, rfl, rfl, rfl⟩
    · exact (hread _ (by simp only [Size.memSize, hardware_fontBase]; omega)).trans
        (State.byteAfterReset_font before image hj)
    · exact (hread _ (by simp only [Size.memSize, hardware_progBase]; omega)).trans
        (State.byteAfterReset_image before image hj)

end Sys2Proof.Machine

namespace Sys2Proof.Proofs
open Sys2Proof.Machine

/-- Settles O53: the reset under ZERO is the one under ARBITRARY from the zeroed state. -/
theorem resetSatisfiesBothFills : Obligations.ResetSatisfiesBothFills := by
  refine ⟨(State.resetWith_eq []).trans (if_pos (Nat.zero_le _)), fun image s h => ?_⟩
  exact (State.isReset_arbitrary_iff image s).2 ⟨State.zeroed, State.zeroed_mem.1,
    (State.resetUnder_arbitrary_zeroed image).trans h⟩

/-- Settles O55: what the reset writes over the state before, and that such states are those of `State.IsReset`. -/
theorem resetUnderArbitraryFill : Obligations.ResetUnderArbitraryFill := by
  refine ⟨fun before image hwf hlen => ?_, State.isReset_arbitrary_iff⟩
  obtain ⟨m, hreset, hm, hread⟩ := State.resetUnder_arbitrary hwf hlen
  exact ⟨before.resetOver m, hreset, rfl, rfl, rfl, rfl, rfl, rfl, rfl, rfl, hread, Framebuffer.at_clear,
    fun k => Vector.getElem_replicate k.isLt, rfl, hm, rfl, rfl, rfl⟩

end Sys2Proof.Proofs
end

section
/-! SUPPORT. A store through I that no policy stops (20_memory.md R73, 44_index_memory.md R244, R245). -/

namespace Sys2Proof.Machine
open Sys2Proof.Claims

/-- A store through I answers the state in which its bytes stand, when no policy stops one of its addresses. -/
theorem State.conclude_memWriteList_stored {c : Config} {s : State} (hwf : s.mem.wf = true) {bs : List Byte}
    (hlen : bs.length ≤ Size.memSize)
    (hfree : ∀ j < bs.length, c.reservedWrite = .allow ∨ c.reserved (slot s j) = false) :
    ∃ t, s.conclude (s.nextPC.memWriteList c s.base bs) = .next t ∧ Stored s t bs := by
  obtain ⟨t, ht, -, hin, hout⟩ := State.memWriteList_free (s := s.nextPC) hwf hlen hfree
  have hframe : t = { s.nextPC with mem := t.mem } := State.memWriteList_frame ht
  have hpc : t.pc = s.pc + 2 := congrArg State.pc hframe
  refine ⟨t, congrArg s.conclude ht, hin, hout, hpc, ?_⟩
  rw [hpc]
  exact hframe

/-- Where V0..Vx are stored, each of them stands at its address. -/
theorem State.memRead_of_stored_valuesUpTo {s t : State} {x r : Reg} (h : Stored s t (s.valuesUpTo x)) (hr : r ≤ x) :
    t.memRead (s.base + r.val) = s.getV r := by
  obtain ⟨hin, -⟩ := h
  have hlt : r.val < (s.valuesUpTo x).length := by rw [State.length_valuesUpTo]; exact Nat.lt_succ_of_le hr
  exact (hin r.val hlt).trans (State.getD_valuesUpTo s hr)

end Sys2Proof.Machine

namespace Sys2Proof.Proofs
open Sys2Proof.Machine Sys2Proof.Claims

/-- Settles O58: under `ALLOW` no address stops a store, so both instructions store all their bytes. -/
theorem allowedWritesReachTheReservedArea : Obligations.AllowedWritesReachTheReservedArea := by
  intro c s x hallow hwf
  refine ⟨State.conclude_memWriteList_stored hwf (bs := bcdDigits (s.getV x)) (by decide : 3 ≤ 4096)
    fun _ _ => .inl hallow, ?_⟩
  have hlen : (s.valuesUpTo x).length = x.val + 1 := State.length_valuesUpTo s x
  obtain ⟨t, ht, hstored⟩ := State.conclude_memWriteList_stored (c := c) hwf (bs := s.valuesUpTo x)
    (by rw [hlen]; simp only [Size.memSize]; omega) fun _ _ => .inl hallow
  have hreads : ∀ r ≤ x, t.memRead (s.base + r.val) = s.getV r :=
    fun r hr => State.memRead_of_stored_valuesUpTo hstored hr
  obtain ⟨-, hout, hpc, hframe⟩ := hstored
  exact ⟨t, ht, hreads, hlen ▸ hout, hpc, hframe⟩

end Sys2Proof.Proofs
end

section
/-! SUPPORT. The decoder against the encoder and against the opcode map (30_encoding.md R101 to R106). -/

namespace Sys2Proof

/-! ### A word is packed from its fields, by each format of R102 -/

theorem packNNN_eq_of_fieldOp {w : Word} {op : BitVec 4} (hop : fieldOp w = op) : packNNN op (fieldNNN w) = w :=
  hop ▸ packNNN_fields w

theorem packXKK_eq_of_fields {w : Word} {op : BitVec 4} {kk : Byte} (hop : fieldOp w = op) (hkk : fieldKK w = kk) :
    packXKK op (fieldX w) kk = w :=
  hop ▸ hkk ▸ packXKK_fields w

theorem packXYN_eq_of_fields {w : Word} {op n : BitVec 4} (hop : fieldOp w = op) (hn : fieldN w = n) :
    packXYN op (fieldX w) (fieldY w) n = w :=
  hop ▸ hn ▸ packXYN_fields w

/-! ### Decoding and encoding -/

/-- A row count that fits its field is read back from it (30_encoding.md R101). -/
theorem toNat_ofNat_of_wf_drw {x y : Reg} {n : Nat} (h : (Instr.drw x y n).wf = true) :
    (BitVec.ofNat 4 n).toNat = n := by
  have hn : n ≤ 15 := of_decide_eq_true h
  exact Nat.mod_eq_of_lt (by omega)

theorem decode_encode {i : Instr} (h : i.wf = true) : decode (encode i) = .ok i := by
  cases i with
  | cls | ret => rfl
  | drw => simp [encode, decode, toNat_ofNat_of_wf_drw h]
  | ldReg | orReg | andReg | xorReg | addReg | subReg | shr | subn | shl => simp [encode, decode, decodeGroup8]
  | ldVxDT | ldVxK | ldDTVx | ldSTVx | addI | ldF | ldB | ldStore | ldLoad => simp [encode, decode, decodeGroupF]
  | _ => simp [encode, decode]

theorem encode_of_decodeGroup8 {w : Word} {i : Instr} (hop : fieldOp w = 0x8#4) (h : decodeGroup8 w = .ok i) :
    encode i = w ∧ i.wf = true := by
  unfold decodeGroup8 at h
  split at h <;> cases h
  all_goals exact ⟨packXYN_eq_of_fields hop ‹_›, rfl⟩

theorem encode_of_decodeGroupF {w : Word} {i : Instr} (hop : fieldOp w = 0xF#4) (h : decodeGroupF w = .ok i) :
    encode i = w ∧ i.wf = true := by
  unfold decodeGroupF at h
  split at h <;> cases h
  all_goals exact ⟨packXKK_eq_of_fields hop ‹_›, rfl⟩

/-- A word that decodes is the word of what it decodes to. -/
theorem encode_of_decode {w : Word} {i : Instr} (h : decode w = .ok i) : encode i = w ∧ i.wf = true := by
  unfold decode at h
  split at h
  case h_1 =>
    split_ifs at h with hcls hret
    · cases h; exact ⟨hcls.symm, rfl⟩
    · cases h; exact ⟨hret.symm, rfl⟩
  case h_2 hop | h_3 hop | h_11 hop | h_12 hop => cases h; exact ⟨packNNN_eq_of_fieldOp hop, rfl⟩
  case h_4 hop | h_5 hop | h_7 hop | h_8 hop | h_13 hop => cases h; exact ⟨packXKK_eq_of_fields hop rfl, rfl⟩
  case h_6 hop | h_10 hop =>
    split_ifs at h with hn
    cases h; exact ⟨packXYN_eq_of_fields hop hn, rfl⟩
  case h_9 hop => exact encode_of_decodeGroup8 hop h
  case h_14 hop =>
    cases h
    have hn := (fieldN w).isLt
    exact ⟨packXYN_eq_of_fields hop (by simp), decide_eq_true (Nat.le_of_lt_succ hn)⟩
  case h_15 hop =>
    split_ifs at h with hskp hsknp
    · cases h; exact ⟨packXKK_eq_of_fields hop hskp, rfl⟩
    · cases h; exact ⟨packXKK_eq_of_fields hop hsknp, rfl⟩
  case h_16 hop => exact encode_of_decodeGroupF hop h
  case h_17 => cases h

/-! ### The rows of the opcode map (R104, R105) -/

/-- The rows of the map are those of the instructions. -/
theorem mem_opcodeTable_iff {r : OpcodeRow} : r ∈ opcodeTable ↔ ∃ i, opcodeRow i = r := by
  constructor
  · revert r
    simp [opcodeTable, or_imp, forall_and]
  · rintro ⟨i, rfl⟩
    cases i <;> simp [opcodeTable, opcodeRow]

open Laws in
/-- An instruction's word matches the instruction's row. -/
theorem rowMatches_encode (i : Instr) : rowMatches (opcodeRow i) (encode i) = true := by
  cases i
  exacts [RowMatch.cls, RowMatch.ret, RowMatch.jp _, RowMatch.call _, RowMatch.seImm _ _, RowMatch.sneImm _ _,
    RowMatch.seReg _ _, RowMatch.ldImm _ _, RowMatch.addImm _ _, RowMatch.ldReg _ _, RowMatch.orReg _ _,
    RowMatch.andReg _ _, RowMatch.xorReg _ _, RowMatch.addReg _ _, RowMatch.subReg _ _, RowMatch.shr _ _,
    RowMatch.subn _ _, RowMatch.shl _ _, RowMatch.sneReg _ _, RowMatch.ldI _, RowMatch.jpV0 _, RowMatch.rnd _ _,
    RowMatch.drw _ _ _, RowMatch.skp _, RowMatch.sknp _, RowMatch.ldVxDT _, RowMatch.ldVxK _, RowMatch.ldDTVx _,
    RowMatch.ldSTVx _, RowMatch.addI _, RowMatch.ldF _, RowMatch.ldB _, RowMatch.ldStore _, RowMatch.ldLoad _]

/-! The masks of the map select whole fields. -/

theorem eq_of_mask_FFFF {w p : Word} (h : w &&& 0xFFFF = p) : w = p :=
  BitVec.and_allOnes.symm.trans h

theorem fieldOp_of_mask_F000 {w p : Word} (h : w &&& 0xF000 = p) : fieldOp w = fieldOp p := by
  rw [← h, fieldOp, fieldOp, BitVec.extractLsb'_and]
  exact (and_fifteen _).symm

theorem fields_of_mask_F00F {w p : Word} (h : w &&& 0xF00F = p) : fieldOp w = fieldOp p ∧ fieldN w = fieldN p := by
  rw [← h]
  simp only [fieldOp, fieldN, BitVec.extractLsb'_and]
  exact ⟨(and_fifteen _).symm, (and_fifteen _).symm⟩

theorem fields_of_mask_F0FF {w p : Word} (h : w &&& 0xF0FF = p) : fieldOp w = fieldOp p ∧ fieldKK w = fieldKK p := by
  rw [← h]
  simp only [fieldOp, fieldKK, BitVec.extractLsb'_and]
  exact ⟨(and_fifteen _).symm, (and_255 _).symm⟩

/-- A word that matches a row decodes to an instruction of that row: its fixed fields are those of the row's pattern, and
on these the decoder chooses. -/
theorem decode_of_rowMatches {i : Instr} {w : Word} (h : rowMatches (opcodeRow i) w = true) :
    ∃ j, decode w = .ok j ∧ opcodeRow j = opcodeRow i := by
  have hm : w &&& (opcodeRow i).mask = (opcodeRow i).pattern := beq_iff_eq.1 h
  cases i with
  | cls | ret =>
    obtain rfl := eq_of_mask_FFFF hm
    exact ⟨_, rfl, rfl⟩
  | jp | call | ldI | jpV0 | seImm | sneImm | ldImm | addImm | rnd | drw =>
    have hop := fieldOp_of_mask_F000 hm
    simp only [decode, hop]
    simp [opcodeRow, fieldOp]
  | seReg | sneReg | ldReg | orReg | andReg | xorReg | addReg | subReg | shr | subn | shl =>
    obtain ⟨hop, hn⟩ := fields_of_mask_F00F hm
    simp only [decode, decodeGroup8, hop, hn]
    simp [opcodeRow, fieldOp, fieldN]
  | skp | sknp | ldVxDT | ldVxK | ldDTVx | ldSTVx | addI | ldF | ldB | ldStore | ldLoad =>
    obtain ⟨hop, hkk⟩ := fields_of_mask_F0FF hm
    simp only [decode, decodeGroupF, hop, hkk]
    simp [opcodeRow, fieldOp, fieldKK]

/-- A word that decodes matches the row of its instruction. -/
theorem rowMatches_of_decode {w : Word} {i : Instr} (h : decode w = .ok i) : rowMatches (opcodeRow i) w = true := by
  obtain ⟨hw, -⟩ := encode_of_decode h
  exact hw ▸ rowMatches_encode i

/-! ### The illegal words (R106) -/

theorem toNat_fieldOp (w : Word) : (fieldOp w).toNat = w.toNat / 4096 := by
  rw [fieldOp, BitVec.extractLsb'_toNat, Nat.shiftRight_eq_div_pow]
  omega

theorem toNat_fieldN (w : Word) : (fieldN w).toNat = w.toNat % 16 := by
  rw [fieldN, BitVec.extractLsb'_toNat, Nat.shiftRight_zero]

theorem toNat_fieldKK (w : Word) : (fieldKK w).toNat = w.toNat % 256 := by
  rw [fieldKK, BitVec.extractLsb'_toNat, Nat.shiftRight_zero]

/-- A choice that answers `.ok` when its condition holds answers an error only when it does not. -/
theorem ite_ok_eq_error_iff {ε α : Type} {c : Prop} [Decidable c] {a : α} {x : Except ε α} {e : ε} :
    (if c then .ok a else x) = .error e ↔ ¬ c ∧ x = .error e := by
  split_ifs with h <;> simp [h]

theorem decodeGroup8_eq_illegalWord_iff (w : Word) : decodeGroup8 w = .error (.illegalWord w) ↔
    (fieldN w).toNat ∈ [8, 9, 0xA, 0xB, 0xC, 0xD, 0xF] := by
  unfold decodeGroup8
  generalize fieldN w = n
  split
  case h_10 =>
    rw [eq_self_iff_true, true_iff]
    revert n
    decide
  all_goals simp

theorem decodeGroupF_eq_illegalWord_iff (w : Word) : decodeGroupF w = .error (.illegalWord w) ↔
    (fieldKK w).toNat ∉ [0x07, 0x0A, 0x15, 0x18, 0x1E, 0x29, 0x33, 0x55, 0x65] := by
  unfold decodeGroupF
  generalize fieldKK w = kk
  split
  case h_10 =>
    rw [eq_self_iff_true, true_iff]
    revert kk
    decide
  all_goals simp

/-- The words that decode to no instruction, by their fields. -/
theorem decode_eq_illegalWord_iff (w : Word) : decode w = .error (.illegalWord w) ↔
    ((fieldOp w).toNat = 0 ∧ w ≠ 0x00E0 ∧ w ≠ 0x00EE)
      ∨ (((fieldOp w).toNat = 5 ∨ (fieldOp w).toNat = 9) ∧ (fieldN w).toNat ≠ 0)
      ∨ ((fieldOp w).toNat = 8 ∧ (fieldN w).toNat ∈ [8, 9, 0xA, 0xB, 0xC, 0xD, 0xF])
      ∨ ((fieldOp w).toNat = 0xE ∧ (fieldKK w).toNat ∉ [0x9E, 0xA1])
      ∨ ((fieldOp w).toNat = 0xF
          ∧ (fieldKK w).toNat ∉ [0x07, 0x0A, 0x15, 0x18, 0x1E, 0x29, 0x33, 0x55, 0x65]) := by
  unfold decode
  split
  case h_1 hop => simp [hop, ite_ok_eq_error_iff]
  case h_6 hop | h_10 hop | h_15 hop => simp [hop, ite_ok_eq_error_iff, BitVec.toNat_eq]
  case h_9 hop => simp [hop, decodeGroup8_eq_illegalWord_iff]
  case h_16 hop => simp [hop, decodeGroupF_eq_illegalWord_iff]
  case h_17 =>
    exfalso
    generalize fieldOp w = op at *
    revert op
    decide
  case h_2 hop | h_3 hop | h_4 hop | h_5 hop | h_7 hop | h_8 hop | h_11 hop | h_12 hop | h_13 hop | h_14 hop =>
    simp [hop]

end Sys2Proof

namespace Sys2Proof.Proofs
open Sys2Proof.Machine

/-- Settles O2, from a case split on the instruction and one on the fields of the word. -/
theorem decodeAndEncodeAgree : Obligations.DecodeAndEncodeAgree :=
  ⟨fun _ => decode_encode, fun _ _ => encode_of_decode⟩

/-- Settles O3: a word that matches a row decodes to an instruction of that row, and decoding is a function. -/
theorem eachWordMatchesAtMostOneRow : Obligations.EachWordMatchesAtMostOneRow := by
  refine ⟨fun w => ⟨?_, ?_⟩, fun w i h => ⟨mem_opcodeTable_iff.2 ⟨i, rfl⟩, rowMatches_of_decode h⟩, ?_⟩
  · rintro ⟨i, h⟩
    exact ⟨opcodeRow i, mem_opcodeTable_iff.2 ⟨i, rfl⟩, rowMatches_of_decode h⟩
  · rintro ⟨r, hr, h⟩
    obtain ⟨i, rfl⟩ := mem_opcodeTable_iff.1 hr
    obtain ⟨j, hj, -⟩ := decode_of_rowMatches h
    exact ⟨j, hj⟩
  · intro w r r' hr hr' h h'
    obtain ⟨i, rfl⟩ := mem_opcodeTable_iff.1 hr
    obtain ⟨i', rfl⟩ := mem_opcodeTable_iff.1 hr'
    obtain ⟨j, hj, hrow⟩ := decode_of_rowMatches h
    obtain ⟨j', hj', hrow'⟩ := decode_of_rowMatches h'
    obtain rfl : j = j' := Except.ok.inj (hj.symm.trans hj')
    exact hrow.symm.trans hrow'

/-- Settles O4: the list of R106 by the fields of the word, and the tick of a running CORE on a word with no row. -/
theorem illegalWordsRaiseDecodeError : Obligations.IllegalWordsRaiseDecodeError := by
  intro w op n kk illegal
  have hiff : decode w = .error (.illegalWord w) ↔ illegal := by
    simpa only [toNat_fieldOp, toNat_fieldN, toNat_fieldKK] using decode_eq_illegalWord_iff w
  refine ⟨hiff, fun s hrun hw hillegal => ?_⟩
  subst hw
  exact (instrTick_running hrun).trans (fetchExecute_of_error (hiff.2 hillegal))

/-- Settles O1, by running the decoder on each word. -/
theorem sampleWordsDecode : Obligations.SampleWordsDecode := by
  unfold Obligations.SampleWordsDecode
  decide

end Sys2Proof.Proofs
end

section
/-! SUPPORT. What one step of an agent can do to EXEC and to a posted key (40_execution_cycle.md R130, R131), and that an
instruction tick always answers a state (R136). -/

namespace Sys2Proof.Machine
open Sys2Proof.Claims

/-! ### The terminal states -/

theorem ExecState.isLive_eq_false_iff {e : ExecState} : e.isLive = false ↔ e = .stopped ∨ ∃ rec, e = .faulted rec := by
  cases e <;> simp [ExecState.isLive]

theorem ExecState.ne_running_and_ne_waitKey {e : ExecState} (h : e.isLive = false) :
    e ≠ .running ∧ ∀ x, e ≠ .waitKey x := by
  obtain rfl | ⟨rec, rfl⟩ := ExecState.isLive_eq_false_iff.1 h <;> simp

/-! ### The steps of the agents other than the instruction tick -/

/-- The completion of a wait: it is enabled and completes, or it leaves the state alone. -/
theorem keyWaitDone_cases (s : State) :
    (∃ x k, s.execState = .waitKey x ∧ s.notify = some k ∧ keyWaitDone s = (s.consumeKey x k).setExec .running)
      ∨ keyWaitDone s = s := by
  by_cases hw : ∃ x, s.execState = .waitKey x
  · obtain ⟨x, hx⟩ := hw
    cases hk : s.notify with
    | none => exact .inr (keyWaitDone_of_empty hk)
    | some k => exact .inl ⟨x, k, hx, rfl, keyWaitDone_of_key hx hk⟩
  · exact .inr (keyWaitDone_of_not_waiting fun x hx => hw ⟨x, hx⟩)

theorem stopSignal_of_live {s : State} (h : s.execState.isLive = true) :
    stopSignal s = (s.setExec .stopped).emit .stop := if_pos h

theorem stopSignal_of_not_live {s : State} (h : s.execState.isLive = false) : stopSignal s = s :=
  if_neg (Bool.eq_false_iff.1 h)

theorem acceptKey_of_not_live {s : State} (h : s.execState.isLive = false) (k : Key) (pressed : Bool) :
    acceptKey k pressed s = s := if_neg (Bool.eq_false_iff.1 h)

theorem timerTick_of_not_live {s : State} (h : s.execState.isLive = false) : timerTick s = s := by
  obtain he | ⟨rec, he⟩ := ExecState.isLive_eq_false_iff.1 h <;>
    simp [timerTick, timerTickUnder, timerEnabled, he]

@[simp] theorem timerTick_execState (s : State) : (timerTick s).execState = s.execState := by
  unfold timerTick timerTickUnder; split <;> rfl

@[simp] theorem timerTick_notify (s : State) : (timerTick s).notify = s.notify := by
  unfold timerTick timerTickUnder; split <;> rfl

@[simp] theorem acceptKey_execState (k : Key) (pressed : Bool) (s : State) :
    (acceptKey k pressed s).execState = s.execState := by
  unfold acceptKey; split <;> rfl

/-- A key event never takes a posted key away: a press posts its own, a release leaves NOTIFY (47_input.md R311). -/
theorem acceptKey_notify_ne_none {k : Key} {pressed : Bool} {s : State} (h : s.notify ≠ none) :
    (acceptKey k pressed s).notify ≠ none := by
  unfold acceptKey
  split
  · cases pressed
    · exact h
    · exact Option.some_ne_none k
  · exact h

/-- In Stopped and Faulted no agent's step is enabled (40_execution_cycle.md R131). -/
theorem activate_of_not_live {s : State} (h : s.execState.isLive = false) (a : Activation) : activate a s = .next s := by
  obtain ⟨hrun, hwait⟩ := ExecState.ne_running_and_ne_waitKey h
  cases a with
  | instrTick => exact instrTick_not_running hrun
  | keyWaitDone => exact congrArg _ (keyWaitDone_of_not_waiting hwait)
  | timerTick => exact congrArg _ (timerTick_of_not_live h)
  | keyEvent k pressed => exact congrArg _ (acceptKey_of_not_live h k pressed)
  | stop => exact congrArg _ (stopSignal_of_not_live h)

/-! ### The instruction tick -/

theorem State.conclude_answers (s : State) (r : Except Fault State) : ∃ t, s.conclude r = .next t := by
  cases r <;> exact ⟨_, rfl⟩

/-- Every instruction answers a next state: its own, or the fault taken. -/
theorem exec_answers (ins : Instr) (s : State) : ∃ t, exec ins s = .next t := by
  cases ins with
  | ret | call | skp | sknp | ldB | ldStore => exact State.conclude_answers s _
  | _ => exact ⟨_, rfl⟩

theorem fetchExecute_answers (s : State) : ∃ t, fetchExecute s = .next t := by
  cases hd : decode s.fetchWord with
  | ok ins => exact fetchExecute_of_decode hd ▸ exec_answers ins s
  | error e => exact ⟨_, fetchExecute_of_error hd⟩

/-- Fx0A begins to wait only with no key posted (47_input.md R314). -/
theorem notify_eq_none_of_exec_waits {x : Reg} {s t : State} (h : exec (.ldVxK x) s = .next t)
    (hne : t.execState ≠ s.execState) : s.notify = none := by
  rcases execLdVxK_cases h with ⟨k, -, rfl⟩ | ⟨hk, -⟩
  · exact absurd rfl hne
  · exact hk

/-- An instruction tick that changes EXEC is Fx0A beginning to wait, or takes a fault and changes nothing else. -/
theorem fetchExecute_execState_ne {s t : State} (h : fetchExecute s = .next t) (hne : t.execState ≠ s.execState) :
    (∃ x, decode s.fetchWord = .ok (.ldVxK x) ∧ s.notify = none ∧ t.execState = .waitKey x)
      ∨ ∃ f, t = faultedFrom s f := by
  cases hd : decode s.fetchWord with
  | ok ins =>
    rw [fetchExecute_of_decode hd] at h
    rcases exec_execState_ne h hne with ⟨x, rfl, hx⟩ | ⟨-, hf⟩
    · exact .inl ⟨x, rfl, notify_eq_none_of_exec_waits h hne, hx⟩
    · exact .inr hf
  | error e =>
    rw [fetchExecute_of_error hd] at h
    cases h
    exact .inr ⟨_, rfl⟩

theorem fetchWord_eq_append (s : State) :
    s.fetchWord = s.memRead (s.pc.toNat % 4096) ++ s.memRead ((s.pc.toNat + 1) % 4096) :=
  (congrArg₂ (· ++ ·) (State.memRead_cellOf s _) (State.memRead_cellOf s _)).symm

/-- When an instruction tick is due, the machine's step is that tick, from the state with its turn taken off the list. -/
theorem step_of_tickDue {s : State} (h : TickDue s) : step s = fetchExecute s.dropPending := by
  obtain ⟨hrun, hp | ⟨as, hp⟩⟩ := h
  · rw [step_of_idle hp, State.dropPending_idle hp, executorStep_running hrun]
  · rw [step_of_pending hp]
    exact instrTick_running hrun

/-! ### A wait with a key posted -/

/-- A wait whose completion is enabled: EXEC is WaitKey(x) and NOTIFY holds a key (47_input.md R315). -/
def State.PostedWait (s : State) (x : Reg) : Prop := s.execState = .waitKey x ∧ s.notify ≠ none

theorem State.PostedWait.enabled {s : State} {x : Reg} (h : s.PostedWait x) : s.Enabled .keyWaitDone := by
  obtain ⟨hx, hn⟩ := h
  obtain ⟨k, hk⟩ := Option.ne_none_iff_exists'.1 hn
  exact ⟨x, k, hx, hk⟩

theorem State.PostedWait.running_of_completed {s t : State} {x : Reg} (hs : s.PostedWait x)
    (h : activate .keyWaitDone s = .next t) : t.execState = .running := by
  obtain ⟨x, k, hx, hk⟩ := hs.enabled
  cases h
  rw [keyWaitDone_of_key hx hk, State.setExec_execState]

/-- Of the steps other than the stop signal, only the completion ends such a wait. -/
theorem State.PostedWait.running_or_kept {a : Activation} {s t : State} {x : Reg} (hs : s.PostedWait x)
    (ha : a ≠ .stop) (h : activate a s = .next t) : t.execState = .running ∨ t.PostedWait x := by
  have ⟨hx, hn⟩ := hs
  cases a with
  | instrTick =>
    have hidle : instrTick s = .next s := instrTick_not_running (by rw [hx]; exact ExecState.noConfusion)
    cases hidle.symm.trans h
    exact .inr hs
  | keyWaitDone => exact .inl (hs.running_of_completed h)
  | timerTick =>
    cases h
    exact .inr ⟨(timerTick_execState s).trans hx, timerTick_notify s ▸ hn⟩
  | keyEvent k pressed =>
    cases h
    exact .inr ⟨(acceptKey_execState k pressed s).trans hx, acceptKey_notify_ne_none hn⟩
  | stop => exact absurd rfl ha

/-- In a run without the stop signal, such a wait lasts for as long as no state is Running. -/
theorem State.PostedWait.lasts {run : Nat → State} {who : Nat → Activation} (hrun : IsRun run who)
    (hstop : ∀ m, who m ≠ .stop) {n : Nat} {x : Reg} (hn : (run n).PostedWait x)
    (hnever : ∀ m ≥ n, (run m).execState ≠ .running) {m : Nat} (hm : n ≤ m) : (run m).PostedWait x := by
  induction m, hm using Nat.le_induction with
  | base => exact hn
  | succ m hm ih => exact (ih.running_or_kept (hstop m) (hrun m)).resolve_left (hnever (m + 1) (by omega))

end Sys2Proof.Machine

namespace Sys2Proof.Proofs
open Sys2Proof.Machine Sys2Proof.Claims

/-- Settles O34: were no later state Running, the wait would last with its completion enabled, and fairness would take
it. -/
theorem postedKeyEndsTheWait : Obligations.PostedKeyEndsTheWait := by
  intro run who n x hrun hfair hstop hx hn
  by_contra hnone
  have hnever : ∀ m ≥ n, (run m).execState ≠ .running := fun m hm he => hnone ⟨m, hm, he⟩
  have hwait : ∀ m ≥ n, (run m).PostedWait x := fun m hm => State.PostedWait.lasts hrun hstop ⟨hx, hn⟩ hnever hm
  obtain ⟨m, hm, hwho⟩ := hfair .keyWaitDone (.inr (.inl rfl)) n fun m hm => (hwait m hm).enabled
  exact hnever (m + 1) (by omega) ((hwait m hm).running_of_completed (hwho ▸ hrun m))

/-- Settles O39: a tick that does not end Running has changed EXEC. -/
theorem tickEndsInOneOfThreeWays : Obligations.TickEndsInOneOfThreeWays := by
  intro s hrun
  obtain ⟨t, ht⟩ := fetchExecute_answers s
  refine ⟨t, (instrTick_running hrun).trans ht, ?_⟩
  by_cases he : t.execState = .running
  · exact .inl he
  right
  rcases fetchExecute_execState_ne ht (hrun ▸ he) with ⟨x, hd, -, hx⟩ | ⟨f, rfl⟩
  · exact .inl ⟨x, hx, hd⟩
  · exact .inr ⟨_, rfl⟩

/-- Settles O41, agent by agent. -/
theorem execStateMovesByTheTable : Obligations.ExecStateMovesByTheTable := by
  intro a s t h
  refine ⟨fun hne => ?_, fun hlive => ?_⟩
  · rcases activate_cases h with ⟨rfl, hrun, ht⟩ | ⟨rfl, rfl⟩ | ⟨-, rfl⟩ | ⟨k, pressed, -, rfl⟩ | ⟨rfl, rfl⟩ | ⟨-, -, rfl⟩
    · rcases fetchExecute_execState_ne ht hne with ⟨x, hd, hk, hx⟩ | ⟨f, rfl⟩
      · exact .inl ⟨rfl, x, ⟨hrun, hd⟩, hk, hx⟩
      · exact .inr (.inl ⟨rfl, hrun, _, rfl⟩)
    · rcases keyWaitDone_cases s with ⟨x, k, hx, hk, ht⟩ | ht
      · rw [ht]
        exact .inr (.inr (.inl ⟨rfl, x, k, hx, hk, rfl, State.getV_setV_self s x _⟩))
      · exact absurd (congrArg State.execState ht) hne
    · exact absurd (timerTick_execState s) hne
    · exact absurd (acceptKey_execState k pressed s) hne
    · cases hl : s.execState.isLive with
      | true =>
        rw [stopSignal_of_live hl]
        exact .inr (.inr (.inr ⟨rfl, rfl, rfl, rfl⟩))
      | false => exact absurd (congrArg State.execState (stopSignal_of_not_live hl)) hne
    · exact absurd rfl hne
  · exact (Host.Outcome.next.inj ((activate_of_not_live hlive a).symm.trans h)).symm

/-- Settles O42: the terminal states are those that are not live, and of the moves of O41 only the stop signal's ends in
Stopped. -/
theorem terminalStatesAreKept : Obligations.TerminalStatesAreKept := by
  refine ⟨fun a s hs => activate_of_not_live (ExecState.isLive_eq_false_iff.2 hs) a, fun a s t h hstop => ?_⟩
  by_cases he : s.execState = .stopped
  · exact .inl he
  have hmove := (execStateMovesByTheTable a s t h).1 (hstop ▸ Ne.symm he)
  simp only [hstop] at hmove
  rcases hmove with ⟨-, x, -, -, hx⟩ | ⟨-, -, rec, hrec⟩ | ⟨-, x, k, -, -, hrun, -⟩ | ⟨ha, hlive, -⟩
  · cases hx
  · cases hrec
  · cases hrun
  · exact .inr ⟨ha, hlive⟩

/-- Settles O48: an instruction that raises no fault writes within its frame, which leaves PC to control flow and
skips. -/
theorem otherInstructionsAdvancePC : Obligations.OtherInstructionsAdvancePC := by
  intro ins s t hpc _ h hok
  rcases exec_frame h with ⟨-, f, rfl⟩ | hf
  · exact absurd ⟨_, rfl⟩ hok
  by_contra hne
  exact Bool.eq_false_iff.1 hpc (writesPC_of_pc_ne hf hne)

/-- Settles O35: where the stop signal is enabled, its two updates are the whole effect. -/
theorem stopSignalStops : Obligations.StopSignalStops :=
  fun _ hlive => congrArg Host.Outcome.next (stopSignal_of_live hlive)

/-- Settles O36: the fetch reduces both addresses, and taking the turn off the list does not change the word. -/
theorem stepExecutesTheDecodedInstruction : Obligations.StepExecutesTheDecodedInstruction :=
  fun s _ hdue => ⟨fetchWord_eq_append s, fun hd =>
    (step_of_tickDue hdue).trans (fetchExecute_of_decode ((congrArg decode (State.dropPending_fetchWord s)).trans hd))⟩

/-- Settles O45: the jump writes PC alone, and with the value it has. -/
theorem selfJumpIsAFixedPoint : Obligations.SelfJumpIsAFixedPoint := by
  rintro s hrun ⟨nnn, hd, hself⟩
  calc activate .instrTick s
    _ = exec (.jp nnn) s := (instrTick_running hrun).trans (fetchExecute_of_decode hd)
    _ = .next { s with pc := zextAddr nnn } := rfl
    _ = .next s := by rw [hself]

end Sys2Proof.Proofs
end

section
/-! SUPPORT. The return stack as CALL and RET use it, and the targets of the jumps (41_control_flow.md R161 to R166). -/

namespace Sys2Proof.Machine
open Sys2Proof.Claims

/-- A 12-bit address in PC is its value (41_control_flow.md R163). -/
theorem zextAddr_eq_word (nnn : BitVec 12) : zextAddr nnn = word nnn.toNat :=
  (BitVec.ofNat_toNat 16 nnn).symm

/-- The sum of Bnnn is kept in PC whole, not reduced to 12 bits (41_control_flow.md R165). -/
theorem zextAddr_add_byte (nnn : BitVec 12) (b : Byte) :
    zextAddr nnn + b.zeroExtend 16 = word (nnn.toNat + b.toNat) := by
  rw [word, BitVec.ofNat_add, BitVec.ofNat_toNat, BitVec.ofNat_toNat]
  rfl

/-- A pop from a stack of `k + 1` addresses, each new value written out. -/
theorem State.popPC_of_sp {s : State} {k : Nat} (hk : k < 16) (hsp : s.sp.val = k + 1) :
    s.popPC = .ok { s with sp := ⟨k, by omega⟩, pc := s.stack[k] } := by
  obtain ⟨t, ht, htsp, htpc, hframe⟩ := State.popPC_ok s (by omega)
  have hsp' : t.sp = ⟨k, by omega⟩ := Fin.ext (htsp.trans (congrArg (· - 1) hsp))
  have hpc' : t.pc = s.stack[k] := by simpa [hsp] using htpc
  rw [ht, hframe, hsp', hpc']

theorem exec_ret (s : State) : exec .ret s = s.conclude s.nextPC.popPC := rfl

theorem exec_call (nnn : BitVec 12) (s : State) :
    exec (.call nnn) s = s.conclude ((s.nextPC.push (s.pc + 2)).map (·.setPC (zextAddr nnn))) := rfl

theorem exec_ret_of_sp {s : State} {k : Nat} (hk : k < 16) (hsp : s.sp.val = k + 1) :
    exec .ret s = .next { s with sp := ⟨k, by omega⟩, pc := s.stack[k] } := by
  rw [exec_ret, State.popPC_of_sp (s := s.nextPC) hk hsp]
  rfl

theorem exec_ret_of_empty {s : State} (hsp : s.sp = 0) :
    exec .ret s = .next (faultedFrom s (.stackUnderflow 0)) := by
  rw [exec_ret, State.popPC_empty s.nextPC hsp]
  rfl

theorem exec_call_of_room {s : State} (nnn : BitVec 12) (hsp : s.sp.val < 16) :
    exec (.call nnn) s = .next { s with
      stack := s.stack.set s.sp.val (s.pc + 2), sp := ⟨s.sp.val + 1, by omega⟩, pc := word nnn.toNat } := by
  rw [exec_call, State.push_ok s.nextPC _ hsp, ← zextAddr_eq_word]
  rfl

theorem exec_call_of_full {s : State} (nnn : BitVec 12) (hsp : s.sp = 16) :
    exec (.call nnn) s = .next (faultedFrom s (.stackOverflow 16)) := by
  rw [exec_call, State.push_full s.nextPC _ hsp]
  rfl

end Sys2Proof.Machine

namespace Sys2Proof.Proofs
open Sys2Proof.Machine Sys2Proof.Claims

/-- Settles O13: the entry the RET pops is the top one below SP, where the CALL pushed its return address. -/
theorem callThenReturnResumes : Obligations.CallThenReturnResumes := by
  intro s nnn hroom
  refine ⟨_, exec_call_of_room nnn hroom, fun u hsp hstack => ?_⟩
  have hentry : u.stack[s.sp.val] = s.pc + 2 :=
    (hstack s.sp.val hroom (Nat.lt_succ_self _)).trans (Vector.getElem_set_self _)
  exact ⟨_, exec_ret_of_sp hroom (congrArg Fin.val hsp), hentry, rfl, rfl⟩

/-- Settles O9: the clear framebuffer reads 0 at every cell. -/
theorem clearScreen : Obligations.ClearScreen :=
  ⟨decode_encode (i := .cls) rfl, fun _ => ⟨_, rfl, Framebuffer.at_clear, rfl, rfl, rfl, fun _ => rfl⟩⟩

/-- Settles O10, by whether the stack is empty. -/
theorem returnPopsOrUnderflows : Obligations.ReturnPopsOrUnderflows :=
  ⟨decode_encode (i := .ret) rfl, fun _ => ⟨fun _ => exec_ret_of_sp, exec_ret_of_empty⟩⟩

/-- Settles O11, by whether the stack is full. -/
theorem callPushesOrOverflows : Obligations.CallPushesOrOverflows :=
  fun _ nnn => ⟨decode_encode (i := .call nnn) rfl, exec_call_of_room nnn, exec_call_of_full nnn⟩

/-- Settles O12: the meanings replace PC by the address, whose value is `nnn` or the whole sum. -/
theorem jumpsSetPC : Obligations.JumpsSetPC := by
  intro s nnn
  refine ⟨⟨decode_encode (i := .jp nnn) rfl, ?_⟩, decode_encode (i := .jpV0 nnn) rfl, ?_⟩
  · rw [← zextAddr_eq_word]
    rfl
  · rw [← zextAddr_add_byte]
    rfl

end Sys2Proof.Proofs
end

section
/-! SUPPORT. The address a skip leaves in PC, the key that Vx names under each policy, and the key wait and the timer tick
under the other policies (42_conditional_skip.md R180 to R187, 47_input.md R314, 60_exceptions.md R344). -/

namespace Sys2Proof.Machine
open Sys2Proof.Claims

/-- A skip on `p` from the fetch's advance: PC is 4 on where `p` holds and 2 on where not (42_conditional_skip.md R180). -/
theorem State.nextPC_skipIf (s : State) {c : Bool} {p : Prop} [Decidable p] (h : c = true ↔ p) :
    s.nextPC.skipIf c = { s with pc := s.pc + if p then 4 else 2 } := by
  cases c with
  | true =>
    rw [if_pos (h.mp rfl)]
    exact congrArg (fun a => { s with pc := a }) (BitVec.add_assoc s.pc 2 2)
  | false =>
    rw [if_neg (fun hp => Bool.false_ne_true (h.mpr hp))]
    rfl

/-- A skip on the negation of `p`. -/
theorem State.nextPC_skipIf_not (s : State) {c : Bool} {p : Prop} [Decidable p] (h : c = true ↔ ¬p) :
    s.nextPC.skipIf c = { s with pc := s.pc + if p then 2 else 4 } := by
  rw [State.nextPC_skipIf s h, ite_not]

/-- A byte that is a key index names that key, whatever the policy (42_conditional_skip.md R187). -/
theorem keyIndex_of_toNat_eq (policy : KeyIndexPolicy) {b : Byte} {k : Key} (h : b.toNat = k.val) :
    keyIndex policy b = .ok k := by
  have hle : b.toNat ≤ 0xF := by omega
  exact (dif_pos hle).trans (congrArg Except.ok (Fin.ext h))

/-- Under LOW_NIBBLE every byte names the key of its low nibble (42_conditional_skip.md R187). -/
theorem keyIndex_lowNibble {b : Byte} {k : Key} (h : b.toNat % 16 = k.val) : keyIndex .lowNibble b = .ok k := by
  by_cases hle : b.toNat ≤ 0xF
  · exact keyIndex_of_toNat_eq _ (by omega)
  · rw [keyIndex, dif_neg hle]
    exact congrArg Except.ok (Fin.ext h)

/-- Under FAULT a byte that is no key index raises KeyIndexRange (42_conditional_skip.md R187). -/
theorem keyIndex_fault_of_range {b : Byte} (h : b.toNat > 0xF) : keyIndex .fault b = .error (.keyIndexRange b) := by
  rcases keyIndex_fault b with ⟨hle, -⟩ | ⟨-, herr⟩
  · omega
  · exact herr

/-- SKP once Vx names a key, under any configuration (42_conditional_skip.md R185). -/
theorem execSkpUnder_of_key {c : Config} {s : State} {x : Reg} {k : Key}
    (hk : keyIndex c.keyIndexPolicy (s.getV x) = .ok k) :
    execSkpUnder c x s = .next { s with pc := s.pc + if s.isPressed k then 4 else 2 } := by
  rw [execSkpUnder, hk]
  exact congrArg Host.Outcome.next (State.nextPC_skipIf s Iff.rfl)

/-- SKNP once Vx names a key, under any configuration (42_conditional_skip.md R186). -/
theorem execSknpUnder_of_key {c : Config} {s : State} {x : Reg} {k : Key}
    (hk : keyIndex c.keyIndexPolicy (s.getV x) = .ok k) :
    execSknpUnder c x s = .next { s with pc := s.pc + if s.isPressed k then 2 else 4 } := by
  rw [execSknpUnder, hk]
  exact congrArg Host.Outcome.next (State.nextPC_skipIf_not s (by simp))

/-- Ex9E and ExA1 take the fault that Vx's key index raises. -/
theorem exec_keySkip_of_fault {s : State} {x : Reg} {f : Fault} (hf : keyIndex .fault (s.getV x) = .error f) :
    exec (.skp x) s = .next (faultedFrom s f) ∧ exec (.sknp x) s = .next (faultedFrom s f) := by
  constructor
  · change execSkpUnder hardware x s = _
    rw [execSkpUnder, hardware_keyIndexPolicy, hf]
    rfl
  · change execSknpUnder hardware x s = _
    rw [execSknpUnder, hardware_keyIndexPolicy, hf]
    rfl

/-- Fx0A under CLEAR_ON_ENTRY always waits, for NOTIFY is empty when it looks (47_input.md R314). -/
theorem execLdVxKUnder_of_clearOnEntry {c : Config} (h : c.keyWaitStale = .clearOnEntry) (s : State) (x : Reg) :
    execLdVxKUnder c x s = .next { s with notify := none, execState := .waitKey x, pc := s.pc + 2 } := by
  rw [execLdVxKUnder, h]
  rfl

/-- A timer tick where the timer is not enabled (60_exceptions.md R344, R353). -/
theorem timerTickUnder_of_not_enabled {c : Config} {s : State}
    (h : timerEnabled c.timersDuringKeyWait s.execState = false) : timerTickUnder c s = s := by
  rw [timerTickUnder, h]
  rfl

end Sys2Proof.Machine

namespace Sys2Proof.Proofs
open Sys2Proof.Machine Sys2Proof.Claims

/-- Settles O14: each instruction skips by its own comparison. -/
theorem registerSkips : Obligations.RegisterSkips := by
  intro s x y kk
  refine ⟨⟨decode_encode (i := .seImm x kk) rfl, ?_⟩, ⟨decode_encode (i := .sneImm x kk) rfl, ?_⟩,
    ⟨decode_encode (i := .seReg x y) rfl, ?_⟩, decode_encode (i := .sneReg x y) rfl, ?_⟩
  · exact congrArg Host.Outcome.next (State.nextPC_skipIf s beq_iff_eq)
  · exact congrArg Host.Outcome.next (State.nextPC_skipIf_not s bne_iff_ne)
  · exact congrArg Host.Outcome.next (State.nextPC_skipIf s beq_iff_eq)
  · exact congrArg Host.Outcome.next (State.nextPC_skipIf_not s bne_iff_ne)

/-- Settles O15, by whether Vx is a key index. -/
theorem keySkips : Obligations.KeySkips := by
  intro s x
  refine ⟨decode_encode (i := .skp x) rfl, decode_encode (i := .sknp x) rfl, fun k hk => ?_, fun hrange => ?_⟩
  · have hkey : keyIndex hardware.keyIndexPolicy (s.getV x) = .ok k := keyIndex_of_toNat_eq _ hk
    exact ⟨execSkpUnder_of_key hkey, execSknpUnder_of_key hkey⟩
  · exact exec_keySkip_of_fault (keyIndex_fault_of_range hrange)

/-- Settles O57, one policy at a time. -/
theorem otherKeyAndTimerPolicies : Obligations.OtherKeyAndTimerPolicies := by
  intro c s x
  refine ⟨fun hpolicy k hk => ?_, fun hclear => execLdVxKUnder_of_clearOnEntry hclear s x, fun hoff hwait => ?_⟩
  · have hkey : keyIndex c.keyIndexPolicy (s.getV x) = .ok k := by rw [hpolicy, keyIndex_lowNibble hk]
    exact ⟨execSkpUnder_of_key hkey, execSknpUnder_of_key hkey⟩
  · have hdisabled : timerEnabled c.timersDuringKeyWait s.execState = false := by rw [hoff, hwait]; rfl
    exact congrArg Host.Outcome.next (timerTickUnder_of_not_enabled hdisabled)

end Sys2Proof.Proofs
end

section
/-! SUPPORT. What a register instruction leaves in V, with and without a flag, and the value each operation computes, on
naturals (43_register_arithmetic.md R201 to R214). -/

namespace Sys2Proof.Machine
open Sys2Proof.Claims

/-! ### The values -/

/-- A sum of bytes is the sum modulo 256 (43_register_arithmetic.md R200). -/
theorem byte_add_eq_ofNat (a b : Byte) : a + b = BitVec.ofNat 8 ((a.toNat + b.toNat) % 256) :=
  BitVec.eq_of_toNat_eq (by simp)

/-- A difference of bytes is the difference modulo 256 (43_register_arithmetic.md R200). -/
theorem byte_sub_eq_ofNat (a b : Byte) : a - b = BitVec.ofNat 8 ((a.toNat + 256 - b.toNat) % 256) := by
  refine BitVec.eq_of_toNat_eq ?_
  rw [BitVec.toNat_sub, BitVec.toNat_ofNat]
  omega

/-- The pair of a result and a flag is the byte `b` and the truth of `flag`. -/
def Yields (rf : Byte × Bool) (b : Byte) (flag : Prop) : Prop := rf.1 = b ∧ (rf.2 = true ↔ flag)

theorem addWithCarry_yields (a b : Byte) :
    Yields (addWithCarry a b) (BitVec.ofNat 8 ((a.toNat + b.toNat) % 256)) (a.toNat + b.toNat > 255) :=
  ⟨BitVec.eq_of_toNat_eq (by simp [addWithCarry]), decide_eq_true_iff⟩

theorem subNotBorrow_yields (a b : Byte) :
    Yields (subNotBorrow a b) (BitVec.ofNat 8 ((a.toNat + 256 - b.toNat) % 256)) (a.toNat > b.toNat) :=
  ⟨byte_sub_eq_ofNat a b, decide_eq_true_iff⟩

theorem shiftRight_yields (a : Byte) : Yields (shiftRight a) (BitVec.ofNat 8 (a.toNat / 2)) (a.toNat % 2 = 1) := by
  constructor
  · refine BitVec.eq_of_toNat_eq ?_
    rw [shiftRight, BitVec.toNat_ushiftRight, Nat.shiftRight_eq_div_pow, BitVec.toNat_ofNat]
    omega
  · rw [shiftRight, BitVec.getLsbD, Nat.testBit_zero, decide_eq_true_iff]

theorem shiftLeft_yields (a : Byte) : Yields (shiftLeft a) (BitVec.ofNat 8 (a.toNat * 2 % 256)) (a.toNat ≥ 128) := by
  constructor
  · refine BitVec.eq_of_toNat_eq ?_
    rw [shiftLeft, BitVec.toNat_shiftLeft, Nat.shiftLeft_eq, BitVec.toNat_ofNat]
    omega
  · change a.msb = true ↔ _
    rw [BitVec.msb_eq_decide, decide_eq_true_iff]

/-! ### The writes -/

/-- A flag write stores 1 where the flag holds and 0 where not (10_state.md R43). -/
theorem flagByte_eq_ite {f : Bool} {flag : Prop} [Decidable flag] (h : f = true ↔ flag) :
    flagByte f = if flag then 1 else 0 := by
  rw [flagByte, if_congr h rfl rfl]

/-- `RESULT_LAST`: Vx ends as the result, x = F too (43_register_arithmetic.md R201). -/
theorem State.getV_writeWithFlag_resultLast (s : State) (x y : Reg) (rf : Byte × Bool) :
    (s.writeWithFlag .resultLast x rf).getV y =
      if y = x then rf.1 else if y = Reg.vf then flagByte rf.2 else s.getV y := by
  simp only [State.writeWithFlag, State.getV_setV]

theorem wrote_nextPC_setV (s : State) (x : Reg) (b : Byte) : Wrote s (s.nextPC.setV x b) x b :=
  ⟨fun r => State.getV_setV s.nextPC x r b, rfl, rfl, fun _ => rfl⟩

theorem wroteWithFlag_of_yields (s : State) (x : Reg) {rf : Byte × Bool} {b : Byte} {flag : Prop} [Decidable flag]
    (h : Yields rf b flag) : WroteWithFlag s (s.nextPC.writeWithFlag .flagLast x rf) x b flag := by
  obtain ⟨rfl, hflag⟩ := h
  refine ⟨fun r => ?_, rfl, rfl, fun _ => rfl⟩
  rw [State.getV_writeWithFlag_flagLast, flagByte_eq_ite hflag]
  rfl

theorem wroteResultLast_of_yields {o : FlagOrder} (ho : o = .resultLast) (s : State) (x : Reg) {rf : Byte × Bool}
    {b : Byte} {flag : Prop} [Decidable flag] (h : Yields rf b flag) :
    WroteResultLast s (s.nextPC.writeWithFlag o x rf) x b flag := by
  obtain ⟨rfl, hflag⟩ := h
  subst ho
  refine ⟨fun r => ?_, rfl, rfl, fun _ => rfl⟩
  rw [State.getV_writeWithFlag_resultLast, flagByte_eq_ite hflag]
  rfl

end Sys2Proof.Machine

namespace Sys2Proof.Proofs
open Sys2Proof.Machine Sys2Proof.Claims

/-- Settles O5: each of the six is one write to Vx after the fetch's advance. -/
theorem loadAddCopyAndLogic : Obligations.LoadAddCopyAndLogic := by
  intro s x y kk
  refine ⟨⟨decode_encode (i := .ldImm x kk) rfl, _, rfl, wrote_nextPC_setV s x _⟩,
    ⟨decode_encode (i := .addImm x kk) rfl, _, rfl, ?_⟩,
    ⟨decode_encode (i := .ldReg x y) rfl, _, rfl, wrote_nextPC_setV s x _⟩,
    ⟨decode_encode (i := .orReg x y) rfl, _, rfl, wrote_nextPC_setV s x _⟩,
    ⟨decode_encode (i := .andReg x y) rfl, _, rfl, wrote_nextPC_setV s x _⟩,
    decode_encode (i := .xorReg x y) rfl, _, rfl, wrote_nextPC_setV s x _⟩
  rw [← byte_add_eq_ofNat]
  exact wrote_nextPC_setV s x _

/-- Settles O6: under this hardware's `FLAG_LAST` each writes the pair its operation yields. -/
theorem addAndSubtractWithFlag : Obligations.AddAndSubtractWithFlag := fun s x y =>
  ⟨⟨decode_encode (i := .addReg x y) rfl, _, rfl, wroteWithFlag_of_yields s x (addWithCarry_yields _ _)⟩,
    ⟨decode_encode (i := .subReg x y) rfl, _, rfl, wroteWithFlag_of_yields s x (subNotBorrow_yields _ _)⟩,
    decode_encode (i := .subn x y) rfl, _, rfl, wroteWithFlag_of_yields s x (subNotBorrow_yields _ _)⟩

/-- Settles O7: the bit shifted out is bit 0 or bit 7 of Vx, and the meanings do not read Vy. -/
theorem shiftsMoveOneBitIntoFlag : Obligations.ShiftsMoveOneBitIntoFlag := fun s x y =>
  ⟨⟨decode_encode (i := .shr x y) rfl, _, rfl, wroteWithFlag_of_yields s x (shiftRight_yields _)⟩,
    decode_encode (i := .shl x y) rfl, _, rfl, wroteWithFlag_of_yields s x (shiftLeft_yields _)⟩

/-- Settles O8: the byte drawn is that of the counter before the draw, and a mask of 0 leaves nothing of it. -/
theorem randomByteIsMasked : Obligations.RandomByteIsMasked := by
  intro s x kk
  refine ⟨decode_encode (i := .rnd x kk) rfl, _, rfl, fun r => State.getV_setV s.nextPC.drawByte.2 x r _, fun hkk => ?_,
    rfl, rfl, rfl, fun _ => rfl⟩
  rw [State.getV_setV_self, hkk]
  exact BitVec.and_zero

/-- Settles O56: the pairs are those of O6 and O7, written in the other order. -/
theorem resultLastKeepsTheResult : Obligations.ResultLastKeepsTheResult := fun _ s x _ horder =>
  ⟨⟨_, rfl, wroteResultLast_of_yields horder s x (addWithCarry_yields _ _)⟩,
    ⟨_, rfl, wroteResultLast_of_yields horder s x (subNotBorrow_yields _ _)⟩,
    ⟨_, rfl, wroteResultLast_of_yields horder s x (subNotBorrow_yields _ _)⟩,
    ⟨_, rfl, wroteResultLast_of_yields horder s x (shiftRight_yields _)⟩,
    _, rfl, wroteResultLast_of_yields horder s x (shiftLeft_yields _)⟩

end Sys2Proof.Proofs
end

section
/-! SUPPORT. The index register, and the stores and loads through it on this hardware (44_index_memory.md R240 to R247). -/

namespace Sys2Proof.Machine
open Sys2Proof.Claims

/-! ### Addresses -/

/-- Addresses that reach one cell read the same (20_memory.md R72). -/
theorem State.memRead_eq_of_cellOf_eq (s : State) {a b : Nat} (h : cellOf a = cellOf b) : s.memRead a = s.memRead b :=
  congrArg s.mem.read h

theorem cellOf_succ_eq {a b : Nat} (h : cellOf a = cellOf b) : cellOf (a + 1) = cellOf (b + 1) :=
  Nat.ModEq.add_right 1 h

/-! ### The values of I -/

/-- I plus a byte is the sum modulo 65536 (44_index_memory.md R242). -/
theorem word_add_zeroExtend (a : Word) (b : Byte) :
    a + b.zeroExtend 16 = word ((a.toNat + b.toNat) % 65536) :=
  BitVec.eq_of_toNat_eq (by simp [word])

/-! ### Stores -/

/-- A store through I stands when none of its addresses is reserved (20_memory.md R73). -/
theorem State.conclude_memWriteList_of_unreserved {s : State} (hwf : s.mem.wf = true) {bs : List Byte}
    (hlen : bs.length ≤ Size.memSize) (hfree : ∀ j < bs.length, 0x200 ≤ slot s j) :
    ∃ t, s.conclude (s.nextPC.memWriteList hardware s.base bs) = .next t ∧ Stored s t bs :=
  State.conclude_memWriteList_stored hwf hlen fun j hj => .inr (by simpa using hfree j hj)

/-- A store through I with a reserved address is the fault at the first one (20_memory.md R73, 60_exceptions.md R336). -/
theorem State.conclude_memWriteList_of_firstReserved {s : State} {bs : List Byte} {j : Nat}
    (h : FirstReserved s bs.length j) :
    s.conclude (s.nextPC.memWriteList hardware s.base bs) = .next (faultedFrom s (.reservedWrite (slot s j))) := by
  obtain ⟨hj, hres, hbefore⟩ := h
  exact congrArg s.conclude (State.memWriteList_error hj hbefore hres)

/-- Fx55 with no address reserved stores V0..Vx (44_index_memory.md R245). -/
theorem exec_ldStore_of_unreserved {s : State} {x : Reg} (hwf : s.mem.wf = true)
    (hfree : ∀ j < x.val + 1, 0x200 ≤ slot s j) :
    ∃ t, exec (.ldStore x) s = .next t ∧ Stored s t (s.valuesUpTo x) := by
  have hlen := State.length_valuesUpTo s x
  refine State.conclude_memWriteList_of_unreserved hwf ?_ (hlen.symm ▸ hfree)
  rw [hlen, Size.memSize]
  omega

/-- A store leaves I as it was (44_index_memory.md R240). -/
theorem State.i_of_stored {s t : State} {bs : List Byte} (h : Stored s t bs) : t.i = s.i := by
  obtain ⟨-, -, -, hframe⟩ := h
  exact (congrArg State.i hframe).trans rfl

/-! ### The load -/

/-- Everything Fx65 does: V0..Vx take their bytes, PC moves over the instruction, and nothing else changes
(44_index_memory.md R246). -/
theorem exec_ldLoad (s : State) (x : Reg) :
    ∃ t, exec (.ldLoad x) s = .next t
      ∧ (∀ r, t.getV r = if r ≤ x then s.memRead (s.base + r.val) else s.getV r)
      ∧ t.pc = s.pc + 2 ∧ t = { s with v := t.v, pc := t.pc } ∧ t.mem = s.mem := by
  obtain ⟨hframe, hget⟩ := State.loadRegs_spec s.nextPC s.base (regsUpTo x)
  have hpc : (s.nextPC.loadRegs s.base (regsUpTo x)).pc = s.pc + 2 := (congrArg State.pc hframe).trans rfl
  refine ⟨_, rfl, fun r => (hget r).trans (if_congr mem_regsUpTo rfl rfl), hpc, ?_,
    (congrArg State.mem hframe).trans rfl⟩
  rw [hpc]
  exact hframe

end Sys2Proof.Machine

namespace Sys2Proof.Proofs
open Sys2Proof.Machine Sys2Proof.Claims

/-- Settles O17: the digits are a list of three bytes stored through I. -/
theorem storeDecimalDigits : Obligations.StoreDecimalDigits := fun s x hwf =>
  ⟨decode_encode (i := .ldB x) rfl,
    State.conclude_memWriteList_of_unreserved hwf (bs := bcdDigits (s.getV x)) (by decide : 3 ≤ 4096),
    fun _ hfirst => State.conclude_memWriteList_of_firstReserved (bs := bcdDigits (s.getV x)) hfirst⟩

/-- Settles O18: V0..Vx are a list of x + 1 bytes stored through I. -/
theorem storeRegisters : Obligations.StoreRegisters := by
  intro s x hwf
  have hlen := State.length_valuesUpTo s x
  refine ⟨decode_encode (i := .ldStore x) rfl, fun hfree => ?_,
    fun j hfirst => State.conclude_memWriteList_of_firstReserved (hlen.symm ▸ hfirst)⟩
  obtain ⟨t, ht, hstored⟩ := exec_ldStore_of_unreserved hwf hfree
  have hreads : ∀ r ≤ x, t.memRead (s.base + r.val) = s.getV r :=
    fun r hr => State.memRead_of_stored_valuesUpTo hstored hr
  obtain ⟨-, hout, hpc, hframe⟩ := hstored
  exact ⟨t, ht, hreads, hlen ▸ hout, hpc, hframe⟩

/-- Settles O19: the load does not write memory, so memory reads as before. -/
theorem loadRegisters : Obligations.LoadRegisters := by
  intro s x
  obtain ⟨t, ht, hget, hpc, hframe, hmem⟩ := exec_ldLoad s x
  exact ⟨decode_encode (i := .ldLoad x) rfl, t, ht, hget, hpc, hframe, State.memRead_congr hmem⟩

/-- Settles O20: the load reads the cells of the store, for it has its I and its memory. -/
theorem blockTransferRestoresRegisters : Obligations.BlockTransferRestoresRegisters := by
  intro s x hwf hfree
  obtain ⟨t, ht, hstored⟩ := exec_ldStore_of_unreserved hwf hfree
  refine ⟨t, ht, fun u hi hmem => ?_⟩
  obtain ⟨r, hr, hget, -, -, hsame⟩ := exec_ldLoad u x
  have hbase : u.base = s.base := congrArg BitVec.toNat (hi.trans (State.i_of_stored hstored))
  have hread : ∀ q ≤ x, u.memRead (s.base + q.val) = s.getV q := fun q hq =>
    (State.memRead_congr hmem _).trans (State.memRead_of_stored_valuesUpTo hstored hq)
  refine ⟨r, hr, fun q hq => ⟨?_, (State.memRead_congr hsame _).trans (hread q hq)⟩⟩
  rw [hget q, if_pos hq, hbase, hread q hq]

/-- Settles O21: the two addresses of the fetch reach the cells of the j-th and the next stored byte. -/
theorem fetchSeesTheStore : Obligations.FetchSeesTheStore := by
  intro s x j pc hwf hfree hj hpc
  obtain ⟨t, ht, hstored⟩ := exec_ldStore_of_unreserved hwf hfree
  have hfirst : t.memRead pc.toNat = s.getV j :=
    (t.memRead_eq_of_cellOf_eq hpc).trans (State.memRead_of_stored_valuesUpTo hstored (Fin.le_of_lt hj))
  have hnext : t.memRead (pc.toNat + 1) = s.getV ⟨j.val + 1, Nat.lt_of_le_of_lt hj x.isLt⟩ :=
    (t.memRead_eq_of_cellOf_eq (cellOf_succ_eq hpc)).trans
      (State.memRead_of_stored_valuesUpTo hstored (r := ⟨j.val + 1, Nat.lt_of_le_of_lt hj x.isLt⟩) hj)
  exact ⟨t, ht, congrArg₂ wordOfBytes hfirst hnext⟩

/-- Settles O16: each of the three is one write to I after the fetch's advance. -/
theorem indexRegisterWrites : Obligations.IndexRegisterWrites := by
  intro s x nnn
  refine ⟨⟨decode_encode (i := .ldI nnn) rfl, ?_⟩, ⟨decode_encode (i := .addI x) rfl, ?_⟩,
    decode_encode (i := .ldF x) rfl, rfl⟩
  · rw [← zextAddr_eq_word]
    rfl
  · rw [← word_add_zeroExtend]
    rfl

end Sys2Proof.Proofs
end

section
/-! SUPPORT. The two timers: what a timer tick does to each, which step writes each, and the countdown along a list of
agents' steps (45_timers.md R271 to R274, 60_exceptions.md R344, R345). -/

namespace Sys2Proof.Machine
open Sys2Proof.Claims

/-! ### One step -/

theorem toNat_tickDown (b : Byte) : (tickDown b).toNat = b.toNat - 1 := by
  by_cases hb : b = 0
  · rw [hb]
    rfl
  · rw [tickDown, if_neg hb]
    bv_omega

theorem timerTick_of_live {s : State} (h : s.execState.isLive = true) :
    timerTick s = { s with dt := tickDown s.dt, st := tickDown s.st } := by
  have henabled : timerEnabled hardware.timersDuringKeyWait s.execState = true := by
    cases he : s.execState with
    | running | waitKey => rfl
    | stopped | faulted => rw [he] at h; cases h
  exact if_pos henabled

@[simp] theorem keyWaitDone_dt (s : State) : (keyWaitDone s).dt = s.dt := by
  unfold keyWaitDone; split <;> rfl

@[simp] theorem keyWaitDone_st (s : State) : (keyWaitDone s).st = s.st := by
  unfold keyWaitDone; split <;> rfl

@[simp] theorem acceptKey_dt (k : Key) (pressed : Bool) (s : State) : (acceptKey k pressed s).dt = s.dt := by
  unfold acceptKey; split <;> rfl

@[simp] theorem acceptKey_st (k : Key) (pressed : Bool) (s : State) : (acceptKey k pressed s).st = s.st := by
  unfold acceptKey; split <;> rfl

@[simp] theorem stopSignal_dt (s : State) : (stopSignal s).dt = s.dt := by
  unfold stopSignal; split <;> rfl

@[simp] theorem stopSignal_st (s : State) : (stopSignal s).st = s.st := by
  unfold stopSignal; split <;> rfl

/-- An instruction tick executes the decoded instruction, or takes the fault of an illegal word. -/
theorem fetchExecute_cases {s t : State} (h : fetchExecute s = .next t) :
    (∃ ins, decode s.fetchWord = .ok ins ∧ exec ins s = .next t) ∨ ∃ f, t = faultedFrom s f := by
  cases hd : decode s.fetchWord with
  | ok ins => exact .inl ⟨ins, rfl, fetchExecute_of_decode hd ▸ h⟩
  | error e =>
    rw [fetchExecute_of_error hd] at h
    cases h
    exact .inr ⟨_, rfl⟩

/-- Apart from the timer tick, only an instruction tick that executes Fx15 writes DT, and only one that executes Fx18
writes ST (10_state.md R40, R41). -/
theorem activate_timer_writers {a : Activation} {s t : State} (h : activate a s = .next t) (ha : a ≠ .timerTick) :
    (t.dt ≠ s.dt → a = .instrTick ∧ ∃ ins, s.Executes ins ∧ ∃ x, ins = .ldDTVx x)
      ∧ (t.st ≠ s.st → a = .instrTick ∧ ∃ ins, s.Executes ins ∧ ∃ x, ins = .ldSTVx x) := by
  rcases activate_cases h with ⟨rfl, hrun, ht⟩ | ⟨-, rfl⟩ | ⟨hta, -⟩ | ⟨k, pressed, -, rfl⟩ | ⟨-, rfl⟩ | ⟨-, -, rfl⟩
  · rcases fetchExecute_cases ht with ⟨ins, hd, hexec⟩ | ⟨f, rfl⟩
    · obtain ⟨-, -, -, -, -, hdt, hst, -⟩ := Proofs.elementsHaveTheirWriters ins s t hexec
      exact ⟨fun hne => ⟨rfl, ins, ⟨hrun, hd⟩, hdt hne⟩, fun hne => ⟨rfl, ins, ⟨hrun, hd⟩, hst hne⟩⟩
    · exact ⟨fun hne => absurd rfl hne, fun hne => absurd rfl hne⟩
  · exact ⟨fun hne => absurd (keyWaitDone_dt s) hne, fun hne => absurd (keyWaitDone_st s) hne⟩
  · exact absurd hta ha
  · exact ⟨fun hne => absurd (acceptKey_dt k pressed s) hne, fun hne => absurd (acceptKey_st k pressed s) hne⟩
  · exact ⟨fun hne => absurd (stopSignal_dt s) hne, fun hne => absurd (stopSignal_st s) hne⟩
  · exact ⟨fun hne => absurd rfl hne, fun hne => absurd rfl hne⟩

/-! ### A list of steps -/

/-- Steps that answer a state are a first step and the steps that follow it. -/
theorem runActivations_cons_cases {a : Activation} {as : List Activation} {s t : State}
    (h : runActivations (a :: as) s = .next t) : ∃ u, activate a s = .next u ∧ runActivations as u = .next t := by
  rw [runActivations] at h
  cases hstep : activate a s with
  | next u => rw [hstep] at h; exact ⟨u, rfl, h⟩
  | fault | refused => rw [hstep] at h; cases h

/-- The timer law, for either timer: when a timer tick takes it down by one and, apart from that, only instructions that
`stops` write it, undisturbed steps leave its first value less the number of timer ticks (45_timers.md R274). -/
theorem toNat_timer_of_undisturbed {timer : State → Byte} {stops : Instr → Prop}
    (hdown : ∀ {s : State}, s.execState.isLive = true → timer (timerTick s) = tickDown (timer s))
    (hwriter : ∀ {a : Activation} {s t : State}, activate a s = .next t → a ≠ .timerTick → timer t ≠ timer s →
      a = .instrTick ∧ ∃ ins, s.Executes ins ∧ stops ins)
    {as : List Activation} {s t : State} (hquiet : Undisturbed stops as s) (hrun : runActivations as s = .next t) :
    (timer t).toNat = (timer s).toNat - as.count .timerTick := by
  induction as generalizing s with
  | nil => cases hrun; rfl
  | cons a as ih =>
    obtain ⟨hlive, hexec, hnext⟩ := hquiet
    obtain ⟨u, hu, hrest⟩ := runActivations_cons_cases hrun
    rw [ih (hnext u hu) hrest]
    by_cases ha : a = .timerTick
    · subst ha
      cases hu
      rw [hdown hlive, toNat_tickDown, List.count_cons_self]
      omega
    · have hkept : timer u = timer s := by
        by_contra hne
        obtain ⟨hinstr, ins, hins, hstops⟩ := hwriter hu ha hne
        exact hexec hinstr ins hins hstops
      rw [hkept, List.count_cons_of_ne ha]

end Sys2Proof.Machine

namespace Sys2Proof.Proofs
open Sys2Proof.Machine

/-- Settles O24: the timer law for DT with Fx15 and for ST with Fx18. -/
theorem timerFallsOncePerTick : Obligations.TimerFallsOncePerTick := by
  intro as s t hrun
  constructor <;> intro hquiet
  · exact toNat_timer_of_undisturbed (timer := State.dt) (fun hlive => congrArg State.dt (timerTick_of_live hlive))
      (fun h ha => (activate_timer_writers h ha).1) hquiet hrun
  · exact toNat_timer_of_undisturbed (timer := State.st) (fun hlive => congrArg State.st (timerTick_of_live hlive))
      (fun h ha => (activate_timer_writers h ha).2) hquiet hrun

/-- Settles O22: each of the three is one write after the fetch's advance, and the advance leaves DT and Vx. -/
theorem timerRegisterCopies : Obligations.TimerRegisterCopies := fun s x =>
  ⟨⟨decode_encode (i := .ldVxDT x) rfl, _, rfl, wrote_nextPC_setV s x s.dt⟩,
    ⟨decode_encode (i := .ldDTVx x) rfl, rfl⟩,
    decode_encode (i := .ldSTVx x) rfl, rfl⟩

end Sys2Proof.Proofs
end

section
/-! SUPPORT. DRW: the sprite it draws, and one statement of everything it does to a state, under either origin
(46_drawing.md R284 to R290). -/

namespace Sys2Proof.Machine
open Sys2Proof.Claims

/-- The word of DRW decodes for every row count that its field holds (30_encoding.md R105). -/
theorem decode_drw_word (x y : Reg) (n : BitVec 4) : decode (packXYN 0xD x y n) = .ok (.drw x y n.toNat) := by
  have hwf : (Instr.drw x y n.toNat).wf = true := decide_eq_true (Nat.le_of_lt_succ n.isLt)
  simpa only [encode, BitVec.ofNat_toNat, BitVec.setWidth_eq] using decode_encode hwf

/-! ### The sprite in memory -/

theorem State.length_memReadList (s : State) (addr n : Nat) : (s.memReadList addr n).length = n := by
  simp [State.memReadList]

theorem State.getD_memReadList (s : State) (addr : Nat) {n r : Nat} (hr : r < n) :
    (s.memReadList addr n).getD r 0 = s.memRead (addr + r) := by
  simp [State.memReadList, hr]

/-- The pixel of a sprite whose rows are read from memory: its row is the byte at that offset. -/
theorem spritePixel_memReadList (wrap : OriginWrap) (ox oy : Byte) (s : State) (addr n px py : Nat) :
    spritePixel wrap ox oy (s.memReadList addr n) px py =
      (decide ((reduceOrigin wrap ox oy).1 ≤ px ∧ px < (reduceOrigin wrap ox oy).1 + 8
          ∧ (reduceOrigin wrap ox oy).2 ≤ py ∧ py < (reduceOrigin wrap ox oy).2 + n)
        && (s.memRead (addr + (py - (reduceOrigin wrap ox oy).2))).getLsbD (7 - (px - (reduceOrigin wrap ox oy).1))) := by
  rw [spritePixel, State.length_memReadList, Bool.eq_iff_iff, Bool.and_eq_true, Bool.and_eq_true]
  refine and_congr_right fun hreach => ?_
  rw [decide_eq_true_eq] at hreach
  rw [State.getD_memReadList s addr (by omega)]

/-- Under `DIM_MINUS_1` the drawn sprite is that of the statements. -/
theorem spritePixel_dimMinus1 (s : State) (x y : Reg) (n : Nat) :
    spritePixel .dimMinus1 (s.getV x) (s.getV y) (s.memReadList s.base n) = spriteOn s x y n :=
  funext₂ fun px py => spritePixel_memReadList .dimMinus1 (s.getV x) (s.getV y) s s.base n px py

theorem spritePixel_dim (s : State) (x y : Reg) (n : Nat) :
    spritePixel .dim (s.getV x) (s.getV y) (s.memReadList s.base n) = spriteOnDim s x y n :=
  funext₂ fun px py => spritePixel_memReadList .dim (s.getV x) (s.getV y) s s.base n px py

/-- The sprite depends on the two registers, on I and on memory alone. -/
theorem spriteOn_congr {s t : State} {x y : Reg} (hx : t.getV x = s.getV x) (hy : t.getV y = s.getV y) (hi : t.i = s.i)
    (hmem : SameMemory s t) (n : Nat) : spriteOn t x y n = spriteOn s x y n := by
  funext px py
  simp only [spriteOn, State.base, hx, hy, hi, hmem _]

/-! ### What DRW does -/

/-- Some pixel of the picture `on` is 1 on a cell of the screen that holds 1 (46_drawing.md R287). -/
def Meets (on : Nat → Nat → Bool) (fb : Framebuffer) : Prop :=
  ∃ px py, px < 64 ∧ py < 32 ∧ on px py = true ∧ fb.at px py = true

theorem not_meets_clear (on : Nat → Nat → Bool) : ¬ Meets on Framebuffer.clear := by
  rintro ⟨px, py, -, -, -, hlit⟩
  rw [Framebuffer.at_clear] at hlit
  cases hlit

/-- `t` is `s` after a DRW of the picture `on`: the screen XORed with it, VF the collision, one Flush, PC past the
instruction, everything else as before (46_drawing.md R288). -/
structure Drew (on : Nat → Nat → Bool) (s t : State) : Prop where
  fb_at : ∀ px py, px < 64 → py < 32 → t.fb.at px py = (s.fb.at px py ^^ on px py)
  vf_of_meets : Meets on s.fb → t.getV 15 = 1
  vf_of_not_meets : ¬ Meets on s.fb → t.getV 15 = 0
  getV_ne : ∀ r, r ≠ 15 → t.getV r = s.getV r
  emitted : t.emitted = s.emitted ++ [.flush]
  pc : t.pc = s.pc + 2
  frame : t = { s with fb := t.fb, v := t.v, emitted := t.emitted, pc := t.pc }
  memory : SameMemory s t

/-- DRW under any configuration draws the sprite at I from that configuration's origin. -/
theorem execDrwUnder_drew (c : Config) (s : State) (x y : Reg) (n : Nat) :
    ∃ t, execDrwUnder c x y n s = .next t
      ∧ Drew (spritePixel c.originWrap (s.getV x) (s.getV y) (s.memReadList s.base n)) s t := by
  have hflag := blit_collision c.originWrap s.fb (s.getV x) (s.getV y) (s.memReadList s.base n)
  refine ⟨_, rfl, fun px py hx hy => blit_at _ _ _ _ _ hx hy, fun hmeets => ?_, fun hmiss => ?_,
    fun r hr => State.getV_setV_ne _ _ hr, rfl, rfl, rfl, fun _ => rfl⟩
  · exact (State.getV_setV_self _ _ _).trans (if_pos (hflag.2 hmeets))
  · exact (State.getV_setV_self _ _ _).trans (if_neg fun h => hmiss (hflag.1 h))

theorem exec_drw_drew (s : State) (x y : Reg) (n : Nat) :
    ∃ t, exec (.drw x y n) s = .next t ∧ Drew (spriteOn s x y n) s t :=
  spritePixel_dimMinus1 s x y n ▸ execDrwUnder_drew hardware s x y n

section
variable {on : Nat → Nat → Bool} {s t u : State}

/-- On a clear screen the picture itself appears. -/
theorem Drew.fb_at_of_clear (h : Drew on s t) (hclear : s.fb = Framebuffer.clear) {px py : Nat} (hx : px < 64)
    (hy : py < 32) : t.fb.at px py = on px py := by
  rw [h.fb_at px py hx hy, hclear, Framebuffer.at_clear, Bool.false_xor]

theorem Drew.vf_of_clear (h : Drew on s t) (hclear : s.fb = Framebuffer.clear) : t.getV 15 = 0 :=
  h.vf_of_not_meets (hclear ▸ not_meets_clear on)

/-- A DRW whose registers are not VF leaves its own sprite as it was. -/
theorem Drew.spriteOn_eq (h : Drew on s t) {x y : Reg} (hx : x ≠ 15) (hy : y ≠ 15) (n : Nat) :
    spriteOn t x y n = spriteOn s x y n :=
  spriteOn_congr (h.getV_ne x hx) (h.getV_ne y hy) (congrArg State.i h.frame :) h.memory n

/-- A picture drawn twice is gone: the XOR undoes itself (46_drawing.md R290). -/
theorem Drew.fb_of_twice (h : Drew on s t) (h' : Drew on t u) : u.fb = s.fb :=
  Framebuffer.ext_at fun px py hx hy => by
    rw [h'.fb_at px py hx hy, h.fb_at px py hx hy, Bool.xor_assoc, Bool.xor_self, Bool.xor_false]

end

end Sys2Proof.Machine

namespace Sys2Proof.Proofs
open Sys2Proof.Machine Sys2Proof.Claims

/-- Settles O26: every row count that fits the word's field decodes, and DRW draws the sprite of the statement. -/
theorem drawSprite : Obligations.DrawSprite := by
  intro s x y
  refine ⟨decode_drw_word x y, fun n => ?_⟩
  obtain ⟨t, ht, hdrew⟩ := exec_drw_drew s x y n
  exact ⟨t, ht, hdrew.fb_at, hdrew.vf_of_meets, hdrew.vf_of_not_meets, hdrew.getV_ne, hdrew.emitted, hdrew.pc,
    hdrew.frame, hdrew.memory⟩

/-- Settles O59: the same statement of DRW, for the origin under `DIM`. -/
theorem drawFromTheOtherOrigin : Obligations.DrawFromTheOtherOrigin := by
  intro c s x y n hdim
  obtain ⟨t, ht, hdrew⟩ := execDrwUnder_drew c s x y n
  rw [hdim, spritePixel_dim] at hdrew
  exact ⟨t, ht, hdrew.fb_at, hdrew.vf_of_meets, hdrew.vf_of_not_meets, hdrew.getV_ne, hdrew.emitted, hdrew.pc,
    hdrew.frame, hdrew.memory⟩

/-- Settles O27: the second DRW draws the same sprite, on a screen that shows it when it was clear before. -/
theorem drawingTwiceRestores : Obligations.DrawingTwiceRestores := by
  intro s x y n hx hy
  obtain ⟨t, ht, hdrew⟩ := exec_drw_drew s x y n
  obtain ⟨u, hu, hagain⟩ := exec_drw_drew t x y n
  rw [hdrew.spriteOn_eq hx hy n] at hagain
  refine ⟨t, u, ht, hu, hdrew.fb_of_twice hagain, fun hclear => ?_⟩
  have hshown {px py : Nat} (hpx : px < 64) (hpy : py < 32) := hdrew.fb_at_of_clear hclear hpx hpy
  refine ⟨hdrew.vf_of_clear hclear, fun hpixel => ?_, fun hempty => ?_⟩
  · obtain ⟨px, py, hpx, hpy, hon⟩ := hpixel
    exact hagain.vf_of_meets ⟨px, py, hpx, hpy, hon, (hshown hpx hpy).trans hon⟩
  · refine hagain.vf_of_not_meets ?_
    rintro ⟨px, py, hpx, hpy, hon, -⟩
    exact hempty ⟨px, py, hpx, hpy, hon⟩

/-- Settles O28: the XOR of two pictures is the same in either order, and the second meets only cells of the first. -/
theorem disjointDrawsCommute : Obligations.DisjointDrawsCommute := by
  intro s s' x y x' y' n n' hfb
  obtain ⟨a, ha, hdrew⟩ := exec_drw_drew s x y n
  obtain ⟨a', ha', hdrew'⟩ := exec_drw_drew s' x' y' n'
  obtain ⟨b, hb, hsecond⟩ := exec_drw_drew { s' with fb := a.fb } x' y' n'
  obtain ⟨b', hb', hsecond'⟩ := exec_drw_drew { s with fb := a'.fb } x y n
  refine ⟨a, a', ha, ha', b, b', hb, hb', ?_, fun hclear hdisjoint => ?_⟩
  · refine Framebuffer.ext_at fun px py hpx hpy => ?_
    calc b.fb.at px py
        = (s.fb.at px py ^^ spriteOn s x y n px py ^^ spriteOn s' x' y' n' px py) := by
          rw [← hdrew.fb_at px py hpx hpy]; exact hsecond.fb_at px py hpx hpy
      _ = (s'.fb.at px py ^^ spriteOn s' x' y' n' px py ^^ spriteOn s x y n px py) := by
          rw [hfb, Bool.xor_right_comm]
      _ = b'.fb.at px py := by rw [← hdrew'.fb_at px py hpx hpy]; exact (hsecond'.fb_at px py hpx hpy).symm
  · have hclear' : s'.fb = Framebuffer.clear := hfb.trans hclear
    refine ⟨hdrew.vf_of_clear hclear, hdrew'.vf_of_clear hclear', hsecond.vf_of_not_meets ?_,
      hsecond'.vf_of_not_meets ?_⟩
    · rintro ⟨px, py, hpx, hpy, hon', hlit⟩
      exact hdisjoint px py hpx hpy ⟨(hdrew.fb_at_of_clear hclear hpx hpy).symm.trans hlit, hon'⟩
    · rintro ⟨px, py, hpx, hpy, hon, hlit⟩
      exact hdisjoint px py hpx hpy ⟨hon, (hdrew'.fb_at_of_clear hclear' hpx hpy).symm.trans hlit⟩

/-- Settles O29: CLS and DRW end with the Flush; of the others, a fault taken writes EXEC alone, and a frame that holds the
emitted events is that of CLS or DRW. -/
theorem flushAfterClearAndDrawOnly : Obligations.FlushAfterClearAndDrawOnly := by
  intro ins s t h
  refine ⟨?_, fun hcls hdrw => ?_⟩
  · rintro (rfl | ⟨x, y, n, rfl⟩) <;> cases h <;> rfl
  · rcases exec_frame h with ⟨-, f, rfl⟩ | hframe
    · rfl
    · by_contra hne
      rcases writer_of_emitted_ne hframe hne with hins | ⟨x, y, n, hins⟩
      · exact hcls hins
      · exact hdrw x y n hins

end Sys2Proof.Proofs
end

section
/-! SUPPORT. The key wait: its entry, one key event and the completion, and what lasts while agents step with no press and
no stop (47_input.md R311 to R318). -/

namespace Sys2Proof.Machine
open Sys2Proof.Claims

/-! ### One step -/

theorem exec_ldVxK_of_key {s : State} (x : Reg) {k : Key} (h : s.notify = some k) :
    exec (.ldVxK x) s = .next (s.nextPC.consumeKey x k) := by
  change Host.Outcome.next (s.nextPC.awaitKey x) = _
  rw [State.awaitKey, State.nextPC_notify, h]

theorem exec_ldVxK_of_empty {s : State} (x : Reg) (h : s.notify = none) :
    exec (.ldVxK x) s = .next (s.nextPC.setExec (.waitKey x)) := by
  change Host.Outcome.next (s.nextPC.awaitKey x) = _
  rw [State.awaitKey, State.nextPC_notify, h]

theorem acceptKey_of_live {s : State} (h : s.execState.isLive = true) (k : Key) (pressed : Bool) :
    acceptKey k pressed s =
      { s with key := s.key.set k.val pressed, notify := if pressed then some k else s.notify } := if_pos h

theorem acceptKey_isPressed_of_live {s : State} (h : s.execState.isLive = true) (k : Key) (pressed : Bool) (j : Key) :
    (acceptKey k pressed s).isPressed j = if j = k then pressed else s.isPressed j := by
  simp only [acceptKey_of_live h, State.isPressed, Vector.getElem_set, Fin.ext_iff, eq_comm]

theorem instrTick_of_waiting {s : State} {x : Reg} (h : s.execState = .waitKey x) : instrTick s = .next s :=
  instrTick_not_running (by rw [h]; exact ExecState.noConfusion)

theorem isLive_of_waiting {s : State} {x : Reg} (h : s.execState = .waitKey x) : s.execState.isLive = true := by
  rw [h]; rfl

theorem State.getV_congr {s t : State} (h : t.v = s.v) (r : Reg) : t.getV r = s.getV r :=
  congrArg (fun v : Vector Byte 16 => v[r.val]) h

/-! ### A list of steps -/

theorem runActivations_cons {a : Activation} {s u : State} (h : activate a s = .next u) (as : List Activation) :
    runActivations (a :: as) s = runActivations as u := by
  rw [runActivations, h]

theorem runActivations_append {as : List Activation} {s u : State} (h : runActivations as s = .next u)
    (bs : List Activation) : runActivations (as ++ bs) s = runActivations bs u := by
  induction as generalizing s with
  | nil => cases h; rfl
  | cons a as ih =>
    obtain ⟨w, hw, hrest⟩ := runActivations_cons_cases h
    rw [List.cons_append, runActivations_cons hw, ih hrest]

/-- What lasts of a wait that began in `s`: in `u` EXEC is WaitKey(x), NOTIFY is `n`, and V, PC and M are those of `s`. -/
structure StillWaits (x : Reg) (n : Option Key) (s u : State) : Prop where
  execState : u.execState = .waitKey x
  notify : u.notify = n
  v : u.v = s.v
  pc : u.pc = s.pc
  mem : u.mem = s.mem

section
variable {x : Reg} {n : Option Key} {s u : State}

theorem StillWaits.timerTick (h : StillWaits x n s u) : StillWaits x n s (timerTick u) := by
  obtain ⟨hx, hn, hv, hpc, hmem⟩ := h
  rw [timerTick_of_live (isLive_of_waiting hx)]
  exact ⟨hx, hn, hv, hpc, hmem⟩

/-- A key event changes of this only NOTIFY: a press posts its key, a release leaves it (47_input.md R311). -/
theorem StillWaits.acceptKey (h : StillWaits x n s u) (k : Key) (pressed : Bool) :
    StillWaits x (if pressed then some k else n) s (acceptKey k pressed u) := by
  obtain ⟨hx, rfl, hv, hpc, hmem⟩ := h
  rw [acceptKey_of_live (isLive_of_waiting hx)]
  exact ⟨hx, rfl, hv, hpc, hmem⟩

/-- No step but a press, a stop, or the completion with a key posted changes it. -/
theorem StillWaits.step {a : Activation} (h : StillWaits x n s u) (ha : neitherPressNorStop a = true)
    (hdone : a = .keyWaitDone → n = none) : ∃ w, activate a u = .next w ∧ StillWaits x n s w := by
  cases a with
  | instrTick => exact ⟨u, instrTick_of_waiting h.execState, h⟩
  | keyWaitDone => exact ⟨u, congrArg _ (keyWaitDone_of_empty (h.notify.trans (hdone rfl))), h⟩
  | timerTick => exact ⟨_, rfl, h.timerTick⟩
  | keyEvent k pressed =>
    cases pressed with
    | true => cases ha
    | false => exact ⟨_, rfl, h.acceptKey k false⟩
  | stop => cases ha

theorem StillWaits.run {as : List Activation} (h : StillWaits x n s u) (has : ∀ a ∈ as, neitherPressNorStop a = true)
    (hdone : .keyWaitDone ∈ as → n = none) : ∃ w, runActivations as u = .next w ∧ StillWaits x n s w := by
  induction as generalizing u with
  | nil => exact ⟨u, rfl, h⟩
  | cons a as ih =>
    obtain ⟨ha, has⟩ := List.forall_mem_cons.1 has
    obtain ⟨u', hu', h'⟩ := h.step ha fun heq => hdone (heq ▸ List.mem_cons_self)
    rw [runActivations_cons hu']
    exact ih h' has fun hmem => hdone (List.mem_cons_of_mem a hmem)

end

end Sys2Proof.Machine

namespace Sys2Proof.Proofs
open Sys2Proof.Machine Sys2Proof.Claims

/-- Settles O33: the wait lasts before the press with NOTIFY empty, and after it with the key pressed posted, which the
completion then takes. -/
theorem keyWaitEndsWithThePress : Obligations.KeyWaitEndsWithThePress := by
  intro before after s x k hx hn hbefore hafter
  have hwait : StillWaits x none s s := ⟨hx, hn, rfl, rfl, rfl⟩
  obtain ⟨u, hu, huwait⟩ := hwait.run hbefore fun _ => rfl
  have hpressed : StillWaits x (some k) s (acceptKey k true u) := huwait.acceptKey k true
  obtain ⟨w, hw, hwwait⟩ := hpressed.run (fun a ha => (hafter a ha).1) fun hmem => absurd rfl (hafter _ hmem).2
  have hrun : ∀ rest, runActivations (before ++ .keyEvent k true :: (after ++ rest)) s = runActivations rest w :=
    fun rest => (runActivations_append hu _).trans (runActivations_append hw rest)
  obtain ⟨hwx, hwn, hwv, hwpc, hwmem⟩ := hwwait
  refine ⟨⟨u, hu, huwait.execState, huwait.v, huwait.pc, huwait.mem⟩,
    ⟨w, List.append_nil after ▸ hrun [], hwx, hwv, hwpc, hwmem⟩,
    (w.consumeKey x k).setExec .running, ?_, rfl, fun r => ?_, rfl, hwpc, hwmem⟩
  · rw [hrun]
    exact runActivations_cons (congrArg _ (keyWaitDone_of_key hwx hwn)) []
  · rw [← State.getV_congr hwv]
    exact State.getV_consumeKey w x r k

/-- Settles O30: this hardware's policy leaves NOTIFY as it is on entry, so it decides between the two. -/
theorem keyWaitConsumesOrSuspends : Obligations.KeyWaitConsumesOrSuspends := fun s x =>
  ⟨decode_encode (i := .ldVxK x) rfl,
    fun k hk => ⟨_, exec_ldVxK_of_key x hk, fun r => State.getV_consumeKey s.nextPC x r k, rfl, rfl, rfl, fun _ => rfl⟩,
    exec_ldVxK_of_empty x⟩

/-- Settles O31, by whether EXEC is live. -/
theorem keyEventUpdatesTable : Obligations.KeyEventUpdatesTable := by
  intro s k pressed
  refine ⟨fun hlive => ⟨_, rfl, acceptKey_isPressed_of_live hlive k pressed, ?_, ?_⟩, fun hdead => ?_⟩
  · rw [acceptKey_of_live hlive]
  · rw [acceptKey_of_live hlive]
  · exact congrArg Host.Outcome.next (acceptKey_of_not_live hdead k pressed)

/-- Settles O32: a completion consumes the key posted, and without one neither it nor a tick is enabled. -/
theorem keyWaitCompletes : Obligations.KeyWaitCompletes := fun s x hx =>
  ⟨fun k hk => ⟨_, congrArg Host.Outcome.next (keyWaitDone_of_key hx hk), fun r => State.getV_consumeKey s x r k, rfl⟩,
    fun hn => congrArg Host.Outcome.next (keyWaitDone_of_empty hn), instrTick_of_waiting hx⟩

end Sys2Proof.Proofs
end

section
/-! SUPPORT. The faults of an instruction tick, each with its cause (60_exceptions.md R331, R334, R336), whose step the
machine's is, and what every step keeps (40_execution_cycle.md R130, 70_reset_and_hazards.md R376). -/

namespace Sys2Proof.Machine
open Sys2Proof.Claims

/-! ### The faults -/

/-- The instruction raises the fault `f` in `s`: the list of 60_exceptions.md R331, without DecodeError. -/
def Raises (ins : Instr) (s : State) (f : Fault) : Prop :=
  (f = .stackOverflow 16 ∧ s.sp = 16 ∧ ∃ nnn, ins = .call nnn)
    ∨ (f = .stackUnderflow 0 ∧ s.sp = 0 ∧ ins = .ret)
    ∨ (∃ x j, ins = .ldB x ∧ FirstReserved s 3 j ∧ f = .reservedWrite (slot s j))
    ∨ (∃ x j, ins = .ldStore x ∧ FirstReserved s (x.val + 1) j ∧ f = .reservedWrite (slot s j))
    ∨ ∃ x, (ins = .skp x ∨ ins = .sknp x) ∧ (s.getV x).toNat > 0xF ∧ f = .keyIndexRange (s.getV x)

/-- A list write that faults does so at its first reserved address (20_memory.md R73). -/
theorem State.memWriteList_error_cases {s : State} {addr : Nat} {bs : List Byte} {f : Fault}
    (h : s.memWriteList hardware addr bs = .error f) :
    ∃ j < bs.length, cellOf (addr + j) < 0x200 ∧ (∀ k < j, 0x200 ≤ cellOf (addr + k))
      ∧ f = .reservedWrite (cellOf (addr + j)) := by
  induction bs generalizing s addr with
  | nil => cases h
  | cons b bs ih =>
    rw [State.memWriteList, State.memWrite_hardware] at h
    by_cases hres : cellOf addr < 0x200
    · rw [if_pos hres] at h
      cases h
      exact ⟨0, Nat.succ_pos _, hres, fun k hk => absurd hk (Nat.not_lt_zero k), rfl⟩
    · rw [if_neg hres] at h
      obtain ⟨j, hj, hlow, hbefore, hf⟩ := ih h
      rw [Nat.add_assoc, Nat.add_comm 1 j] at hlow hf
      refine ⟨j + 1, Nat.succ_lt_succ hj, hlow, fun k hk => ?_, hf⟩
      cases k with
      | zero => exact Nat.not_lt.1 hres
      | succ k => simpa only [Nat.add_assoc, Nat.add_comm 1 k] using hbefore k (Nat.lt_of_succ_lt_succ hk)

/-- A store through I takes the fault at its first reserved address, or writes memory alone. -/
theorem State.conclude_memWriteList_cases {s t : State} {bs : List Byte}
    (h : s.conclude (s.nextPC.memWriteList hardware s.base bs) = .next t) :
    (∃ j, FirstReserved s bs.length j ∧ t = faultedFrom s (.reservedWrite (slot s j)))
      ∨ t = { s.nextPC with mem := t.mem } := by
  rcases State.conclude_cases h with hok | ⟨f, herr, rfl⟩
  · exact .inr (State.memWriteList_frame hok)
  · obtain ⟨j, hj, hlow, hbefore, rfl⟩ := State.memWriteList_error_cases herr
    exact .inl ⟨j, ⟨hj, hlow, hbefore⟩, rfl⟩

/-- An instruction takes the fault it raises, or it writes within its frame. -/
theorem exec_raises_or_frame {ins : Instr} {s t : State} (h : exec ins s = .next t) :
    (∃ f, Raises ins s f ∧ t = faultedFrom s f) ∨ t = frameOf ins s t := by
  cases ins with
  | call nnn =>
    by_cases hsp : s.sp = 16
    · cases (exec_call_of_full nnn hsp).symm.trans h
      exact .inl ⟨_, .inl ⟨rfl, hsp, nnn, rfl⟩, rfl⟩
    · cases (exec_call_of_room nnn (by omega : s.sp.val < 16)).symm.trans h
      exact .inr rfl
  | ret =>
    by_cases hsp : s.sp = 0
    · cases (exec_ret_of_empty hsp).symm.trans h
      exact .inl ⟨_, .inr (.inl ⟨rfl, hsp, rfl⟩), rfl⟩
    · cases (exec_ret_of_sp (k := s.sp.val - 1) (by omega) (by omega)).symm.trans h
      exact .inr rfl
  | ldB x =>
    refine (State.conclude_memWriteList_cases h).imp_left fun ⟨j, hfirst, ht⟩ => ⟨_, ?_, ht⟩
    exact .inr (.inr (.inl ⟨x, j, rfl, hfirst, rfl⟩))
  | ldStore x =>
    refine (State.conclude_memWriteList_cases h).imp_left fun ⟨j, hfirst, ht⟩ => ⟨_, ?_, ht⟩
    exact .inr (.inr (.inr (.inl ⟨x, j, rfl, State.length_valuesUpTo s x ▸ hfirst, rfl⟩)))
  | skp x =>
    rcases keyIndex_fault (s.getV x) with ⟨hle, hkey⟩ | ⟨hrange, hkey⟩
    · cases (execSkpUnder_of_key (c := hardware) hkey).symm.trans h
      exact .inr rfl
    · cases (exec_keySkip_of_fault hkey).1.symm.trans h
      exact .inl ⟨_, .inr (.inr (.inr (.inr ⟨x, .inl rfl, hrange, rfl⟩))), rfl⟩
  | sknp x =>
    rcases keyIndex_fault (s.getV x) with ⟨hle, hkey⟩ | ⟨hrange, hkey⟩
    · cases (execSknpUnder_of_key (c := hardware) hkey).symm.trans h
      exact .inr rfl
    · cases (exec_keySkip_of_fault hkey).2.symm.trans h
      exact .inl ⟨_, .inr (.inr (.inr (.inr ⟨x, .inr rfl, hrange, rfl⟩))), rfl⟩
  | _ => exact .inr ((exec_frame h).resolve_left fun ⟨hmay, _⟩ => Bool.false_ne_true hmay)

/-- An instruction of a running CORE that ends Faulted has taken a fault that it raises. -/
theorem exec_raises_of_faulted {ins : Instr} {s t : State} {rec : FaultRecord} (hrun : s.execState = .running)
    (h : exec ins s = .next t) (ht : t.execState = .faulted rec) : ∃ f, Raises ins s f ∧ t = faultedFrom s f := by
  refine (exec_raises_or_frame h).resolve_right fun hframe => ?_
  cases ins with
  | ldVxK x =>
    rcases execLdVxK_cases h with ⟨k, -, rfl⟩ | ⟨-, rfl⟩
    · cases hrun.symm.trans ht
    · cases ht
  | _ => cases hrun.symm.trans ((congrArg State.execState hframe).symm.trans ht)

/-- The instruction tick of `s` takes the fault `f`: its word decodes to no instruction, or to one that raises it. -/
def State.Takes (s : State) (f : Fault) : Prop :=
  (f = .decodeError s.fetchWord ∧ decode s.fetchWord = .error (.illegalWord s.fetchWord))
    ∨ ∃ ins, s.Executes ins ∧ Raises ins s f

/-- An instruction tick that ends Faulted has taken a fault, and nothing else (60_exceptions.md R331, R336). -/
theorem fetchExecute_takes_of_faulted {s t : State} {rec : FaultRecord} (hrun : s.execState = .running)
    (h : fetchExecute s = .next t) (ht : t.execState = .faulted rec) : ∃ f, s.Takes f ∧ t = faultedFrom s f := by
  cases hd : decode s.fetchWord with
  | ok ins =>
    obtain ⟨f, hf, hfault⟩ := exec_raises_of_faulted hrun (fetchExecute_of_decode hd ▸ h) ht
    exact ⟨f, .inr ⟨ins, ⟨hrun, hd⟩, hf⟩, hfault⟩
  | error e =>
    cases (fetchExecute_of_error hd).symm.trans h
    exact ⟨_, .inl ⟨rfl, decode_error_word hd ▸ hd⟩, rfl⟩

/-! ### The fault record -/

theorem Fault.Raised.of_raises {ins : Instr} {s : State} {f : Fault} (h : Raises ins s f) : f.Raised s := by
  rcases h with ⟨rfl, hsp, -⟩ | ⟨rfl, hsp, -⟩ | ⟨x, j, -, ⟨-, hlow, -⟩, rfl⟩ | ⟨x, j, -, ⟨-, hlow, -⟩, rfl⟩
    | ⟨x, -, hrange, rfl⟩
  · exact ⟨hsp.symm, hsp⟩
  · exact ⟨hsp.symm, hsp⟩
  · exact (hardware_reserved _).trans (decide_eq_true hlow)
  · exact (hardware_reserved _).trans (decide_eq_true hlow)
  · exact hrange

theorem Fault.Raised.of_takes {s : State} {f : Fault} (h : s.Takes f) : f.Raised s := by
  rcases h with ⟨rfl, hd⟩ | ⟨ins, -, hf⟩
  · exact ⟨rfl, hd⟩
  · exact .of_raises hf

/-- A step that ends Faulted left a faulted state alone, or it is an instruction tick of a running CORE
(40_execution_cycle.md R131). -/
theorem activate_faulted_cases {a : Activation} {s t : State} {rec : FaultRecord} (h : activate a s = .next t)
    (ht : t.execState = .faulted rec) : t = s ∨ (s.execState = .running ∧ fetchExecute s = .next t) := by
  obtain ⟨hmove, hkept⟩ := Proofs.execStateMovesByTheTable a s t h
  by_cases he : t.execState = s.execState
  · exact .inl (hkept (ExecState.isLive_eq_false_iff.2 (.inr ⟨rec, he.symm.trans ht⟩)))
  · simp only [ht] at hmove he
    rcases hmove he with ⟨-, x, -, -, hx⟩ | ⟨rfl, hrun, -⟩ | ⟨-, x, k, -, -, hx, -⟩ | ⟨-, -, hx, -⟩
    · cases hx
    · exact .inr ⟨hrun, (instrTick_running hrun).symm.trans h⟩
    · cases hx
    · cases hx

theorem activate_recordTrue {a : Activation} {s t : State} (hs : s.RecordTrue) (h : activate a s = .next t) :
    t.RecordTrue := by
  intro rec ht
  rcases activate_faulted_cases h ht with rfl | ⟨hrun, hexec⟩
  · exact hs rec ht
  · obtain ⟨f, hf, rfl⟩ := fetchExecute_takes_of_faulted hrun hexec ht
    cases ht
    have hraised : f.Raised s := .of_takes hf
    exact ⟨rfl, rfl, hraised⟩

/-! ### The machine's step -/

theorem executorStep_of_waiting {s : State} {x : Reg} (h : s.execState = .waitKey x) :
    executorStep s = activate .keyWaitDone s := by
  rw [executorStep, h]
  rfl

theorem executorStep_of_not_waiting {s : State} (h : ∀ x, s.execState ≠ .waitKey x) :
    executorStep s = activate .instrTick s := by
  cases he : s.execState with
  | waitKey x => exact absurd he (h x)
  | running | stopped | faulted => rw [executorStep, he]; rfl

/-- The machine's step is some agent's, from the state with its turn taken off the list. -/
theorem step_eq_activate (s : State) : ∃ a, step s = activate a s.dropPending := by
  cases hp : s.pending with
  | cons a as => exact ⟨a, step_of_pending hp⟩
  | nil =>
    rw [step_of_idle hp, State.dropPending_idle hp]
    by_cases hw : ∃ x, s.execState = .waitKey x
    · obtain ⟨x, hx⟩ := hw
      exact ⟨_, executorStep_of_waiting hx⟩
    · exact ⟨_, executorStep_of_not_waiting (not_exists.1 hw)⟩

theorem activate_answers (a : Activation) (s : State) : ∃ t, activate a s = .next t := by
  cases a with
  | instrTick =>
    by_cases hrun : s.execState = .running
    · exact (fetchExecute_answers s).imp fun t ht => (instrTick_running hrun).trans ht
    · exact ⟨s, instrTick_not_running hrun⟩
  | _ => exact ⟨_, rfl⟩

theorem step_answers (s : State) : ∃ t, step s = .next t := by
  obtain ⟨a, ha⟩ := step_eq_activate s
  exact ha ▸ activate_answers a s.dropPending

theorem step_recordTrue {s t : State} (hs : s.RecordTrue) (h : step s = .next t) : t.RecordTrue := by
  obtain ⟨a, ha⟩ := step_eq_activate s
  have hdrop : s.dropPending.RecordTrue := hs
  exact activate_recordTrue hdrop (ha.symm.trans h)

/-! ### The list of turns -/

theorem State.withPending_nil {s : State} (h : s.pending = []) : s.withPending [] = s := by
  rw [State.withPending, ← h]

/-- No agent's step lists a turn. -/
theorem activate_pending_nil {a : Activation} {s t : State} (hs : s.pending = []) (h : activate a s = .next t) :
    t.pending = [] := by
  have hnil := activate_withPending a s []
  rw [State.withPending_nil hs, h] at hnil
  exact congrArg State.pending (Host.Outcome.next.inj hnil)

/-- The machine takes the first of the turns listed, and leaves the rest. -/
theorem step_withPending_cons {a : Activation} {s t : State} (h : activate a s = .next t) (as : List Activation) :
    step (s.withPending (a :: as)) = .next (t.withPending as) :=
  calc step (s.withPending (a :: as))
    _ = activate a (s.withPending as) := step_of_pending rfl
    _ = .next (t.withPending as) := by rw [activate_withPending, h]; rfl

theorem run_withPending {as : List Activation} {s : State} (hs : s.pending = []) :
    Host.Core.run core as.length (s.withPending as) = runActivations as s := by
  induction as generalizing s with
  | nil => exact congrArg Host.Outcome.next (State.withPending_nil hs)
  | cons a as ih =>
    obtain ⟨t, ht⟩ := activate_answers a s
    rw [List.length_cons, run_of_next (step_withPending_cons ht as), runActivations_cons ht]
    exact ih (activate_pending_nil hs ht)

end Sys2Proof.Machine

namespace Sys2Proof.Proofs
open Sys2Proof.Machine Sys2Proof.Claims

/-- Settles O49: memory's part by the steps that can write memory, the record's by the steps that can end Faulted. -/
theorem everyStepKeepsTheInvariant : Obligations.EveryStepKeepsTheInvariant := by
  rintro s t ⟨hwf, hreserved, hrecord⟩ h
  obtain ⟨hwf', hreserved'⟩ := step_memoryIntact ⟨hwf, hreserved⟩ h
  exact ⟨hwf', hreserved', step_recordTrue hrecord h⟩

/-- Settles O40: a tick that ends Faulted took a fault, whose record names what it was taken from. -/
theorem faultsArePreciseAndCaused : Obligations.FaultsArePreciseAndCaused := by
  intro s t rec hrun h ht
  obtain ⟨f, hf, rfl⟩ := fetchExecute_takes_of_faulted hrun ((instrTick_running hrun).symm.trans h) ht
  cases ht
  exact ⟨rfl, rfl, rfl, hf⟩

/-- Settles O38: a step is some agent's, and every agent's step answers. -/
theorem everyInstructionAnswers : Obligations.EveryInstructionAnswers := ⟨exec_answers, step_answers⟩

/-- Settles O44: no step reads the list, so the machine takes the turns listed one after another. -/
theorem everyInterleavingIsAdmitted : Obligations.EveryInterleavingIsAdmitted := fun _ _ hs => run_withPending hs

/-- Settles O37: the first turn listed, the Executor's own step, and a step that is not enabled. -/
theorem stepIsOneAgentsStep : Obligations.StepIsOneAgentsStep := by
  refine fun s => ⟨fun a as hp => ?_, fun hp => ⟨?_, fun hw => ?_⟩, fun hterminal => ?_⟩
  · rw [step_of_pending hp, State.dropPending, hp]
    rfl
  · rintro ⟨x, hx⟩
    exact (step_of_idle hp).trans (executorStep_of_waiting hx)
  · exact (step_of_idle hp).trans (executorStep_of_not_waiting hw)
  · obtain ⟨a, ha⟩ := step_eq_activate s
    exact ha.trans (activate_of_not_live (s := s.dropPending) (ExecState.isLive_eq_false_iff.2 hterminal) a)

end Sys2Proof.Proofs
end

section
/-! SUPPORT. One timer tick and one instruction tick as activations, and the tone (60_exceptions.md R344, R345, R353,
R358). -/

namespace Sys2Proof.Machine

theorem State.tone_iff (s : State) : s.tone = true ↔ s.st ≠ 0 := bne_iff_ne

/-- The tone depends on ST alone. -/
theorem State.st_ne_of_tone_ne {s t : State} (h : t.tone ≠ s.tone) : t.st ≠ s.st :=
  fun hst => h (congrArg (· != 0) hst)

/-- Only 0 and 1 count down to 0. -/
theorem eq_one_of_tickDown_eq_zero {b : Byte} (hb : b ≠ 0) (h : tickDown b = 0) : b = 1 := by
  have hdown := toNat_tickDown b
  rw [h] at hdown
  bv_omega

/-- A timer tick that changes the tone takes ST from 1 to 0. -/
theorem timerTick_tone_ne {s : State} (h : (timerTick s).tone ≠ s.tone) : s.st = 1 ∧ (timerTick s).st = 0 := by
  cases hlive : s.execState.isLive with
  | false => exact absurd (congrArg State.tone (timerTick_of_not_live hlive)) h
  | true =>
    have hst : (timerTick s).st = tickDown s.st := congrArg State.st (timerTick_of_live hlive)
    have hlit : s.st ≠ 0 := fun hzero =>
      State.st_ne_of_tone_ne h (hst.trans ((congrArg tickDown hzero).trans hzero.symm))
    have hout : (timerTick s).st = 0 := by
      by_contra hstill
      exact h (((State.tone_iff _).2 hstill).trans ((State.tone_iff s).2 hlit).symm)
    exact ⟨eq_one_of_tickDown_eq_zero hlit (hst.symm.trans hout), hout⟩

end Sys2Proof.Machine

namespace Sys2Proof.Proofs
open Sys2Proof.Machine

/-- Settles O25: a step that changes the tone changes ST, which Fx18 and the timer tick write. -/
theorem toneFollowsSoundTimer : Obligations.ToneFollowsSoundTimer := by
  refine ⟨State.tone_iff, fun a s t h hne => ?_⟩
  by_cases ha : a = .timerTick
  · subst ha
    cases h
    exact .inr ⟨rfl, timerTick_tone_ne hne⟩
  · obtain ⟨hinstr, ins, hexec, x, rfl⟩ := (activate_timer_writers h ha).2 (State.st_ne_of_tone_ne hne)
    exact .inl ⟨hinstr, x, hexec⟩

/-- Settles O23, by whether EXEC is live. -/
theorem timerTickCountsDown : Obligations.TimerTickCountsDown := by
  refine fun s => ⟨fun hlive => ⟨_, congrArg Host.Outcome.next (timerTick_of_live hlive), ?_⟩, fun hdead => ?_⟩
  · exact ⟨toNat_tickDown s.dt, toNat_tickDown s.st, rfl⟩
  · exact congrArg Host.Outcome.next (timerTick_of_not_live hdead)

/-- Settles O43: the clauses on the timer tick are those of O23. -/
theorem disabledActivationHasNoEffect : Obligations.DisabledActivationHasNoEffect := by
  intro s
  obtain ⟨hcount, hidle⟩ := timerTickCountsDown s
  refine ⟨instrTick_not_running, fun hterminal => hidle (ExecState.isLive_eq_false_iff.2 hterminal), ?_,
    fun hlive => ?_⟩
  · rintro ins ⟨hrun, hd⟩
    exact (instrTick_running hrun).trans (fetchExecute_of_decode hd)
  · obtain ⟨t, ht, hdt, hst, -⟩ := hcount hlive
    exact ⟨t, ht, hdt, hst⟩

end Sys2Proof.Proofs
end

section
/-! SUPPORT. Reset with an image on this hardware (10_state.md R51, 70_reset_and_hazards.md R370, R372). -/

namespace Sys2Proof.Machine

/-- The reset contents: the font at 0x050 to 0x09F and 0 elsewhere (10_state.md R45, R51). -/
theorem resetByte_eq (a : Nat) :
    resetByte a = if 0x050 ≤ a ∧ a ≤ 0x09F then fontTable.getD (a - 0x050) 0 else 0 := by
  rw [resetByte, hardware_fontBase, hardware_fontSize, hardware_fontTable]
  exact if_congr (and_congr_right fun _ => Nat.lt_succ_iff) rfl rfl

/-- Reset with an image that fits: the reset state with the image standing over the reset contents. -/
theorem State.resetWith_of_fits {image : List Byte} (h : image.length ≤ 3584) :
    ∃ m : Memory, State.resetWith image = .next { State.reset with mem := m } ∧ m.wf = true
      ∧ ∀ a < Size.memSize, { State.reset with mem := m }.memRead a =
          if 0x200 ≤ a ∧ a < 0x200 + image.length then image.getD (a - 0x200) 0 else resetByte a := by
  obtain ⟨hframe, hwf, hread⟩ := State.loadBytes_spec (s := State.reset) rfl (addr := 0x200) (bs := image)
    (by simp only [Size.memSize]; omega)
  refine ⟨_, ?_, hwf, fun a ha => ?_⟩
  · rw [State.resetWith_eq, if_pos h]
    exact congrArg Host.Outcome.next hframe
  · have hreset : State.reset.memRead a = resetByte a := congrArg resetByte (cellOf_of_lt ha)
    rw [← hframe, hread a ha, hreset]

theorem State.resetWith_of_overlong {image : List Byte} (h : image.length > 3584) :
    State.resetWith image = .refused (.imageTooLong image.length) :=
  (State.resetWith_eq image).trans (if_neg (Nat.not_le.2 h))

/-- An image stands above the reserved area, and a state after reset is Running. -/
theorem State.inv_of_resetWith {image : List Byte} {s : State} (h : State.resetWith image = .next s) : s.Inv := by
  by_cases hlen : image.length ≤ 3584
  · obtain ⟨m, hreset, hwf, hread⟩ := State.resetWith_of_fits hlen
    cases hreset.symm.trans h
    refine ⟨hwf, fun a ha => ?_, fun rec hrec => ExecState.noConfusion hrec⟩
    rw [hread a (by simp only [Size.memSize]; omega), if_neg (by omega)]
  · cases (State.resetWith_of_overlong (Nat.not_le.1 hlen)).symm.trans h

end Sys2Proof.Machine

namespace Sys2Proof.Proofs
open Sys2Proof.Machine

/-- Settles O52: the bytes of the image and of the font stand apart, and all else is the reset state's. -/
theorem resetLeavesTheTable : Obligations.ResetLeavesTheTable := by
  intro image hlen
  obtain ⟨m, hreset, -, hread⟩ := State.resetWith_of_fits hlen
  refine ⟨_, hreset, fun r => Vector.getElem_replicate r.isLt, rfl, rfl, rfl, fun j hj => Vector.getElem_replicate hj,
    rfl, rfl, fun a ha => ?_, Framebuffer.at_clear, fun k => Vector.getElem_replicate k.isLt, rfl, rfl⟩
  rw [hread a ha, resetByte_eq]
  by_cases himage : 0x200 ≤ a ∧ a < 0x200 + image.length
  · rw [if_pos himage, if_neg (by omega), if_pos himage]
  · rw [if_neg himage, if_neg himage]

/-- Settles O50: the reset with no image is that with the empty one. -/
theorem resetHasTheInvariant : Obligations.ResetHasTheInvariant :=
  ⟨State.inv_of_resetWith resetSatisfiesBothFills.1, fun _ _ => State.inv_of_resetWith⟩

/-- Settles O54: the image does not fit between 0x200 and the last cell. -/
theorem overlongImageIsRefused : Obligations.OverlongImageIsRefused := fun _ => State.resetWith_of_overlong

end Sys2Proof.Proofs
end
